-- ==== Sys2Proof/Word.lean ====
section
/-! DEFINITION. The bit vectors the spec itself treats as bits: the 32-bit word of the host data port and of a
command (XLEN, R11, R61, R100), the nibble that names a register (R101), the 256-bit value of a field register, of a
coordinate and of an integer magnitude (R21, R23, R25), and the word index of a port transaction (`off[11:2]`, R61). -/

namespace Sys2Proof

/-- A word of the host data port and a command word: 32 bits (R61, R100). -/
abbrev Word := BitVec 32

/-- A register field of a command word (R101). -/
abbrev Nibble := BitVec 4

/-- A 256-bit value: a field register, a coordinate, an integer magnitude, a diagnostic (R21, R23, R25, R48). -/
abbrev W256 := BitVec 256

/-- The word index `off[11:2]` that the port carries in place of a byte offset (R61): a narrower or misaligned
access cannot be written down. -/
abbrev WordIndex := BitVec 10

/-- The byte offset `off` of a word index in the 4 KiB window (R60, R61). -/
def WordIndex.off (ix : WordIndex) : Nat := 4 * ix.toNat

end Sys2Proof
end

