-- ==== Sys2Proof/Syntax.lean ====
section
/-! DEFINITION. The 23 commands of rule R104 as syntax, one constructor per row of `spec/opcode_table.json`, in the
table's order. Operands are the nibbles of the command word (R101); the class of register a nibble names is fixed by
the command (R102). The nibbles of PNEW that it ignores are kept (R107): they are part of the word. -/

namespace Sys2Proof

/-- A command of BFS-CORE (R104). `rd` is the destination, `ra` and `rb` the sources. -/
inductive Instr where
  | fnew (rd ra : Nibble)
  | fzero (rd : Nibble)
  | fone (rd : Nibble)
  | fmov (rd ra : Nibble)
  | feq (ra rb : Nibble)
  | fadd (rd ra rb : Nibble)
  | fsub (rd ra rb : Nibble)
  | fneg (rd ra : Nibble)
  | fmul (rd ra rb : Nibble)
  | fsmul (rd ra rb : Nibble)
  | fpow (rd ra rb : Nibble)
  | finv (rd ra : Nibble)
  | fdiv (rd ra rb : Nibble)
  | pnew (rd ra rb : Nibble) (hx hy : Bool)
  | pldg (rd : Nibble)
  | pmov (rd ra : Nibble)
  | pisinf (ra : Nibble)
  | pgetx (rd ra : Nibble)
  | pgety (rd ra : Nibble)
  | peq (ra rb : Nibble)
  | pdbl (rd ra : Nibble)
  | padd (rd ra rb : Nibble)
  | pmul (rd ra rb : Nibble)
  deriving DecidableEq, Repr

end Sys2Proof
end

