-- ==== Sys2Proof/WellFormed.lean ====
section
/-! DEFINITION. Which commands can be encoded (R102): a nibble that names a P register has bit 3 zero, a nibble that
names a K register has bits 3 and 2 zero, and every nibble may name an F register. -/

namespace Sys2Proof

/-- A nibble that names a P register (R102). -/
def isPNibble (n : Nibble) : Bool := !n.getLsbD 3

/-- A nibble that names a K register (R102). -/
def isKNibble (n : Nibble) : Bool := !n.getLsbD 3 && !n.getLsbD 2

/-- The command's P and K indices lie in range, by the operand classes of rule R104. -/
def Instr.wellFormed : Instr → Bool
  | .fnew _ ra => isKNibble ra
  | .fzero _ => true
  | .fone _ => true
  | .fmov _ _ => true
  | .feq _ _ => true
  | .fadd _ _ _ => true
  | .fsub _ _ _ => true
  | .fneg _ _ => true
  | .fmul _ _ _ => true
  | .fsmul _ ra _ => isKNibble ra
  | .fpow _ _ rb => isKNibble rb
  | .finv _ _ => true
  | .fdiv _ _ _ => true
  | .pnew rd _ _ _ _ => isPNibble rd
  | .pldg rd => isPNibble rd
  | .pmov rd ra => isPNibble rd && isPNibble ra
  | .pisinf ra => isPNibble ra
  | .pgetx _ ra => isPNibble ra
  | .pgety _ ra => isPNibble ra
  | .peq ra rb => isPNibble ra && isPNibble rb
  | .pdbl rd ra => isPNibble rd && isPNibble ra
  | .padd rd ra rb => isPNibble rd && isPNibble ra && isPNibble rb
  | .pmul rd ra rb => isPNibble rd && isPNibble ra && isKNibble rb

end Sys2Proof
end

