-- ==== Sys2Proof/Decode.lean ====
section
/-! DEFINITION. The command encoding: the fields of a word (R101), the opcode map as a table of mask and match (R104),
the decoder (R106), total on all words, with its own verdict for a word that is no command (R110), and the encoder
(R101, and the "Encoding" line of each command's rule). -/

namespace Sys2Proof

/-- Bits 31:24 of a command word (R101). -/
def opcodeOf (w : Word) : BitVec 8 := w.extractLsb' 24 8

/-- The `rd` nibble, bits 23:20 (R101). -/
def rdOf (w : Word) : Nibble := w.extractLsb' 20 4

/-- The `ra` nibble, bits 19:16 (R101). -/
def raOf (w : Word) : Nibble := w.extractLsb' 16 4

/-- The `rb` nibble, bits 15:12 (R101). -/
def rbOf (w : Word) : Nibble := w.extractLsb' 12 4

/-- `hx`, bit 1 (R101). -/
def hxOf (w : Word) : Bool := w.getLsbD 1

/-- `hy`, bit 0 (R101). -/
def hyOf (w : Word) : Bool := w.getLsbD 0

/-- A row of the opcode map: word `w` is the command exactly when `w & mask = pattern` (R104). -/
structure Row where
  pattern : Word
  mask : Word
  build : Word → Instr

/-- The opcode map of rule R104: field construction and comparison. -/
def rowsFieldConstruct : List Row :=
  [⟨0x01000000#32, 0xFF0CFFFF#32, fun w => .fnew (rdOf w) (raOf w)⟩,
   ⟨0x02000000#32, 0xFF0FFFFF#32, fun w => .fzero (rdOf w)⟩,
   ⟨0x03000000#32, 0xFF0FFFFF#32, fun w => .fone (rdOf w)⟩,
   ⟨0x04000000#32, 0xFF00FFFF#32, fun w => .fmov (rdOf w) (raOf w)⟩,
   ⟨0x05000000#32, 0xFFF00FFF#32, fun w => .feq (raOf w) (rbOf w)⟩]

/-- The opcode map of rule R104: the modular adder, multiplier and inverter. -/
def rowsFieldUnits : List Row :=
  [⟨0x10000000#32, 0xFF000FFF#32, fun w => .fadd (rdOf w) (raOf w) (rbOf w)⟩,
   ⟨0x11000000#32, 0xFF000FFF#32, fun w => .fsub (rdOf w) (raOf w) (rbOf w)⟩,
   ⟨0x12000000#32, 0xFF00FFFF#32, fun w => .fneg (rdOf w) (raOf w)⟩,
   ⟨0x18000000#32, 0xFF000FFF#32, fun w => .fmul (rdOf w) (raOf w) (rbOf w)⟩,
   ⟨0x19000000#32, 0xFF0C0FFF#32, fun w => .fsmul (rdOf w) (raOf w) (rbOf w)⟩,
   ⟨0x20000000#32, 0xFF00CFFF#32, fun w => .fpow (rdOf w) (raOf w) (rbOf w)⟩,
   ⟨0x21000000#32, 0xFF00FFFF#32, fun w => .finv (rdOf w) (raOf w)⟩,
   ⟨0x22000000#32, 0xFF000FFF#32, fun w => .fdiv (rdOf w) (raOf w) (rbOf w)⟩]

/-- The opcode map of rule R104: point construction and access, the point units. -/
def rowsPoint : List Row :=
  [⟨0x40000000#32, 0xFF800FFC#32, fun w => .pnew (rdOf w) (raOf w) (rbOf w) (hxOf w) (hyOf w)⟩,
   ⟨0x41000000#32, 0xFF8FFFFF#32, fun w => .pldg (rdOf w)⟩,
   ⟨0x42000000#32, 0xFF88FFFF#32, fun w => .pmov (rdOf w) (raOf w)⟩,
   ⟨0x43000000#32, 0xFFF8FFFF#32, fun w => .pisinf (raOf w)⟩,
   ⟨0x44000000#32, 0xFF08FFFF#32, fun w => .pgetx (rdOf w) (raOf w)⟩,
   ⟨0x45000000#32, 0xFF08FFFF#32, fun w => .pgety (rdOf w) (raOf w)⟩,
   ⟨0x46000000#32, 0xFFF88FFF#32, fun w => .peq (raOf w) (rbOf w)⟩,
   ⟨0x50000000#32, 0xFF88FFFF#32, fun w => .pdbl (rdOf w) (raOf w)⟩,
   ⟨0x51000000#32, 0xFF888FFF#32, fun w => .padd (rdOf w) (raOf w) (rbOf w)⟩,
   ⟨0x60000000#32, 0xFF88CFFF#32, fun w => .pmul (rdOf w) (raOf w) (rbOf w)⟩]

/-- The opcode map: the 23 rows of rule R104. -/
def rows : List Row := rowsFieldConstruct ++ rowsFieldUnits ++ rowsPoint

/-- The decoder's verdict on a word (R106): a command, or illegal. -/
inductive Decoded where
  | command (i : Instr)
  | illegal
  deriving DecidableEq, Repr

/-- The command of the first row that matches the word; no row, illegal (R106). -/
def decodeRows : List Row → Word → Decoded
  | [], _ => .illegal
  | r :: rs, w => if w &&& r.mask = r.pattern then .command (r.build w) else decodeRows rs w

/-- Decoding (R106), total on all words. -/
def decode (w : Word) : Decoded := decodeRows rows w

/-- A command word from its opcode, nibbles and presence bits; bits 11:2 are zero (R101). -/
def assemble (opcode : BitVec 8) (rd ra rb : Nibble) (hx hy : Bool) : Word :=
  opcode ++ rd ++ ra ++ rb ++ 0#10 ++ BitVec.ofBool hx ++ BitVec.ofBool hy

/-- The word of a command (R101, R103, R104): a nibble the format does not use is zero. -/
def encode : Instr → Word
  | .fnew rd ra => assemble 0x01 rd ra 0 false false
  | .fzero rd => assemble 0x02 rd 0 0 false false
  | .fone rd => assemble 0x03 rd 0 0 false false
  | .fmov rd ra => assemble 0x04 rd ra 0 false false
  | .feq ra rb => assemble 0x05 0 ra rb false false
  | .fadd rd ra rb => assemble 0x10 rd ra rb false false
  | .fsub rd ra rb => assemble 0x11 rd ra rb false false
  | .fneg rd ra => assemble 0x12 rd ra 0 false false
  | .fmul rd ra rb => assemble 0x18 rd ra rb false false
  | .fsmul rd ra rb => assemble 0x19 rd ra rb false false
  | .fpow rd ra rb => assemble 0x20 rd ra rb false false
  | .finv rd ra => assemble 0x21 rd ra 0 false false
  | .fdiv rd ra rb => assemble 0x22 rd ra rb false false
  | .pnew rd ra rb hx hy => assemble 0x40 rd ra rb hx hy
  | .pldg rd => assemble 0x41 rd 0 0 false false
  | .pmov rd ra => assemble 0x42 rd ra 0 false false
  | .pisinf ra => assemble 0x43 0 ra 0 false false
  | .pgetx rd ra => assemble 0x44 rd ra 0 false false
  | .pgety rd ra => assemble 0x45 rd ra 0 false false
  | .peq ra rb => assemble 0x46 0 ra rb false false
  | .pdbl rd ra => assemble 0x50 rd ra 0 false false
  | .padd rd ra rb => assemble 0x51 rd ra rb false false
  | .pmul rd ra rb => assemble 0x60 rd ra rb false false

/-- What the decoder reads from the command word whose low `nbits` bits are `w` and whose other bits are zero. A
command is one 32-bit word (R100), so a row's `nbits` is 32. -/
def decodeTableWord (nbits w : Nat) : Option Instr :=
  match decode (BitVec.ofNat 32 (w % 2 ^ nbits)) with
  | .command i => some i
  | .illegal => none

end Sys2Proof
end

