-- ==== Sys2Proof/Config.lean ====
section
/-! DEFINITION. What is fixed for the machine: the hardwired constants (R7 to R10, R28), the identity registers'
values (R40, R41), the sizes of R11, and the implementation's OPEN parameters (R11, U1 to U4, U8, U11), which are
opaque constants: no rule depends on them, and no proof can see a value of one. -/

namespace Sys2Proof.Config

/-- The field prime (R7), as the numeral the rule gives. -/
def p : Nat := 0xFFFFFFFFFFFFFFFFFFFFFFFFFFFFFFFFFFFFFFFFFFFFFFFFFFFFFFFEFFFFFC2F

/-- The group order (R9). PRESUMED: the numeral is the spec's own from general knowledge (D25), log 9. -/
def N : Nat := 0xFFFFFFFFFFFFFFFFFFFFFFFFFFFFFFFEBAAEDCE6AF48A03BBFD25E8CD0364141

/-- The generator's `x` coordinate (R10). PRESUMED: as `N`, log 9. -/
def Gx : W256 := 0x79BE667EF9DCBBAC55A06295CE870B07029BFCDB2DCE28D959F2815B16F81798#256

/-- The generator's `y` coordinate (R10). PRESUMED: as `N`, log 9. -/
def Gy : W256 := 0x483ADA7726A3C4655DA4FBFC0E1108A8FD17B448A68554199C47D08FFB10D4B8#256

/-- The curve parameter `b` (R8). -/
def b : W256 := 7#256

/-- The value of the `ID` register, ASCII "K256" (R40). -/
def idValue : Word := 0x4B323536#32

/-- The value of the `VERSION` register: command-set version 1 (R41). -/
def versionValue : Word := 0x00000001#32

/-- R7: the numeral is `2^256 - 2^32 - 977`. -/
theorem p_eq : p = 2 ^ 256 - 2 ^ 32 - 977 := by decide +kernel

/-- The reduction methods an implementation may use (`REDUCTION` of R11, U1). -/
inductive Reduction where
  | fold
  | barrett
  | montgomery
  deriving DecidableEq, Repr, Inhabited

/-- The internal point forms an implementation may use (`POINT_FORM` of R11, U3). -/
inductive PointForm where
  | affine
  | jacobian
  deriving DecidableEq, Repr, Inhabited

/-- `REDUCTION`: open, not observable (R186). -/
opaque reduction : Reduction

/-- `POINT_FORM`: open, not observable (R270). -/
opaque pointForm : PointForm

/-- One less than `WINDOW_BITS`. -/
opaque windowBitsPred : Nat

/-- `WINDOW_BITS`: open, any `w >= 1`, not observable (R296). -/
def windowBits : Nat := windowBitsPred + 1

/-- `BASE`: where the platform places the window in the host's own address map; no rule depends on it (R60, U8). -/
opaque base : Nat

/-- `FE_TEXT_FORMAT`: how the text form of a field element pairs the two 64-digit numerals; no rule depends on it
(R118, U11). -/
opaque pairText : String → String → String

end Sys2Proof.Config
end

