-- ==== Sys2Proof/Machine/State.lean ====
section
/-! DEFINITION. The state of BFS-CORE as plain data (R20 to R29, R42 to R49), the events that drive it (R13), its
value after reset (R51, R350), and the reasons a step can stop. -/

namespace Sys2Proof.Machine

/-- The error kinds a command can end in (R310, R311). -/
inductive ErrorKind where
  | outOfRange
  | notOnCurve
  | mismatchedCoordinates
  | divisionByZero
  | illegalCommand
  | noCoordinates
  deriving DecidableEq, Repr

/-- Why the machine stops with a fault. No error of a command is one: those are completions (R316). -/
inductive Fault where
  /-- Raised by PDBL, PADD and PMUL when the field division inside the group law raises. R265 and R312 call this
  branch dead: it is reached only in states that hold a coordinate `>= p`, which R23 excludes at every instant.
  Safe: the model stops where the spec describes no state (log 7). -/
  | groupLawRaised (e : ErrorKind)
  deriving DecidableEq, Repr

/-- Why an instruction is refused. -/
inductive Refusal where
  /-- Raised by an arm of `exec` whose command has no meaning yet; none is left. Safe: the model stops. -/
  | notModelled (mnemonic : String)
  deriving DecidableEq, Repr

/-- A point (R23): the group identity, or two coordinates. A point with one coordinate cannot be held. -/
inductive Point where
  | infinity
  | coordinates (x y : W256)
  deriving DecidableEq, Repr

/-- An integer register (R25): a sign bit and a 256-bit magnitude. -/
structure IntReg where
  sign : Bool
  mag : W256
  deriving DecidableEq, Repr

/-- One event at the block's boundary: which agent moves, and what it does (R13, R351). DESIGN CHOICE (log 1). -/
inductive Event where
  /-- `HostRead(off)` at the offset of a word index (R18, R61). -/
  | read (ix : WordIndex)
  /-- `HostWrite(off, v)` (R18, R61). -/
  | write (ix : WordIndex) (v : Word)
  /-- The sequencer's turn: `Complete` if it is enabled, else nothing (R13, R47). -/
  | sequencer
  /-- The platform asserts the hard reset line (R351). -/
  | assertReset
  /-- The platform releases the hard reset line (R351). -/
  | releaseReset
  deriving DecidableEq, Repr

/-- What the port answered to the last transaction. DESIGN CHOICE (log 2). -/
inductive Reply where
  /-- No answer: no transaction yet, or the hard reset line was asserted (R351). -/
  | silent
  /-- The word a read returned. -/
  | data (v : Word)
  /-- A write was taken or dropped; the port always answers (R75). -/
  | written
  deriving DecidableEq, Repr

/-- The state of BFS-CORE, and the two fields of the model's own that stand for its host (`port`, `reply`). -/
structure State where
  /-- Field registers `F0..F15` (R20, R21). -/
  f : Vector W256 16
  /-- Point registers `P0..P7` (R20, R23). -/
  pt : Vector Point 8
  /-- Integer registers `K0..K3` (R20, R25). -/
  k : Vector IntReg 4
  /-- The flag `T` (R29). -/
  t : Bool
  /-- `STATUS.BUSY` (R43). -/
  busy : Bool
  /-- `STATUS.DONE` (R43). -/
  done : Bool
  /-- `RESULT.CODE` (R44). -/
  code : BitVec 4
  /-- `ESTICKY` (R45). -/
  esticky : Word
  /-- `LASTCMD` (R46). -/
  lastcmd : Word
  /-- `CUR`, the accepted command word, meaningful while `busy` (R47, R49). -/
  cur : Word
  /-- `DIAGL` (R48). -/
  diagl : W256
  /-- `DIAGR` (R48). -/
  diagr : W256
  /-- The hard reset line is asserted (R350, R351). -/
  hreset : Bool
  /-- The coming events, the next one first; with none left the host is silent (log 1). -/
  port : List Event
  /-- The port's last answer (log 2). -/
  reply : Reply
  deriving DecidableEq, Repr

/-- The machine right after reset (R51, R350). DESIGN CHOICE: `cur`, which the spec calls not meaningful (log 3), the
released reset line (log 5), and the model's own `port` and `reply` (logs 1 and 2). -/
def State.reset : State where
  f := Vector.replicate 16 0#256
  pt := Vector.replicate 8 .infinity
  k := Vector.replicate 4 ⟨false, 0#256⟩
  t := false
  busy := false
  done := false
  code := 0#4
  esticky := 0#32
  lastcmd := 0#32
  cur := 0#32
  diagl := 0#256
  diagr := 0#256
  hreset := false
  port := []
  reply := .silent

end Sys2Proof.Machine
end

