-- ==== Sys2Proof/Machine/Ops.lean ====
section
/-! DEFINITION. The shared operations: the words of a 256-bit value (R63), the codes of the error kinds (R311), the
two completions of a command, with success (R318) and with an error (R316), and reset (R350 to R352). The completion
with an error takes the place of exception entry (60_exceptions.md); nothing was entered, so there is no return
(R324). -/

namespace Sys2Proof.Machine

/-- Word `j` of a 256-bit value: bits `32j+31 : 32j` (R63). -/
def wordOf (v : W256) (j : Fin 8) : Word := v.extractLsb' (32 * j.val) 32

/-- The 256-bit value with bits `32j+31 : 32j` replaced and the rest unchanged (R69). -/
def setWordOf (v : W256) (j : Fin 8) (w : Word) : W256 :=
  (v &&& ~~~((0xFFFFFFFF#256) <<< (32 * j.val))) ||| (w.setWidth 256 <<< (32 * j.val))

/-- The code of an error kind (R311). -/
def ErrorKind.code : ErrorKind → BitVec 4
  | .outOfRange => 1#4
  | .notOnCurve => 2#4
  | .mismatchedCoordinates => 3#4
  | .divisionByZero => 4#4
  | .illegalCommand => 5#4
  | .noCoordinates => 6#4

/-- The sticky bit of an error kind: bit `code` of `ESTICKY` (R45). -/
def ErrorKind.stickyBit (e : ErrorKind) : Word := 1#32 <<< e.code.toNat

/-- `ESTICKY.BUSYACC`, bit 8 (R45). -/
def busyAccBit : Word := 0x100#32

/-- `ESTICKY.BADACC`, bit 9 (R45). -/
def badAccBit : Word := 0x200#32

/-- The named bits of `ESTICKY`: 1..6, 8, 9 (R45). -/
def stickyMask : Word := 0x37E#32

/-- Set bits of `ESTICKY`. -/
def State.setSticky (s : State) (bits : Word) : State := { s with esticky := s.esticky ||| bits }

/-- Completion with success (R318), after the destination and `T` are written. -/
def State.succeed (s : State) : State :=
  { s with code := 0#4, lastcmd := s.cur, busy := false, done := true }

/-- Completion with an error (R316): code, last command and sticky bit are recorded, `BUSY` falls, `DONE` rises; no
field, point or integer register and not `T`. -/
def State.fail (s : State) (e : ErrorKind) : State :=
  { s with code := e.code, lastcmd := s.cur, esticky := s.esticky ||| e.stickyBit, busy := false, done := true }

/-- Completion with `NotOnCurve`, the one error that records more: both sides of the failed equation (R48, R311). -/
def State.failNotOnCurve (s : State) (left right : W256) : State :=
  { s with diagl := left, diagr := right }.fail .notOnCurve

/-- Completion of an illegal word (R317): no register is read. -/
def State.completeIllegal (s : State) : State := s.fail .illegalCommand

/-- Acceptance of a command word (R47), when `BUSY = 0`. It does not decode (R317). -/
def State.accept (s : State) (w : Word) : State := { s with cur := w, busy := true, done := false }

/-- Every piece of the block's state at its reset value (R350); what the model holds of the host stays. -/
def State.resetBlock (s : State) : State := { State.reset with port := s.port, reply := s.reply }

/-- The soft reset (R352), at any time; a command in flight is abandoned. -/
def State.softReset (s : State) : State := s.resetBlock

/-- The hard reset line is asserted: the port does not answer (R351). DESIGN CHOICE: what the state holds meanwhile,
which nothing can observe (log 5). -/
def State.assertHardReset (s : State) : State := { s.resetBlock with hreset := true, reply := .silent }

/-- The hard reset line is released: the state is that of rule R350 (R351). -/
def State.releaseHardReset (s : State) : State := { s.resetBlock with reply := .silent }

end Sys2Proof.Machine
end

