-- ==== Sys2Proof/Machine/Field.lean ====
section
/-! DEFINITION. The pure functions of the three field units: the modular adder (R161 to R163), the multiplier (R181,
R182) and the Fermat inverter (R201 to R203, R207). Operands are taken as integers, the result is computed exactly and
narrowed once at the end (R166, R185). The rules state the functions for operands in `[0, p)`; the register files hold
no other (R21, log 8). -/

namespace Sys2Proof.Machine

open Sys2Proof.Config (p)

/-- `fadd` (R161): the sum is formed to full width before the comparison with `p` (R166). -/
def fadd (a b : W256) : W256 :=
  let s := a.toNat + b.toNat
  BitVec.ofNat 256 (if p ≤ s then s - p else s)

/-- `fsub` (R162). -/
def fsub (a b : W256) : W256 :=
  BitVec.ofNat 256 (if b.toNat ≤ a.toNat then a.toNat - b.toNat else a.toNat + p - b.toNat)

/-- `fneg` (R163). -/
def fneg (a : W256) : W256 := if a = 0#256 then 0#256 else BitVec.ofNat 256 (p - a.toNat)

/-- `fmul` (R181): the exact product, then the remainder. -/
def fmul (a b : W256) : W256 := BitVec.ofNat 256 (a.toNat * b.toNat % p)

/-- `fsmul` (R182): the exact signed product, then the floored remainder, in `[0, p)` also for `k < 0`. -/
def fsmul (k : Int) (a : W256) : W256 := BitVec.ofNat 256 ((k * (a.toNat : Int)).fmod (p : Int)).toNat

/-- The loop of `powmod` (R207): `r` times `s` to the power `n`, modulo `p`; `fuel` bounds the bits of `n`. -/
def powLoop : Nat → Nat → Nat → Nat → Nat
  | 0, _, _, r => r
  | fuel + 1, n, s, r =>
    if n = 0 then r else powLoop fuel (n / 2) (s * s % p) (if n % 2 = 1 then r * s % p else r)

/-- `powLoop` computes the mathematical power (R207). -/
theorem powLoop_eq (fuel n s r : Nat) (hn : n < 2 ^ fuel) (hr : r < p) :
    powLoop fuel n s r = r * s ^ n % p := by
  induction fuel generalizing n s r with
  | zero =>
    obtain rfl : n = 0 := by omega
    simp [powLoop, Nat.mod_eq_of_lt hr]
  | succ fuel ih =>
    have hp : 0 < p := by decide +kernel
    unfold powLoop
    split
    · next h => simp [h, Nat.mod_eq_of_lt hr]
    · next h =>
      have hhalf : n / 2 < 2 ^ fuel := by rw [Nat.pow_succ] at hn; omega
      split
      · next h1 =>
        rw [ih _ _ _ hhalf (Nat.mod_lt _ hp)]
        have e : s ^ n = s * (s * s) ^ (n / 2) := by
          conv_lhs => rw [show n = 2 * (n / 2) + 1 by omega]
          rw [pow_succ, pow_mul, pow_two, Nat.mul_comm]
        rw [e, Nat.mul_mod, ← Nat.pow_mod, ← Nat.mul_mod, ← Nat.mul_assoc, Nat.mul_mod, Nat.mod_mod, ← Nat.mul_mod]
      · next h1 =>
        rw [ih _ _ _ hhalf hr]
        have e : s ^ n = (s * s) ^ (n / 2) := by
          conv_lhs => rw [show n = 2 * (n / 2) by omega]
          rw [pow_mul, pow_two]
        rw [e, Nat.mul_mod, ← Nat.pow_mod, ← Nat.mul_mod]

/-- The power `a^n` reduced modulo `p`. The type says what it is, the mathematical power (R202); the value is found by
`powmod` of rule R207, proved equal to it, so that it can be evaluated (log 10). -/
@[irreducible] def modPow (a : W256) (n : Nat) : { r : W256 // r.toNat = a.toNat ^ n % p } :=
  ⟨BitVec.ofNat 256 (powLoop (n.log2 + 1) n a.toNat 1), by
    have h : powLoop (n.log2 + 1) n a.toNat 1 = a.toNat ^ n % p := by
      rw [powLoop_eq _ _ _ _ Nat.lt_log2_self (by decide +kernel), Nat.one_mul]
    rw [h, BitVec.toNat_ofNat]
    exact Nat.mod_eq_of_lt (Nat.lt_trans (Nat.mod_lt _ (by decide +kernel)) (by decide +kernel))⟩

/-- `finv` (R201): the zero test comes first. -/
def finv (a : W256) : Except ErrorKind W256 :=
  if a = 0#256 then .error .divisionByZero else .ok (modPow a (p - 2)).val

/-- The branch `e >= 0` of `fpow` (R202): the exponent is reduced modulo `p - 1` first, and the reduced exponent 0
gives 1, also for `a = 0` (C8). -/
def fpowNonneg (a : W256) (e : Nat) : W256 :=
  let e' := e % (p - 1)
  if e' = 0 then 1#256 else (modPow a e').val

/-- `fpow` (R202): for `e < 0` the inverse is taken before anything else. -/
def fpow (a : W256) (e : Int) : Except ErrorKind W256 :=
  if 0 ≤ e then .ok (fpowNonneg a e.toNat)
  else
    match finv a with
    | .error k => .error k
    | .ok i => .ok (fpowNonneg i (e.natAbs % (p - 1)))

/-- `fdiv` (R203): `DivisionByZero` is propagated from `finv`. -/
def fdiv (a b : W256) : Except ErrorKind W256 :=
  match finv b with
  | .error k => .error k
  | .ok i => .ok (fmul a i)

end Sys2Proof.Machine
end

