-- ==== Sys2Proof/Machine/Curve.lean ====
section
/-! DEFINITION. The pure functions of the point units: the curve equation (R230), the group law (R261, R262), the
reduction of a scalar (R291) and the scalar multiplication (R292). `padd` and `pdbl` are written with the fallible
`fdiv` the rules write; that its failure is dead is a statement about them (R265, R312), not part of them. -/

namespace Sys2Proof.Machine

open Sys2Proof.Config (N)

/-- The left side of the curve equation: `y^2` (R230). -/
def lhs (y : W256) : W256 := fmul y y

/-- The right side of the curve equation: `x^3 + 7` (R230). -/
def rhs (x : W256) : W256 := fadd (fmul (fmul x x) x) Config.b

/-- The check of the curve equation (R230). -/
def onCurve (x y : W256) : Bool := lhs y == rhs x

/-- The generator (R10, R28). -/
def generator : Point := .coordinates Config.Gx Config.Gy

/-- `Coordinates(x3, s·(x1 - x3) - y1)`: the last line that R261 and R262 share. -/
def chord (s x1 y1 x3 : W256) : Point := .coordinates x3 (fsub (fmul s (fsub x1 x3)) y1)

/-- `pdbl` (R261). -/
def pdbl : Point → Except ErrorKind Point
  | .infinity => .ok .infinity
  | .coordinates x y =>
    if y = 0#256 then .ok .infinity
    else
      match fdiv (fsmul 3 (fmul x x)) (fsmul 2 y) with
      | .error e => .error e
      | .ok s => .ok (chord s x y (fsub (fmul s s) (fsmul 2 x)))

/-- `padd` (R262), the cases tested in the rule's order. -/
def padd : Point → Point → Except ErrorKind Point
  | .infinity, q => .ok q
  | .coordinates x y, .infinity => .ok (.coordinates x y)
  | .coordinates x1 y1, .coordinates x2 y2 =>
    if x1 = x2 then
      if y1 = y2 then
        if y1 ≠ 0#256 then pdbl (.coordinates x1 y1) else .ok .infinity
      else .ok .infinity
    else
      match fdiv (fsub y2 y1) (fsub x2 x1) with
      | .error e => .error e
      | .ok s => .ok (chord s x1 y1 (fsub (fsub (fmul s s) x1) x2))

/-- `reduce_scalar` (R291): the truncated remainder modulo `N`, brought into `[0, N)`. -/
def reduceScalar (k : Int) : Nat :=
  let r := k.tmod (N : Int)
  (if r < 0 then r + (N : Int) else r).toNat

/-- The loop of `pmul` (R292), least significant bit first; `fuel` bounds the bits of `r`. -/
def pmulLoop : Nat → Nat → Point → Point → Except ErrorKind Point
  | 0, _, acc, _ => .ok acc
  | fuel + 1, r, acc, run =>
    if r = 0 then .ok acc
    else
      match (if r % 2 = 1 then padd acc run else .ok acc) with
      | .error e => .error e
      | .ok acc' =>
        match padd run run with
        | .error e => .error e
        | .ok run' => pmulLoop fuel (r / 2) acc' run'

/-- `pmul` (R292): a reduced scalar has at most 256 bits, so 256 turns of the loop suffice. -/
def pmul (P : Point) (k : Int) : Except ErrorKind Point := pmulLoop 256 (reduceScalar k) .infinity P

end Sys2Proof.Machine
end

