-- ==== Sys2Proof/Machine/Operands.lean ====
section
/-! DEFINITION. The operand forms: the register a nibble names by its class (R102), reading and writing the three
register files (R17, R20), the value of an integer register (R17, R25), the optional coordinates of PNEW (R107,
R233), and the writes of a result to a destination by the completion of a command (R316, R318). -/

namespace Sys2Proof.Machine

/-- The F register a nibble names: all four bits (R102). -/
def fIdx (n : Nibble) : Fin 16 := n.toFin

/-- The P register a nibble names: its low three bits (R102). -/
def pIdx (n : Nibble) : Fin 8 := (n.extractLsb' 0 3).toFin

/-- The K register a nibble names: its low two bits (R102). -/
def kIdx (n : Nibble) : Fin 4 := (n.extractLsb' 0 2).toFin

/-- `F[n]` (R17). -/
def State.readF (s : State) (n : Nibble) : W256 := s.f[fIdx n]

/-- `P[n]` (R17). -/
def State.readP (s : State) (n : Nibble) : Point := s.pt[pIdx n]

/-- `K[n]` (R17). -/
def State.readK (s : State) (n : Nibble) : IntReg := s.k[kIdx n]

/-- `F[n] <- v` (R17). -/
def State.writeF (s : State) (n : Nibble) (v : W256) : State :=
  { s with f := s.f.set (fIdx n).val v (fIdx n).isLt }

/-- `P[n] <- v` (R17). -/
def State.writeP (s : State) (n : Nibble) (v : Point) : State :=
  { s with pt := s.pt.set (pIdx n).val v (pIdx n).isLt }

/-- `val(K)` (R17, R25): `sign = 1, mag = 0` has the value 0. -/
def IntReg.value (k : IntReg) : Int := if k.sign then -(k.mag.toNat : Int) else (k.mag.toNat : Int)

/-- A coordinate operand of PNEW: `F[n]` if it is present; an absent one is not read (R107). -/
def State.readOptF (s : State) (present : Bool) (n : Nibble) : Option W256 :=
  if present then some (s.readF n) else none

/-- `F[n] <- v` and completion with success (R318), or completion with the error raised (R316). -/
def State.completeF (s : State) (n : Nibble) : Except ErrorKind W256 → State
  | .ok v => (s.writeF n v).succeed
  | .error e => s.fail e

/-- `P[n] <- v` and completion with success (R318). A raise from inside the group law is the dead branch of R265 and
R312, mapped to no code: the fault of that name (log 7). -/
def State.completeP (s : State) (n : Nibble) : Except ErrorKind Point → Host.Outcome State Fault Refusal
  | .ok v => .next (s.writeP n v).succeed
  | .error e => .fault (.groupLawRaised e)

end Sys2Proof.Machine
end

