-- ==== Sys2Proof/Machine/Flags.lean ====
section
/-! DEFINITION. The one flag, `T` (R29): the three predicates that write it (R145, R238, R241) and the completion of a
predicate command. -/

namespace Sys2Proof.Machine

/-- Field equality: of the two 256-bit integers (R145). -/
def fieldsEqual (a b : W256) : Bool := a == b

/-- `is_infinity` (R238). -/
def isInfinity : Point → Bool
  | .infinity => true
  | .coordinates _ _ => false

/-- Equality of points (R231): both `Infinity`, or both coordinates equal. -/
def pointsEqual : Point → Point → Bool
  | .infinity, .infinity => true
  | .coordinates x1 y1, .coordinates x2 y2 => fieldsEqual x1 x2 && fieldsEqual y1 y2
  | .infinity, .coordinates _ _ => false
  | .coordinates _ _, .infinity => false

/-- `T <- b` (R17). -/
def State.writeT (s : State) (b : Bool) : State := { s with t := b }

/-- `T <- b` and completion with success (R29, R318). -/
def State.completeT (s : State) (b : Bool) : State := (s.writeT b).succeed

end Sys2Proof.Machine
end

