-- ==== Sys2Proof/Machine/Adder.lean ====
section
/-! DEFINITION. FADD, FSUB, FNEG: the 256-bit modular adder (41_field_adder.md). No flag is written (R166). -/

namespace Sys2Proof.Machine

/-- FADD (R164). -/
def execFadd (rd ra rb : Nibble) (s : State) : Host.Outcome State Fault Refusal :=
  .next (s.completeF rd (.ok (fadd (s.readF ra) (s.readF rb))))

/-- FSUB (R165). -/
def execFsub (rd ra rb : Nibble) (s : State) : Host.Outcome State Fault Refusal :=
  .next (s.completeF rd (.ok (fsub (s.readF ra) (s.readF rb))))

/-- FNEG (R167). -/
def execFneg (rd ra : Nibble) (s : State) : Host.Outcome State Fault Refusal :=
  .next (s.completeF rd (.ok (fneg (s.readF ra))))

end Sys2Proof.Machine
end

