-- ==== Sys2Proof/Machine/FieldConstruct.lean ====
section
/-! DEFINITION. FNEW, FZERO, FONE, FMOV, FEQ (40_field_construct.md). -/

namespace Sys2Proof.Machine

/-- `new(num)` (R141): never reduced; `sign = 1, mag = 0` is not negative. -/
def fieldNew (k : IntReg) : Except ErrorKind W256 :=
  if k.sign = true ∧ k.mag ≠ 0#256 then .error .outOfRange
  else if Config.p ≤ k.mag.toNat then .error .outOfRange
  else .ok k.mag

/-- FNEW (R141). -/
def execFnew (rd ra : Nibble) (s : State) : Host.Outcome State Fault Refusal :=
  .next (s.completeF rd (fieldNew (s.readK ra)))

/-- FZERO (R142). -/
def execFzero (rd : Nibble) (s : State) : Host.Outcome State Fault Refusal :=
  .next (s.completeF rd (.ok 0#256))

/-- FONE (R143). -/
def execFone (rd : Nibble) (s : State) : Host.Outcome State Fault Refusal :=
  .next (s.completeF rd (.ok 1#256))

/-- FMOV (R144). -/
def execFmov (rd ra : Nibble) (s : State) : Host.Outcome State Fault Refusal :=
  .next (s.completeF rd (.ok (s.readF ra)))

/-- FEQ (R145). -/
def execFeq (ra rb : Nibble) (s : State) : Host.Outcome State Fault Refusal :=
  .next (s.completeT (fieldsEqual (s.readF ra) (s.readF rb)))

end Sys2Proof.Machine
end

