-- ==== Sys2Proof/Machine/Inverter.lean ====
section
/-! DEFINITION. FPOW, FINV, FDIV: the Fermat modular inverter (43_field_inverter.md). -/

namespace Sys2Proof.Machine

/-- FPOW (R204): `rb` names a K register. -/
def execFpow (rd ra rb : Nibble) (s : State) : Host.Outcome State Fault Refusal :=
  .next (s.completeF rd (fpow (s.readF ra) (s.readK rb).value))

/-- FINV (R205). -/
def execFinv (rd ra : Nibble) (s : State) : Host.Outcome State Fault Refusal :=
  .next (s.completeF rd (finv (s.readF ra)))

/-- FDIV (R206). -/
def execFdiv (rd ra rb : Nibble) (s : State) : Host.Outcome State Fault Refusal :=
  .next (s.completeF rd (fdiv (s.readF ra) (s.readF rb)))

end Sys2Proof.Machine
end

