-- ==== Sys2Proof/Machine/Multiplier.lean ====
section
/-! DEFINITION. FMUL, FSMUL: the 256-bit modular multiplier (42_field_multiplier.md). -/

namespace Sys2Proof.Machine

/-- FMUL (R183). -/
def execFmul (rd ra rb : Nibble) (s : State) : Host.Outcome State Fault Refusal :=
  .next (s.completeF rd (.ok (fmul (s.readF ra) (s.readF rb))))

/-- FSMUL (R184): `ra` names a K register. -/
def execFsmul (rd ra rb : Nibble) (s : State) : Host.Outcome State Fault Refusal :=
  .next (s.completeF rd (.ok (fsmul (s.readK ra).value (s.readF rb))))

end Sys2Proof.Machine
end

