-- ==== Sys2Proof/Machine/PointAdder.lean ====
section
/-! DEFINITION. PDBL, PADD: the point doubler and the point adder (45_point_doubler_adder.md). The result is written
without checking the curve equation (R266). -/

namespace Sys2Proof.Machine

/-- PDBL (R263). -/
def execPdbl (rd ra : Nibble) (s : State) : Host.Outcome State Fault Refusal :=
  s.completeP rd (pdbl (s.readP ra))

/-- PADD (R264). -/
def execPadd (rd ra rb : Nibble) (s : State) : Host.Outcome State Fault Refusal :=
  s.completeP rd (padd (s.readP ra) (s.readP rb))

end Sys2Proof.Machine
end

