-- ==== Sys2Proof/Machine/PointConstruct.lean ====
section
/-! DEFINITION. PNEW, PLDG, PMOV, PISINF, PGETX, PGETY, PEQ (44_point_construct.md). -/

namespace Sys2Proof.Machine

/-- PNEW (R233): the presence test comes before the curve test; only `NotOnCurve` writes `DIAGL`, `DIAGR`. -/
def execPnew (rd ra rb : Nibble) (hx hy : Bool) (s : State) : Host.Outcome State Fault Refusal :=
  match s.readOptF hx ra, s.readOptF hy rb with
  | none, none => s.completeP rd (.ok .infinity)
  | some x, some y =>
    if onCurve x y then s.completeP rd (.ok (.coordinates x y))
    else .next (s.failNotOnCurve (lhs y) (rhs x))
  | some _, none => .next (s.fail .mismatchedCoordinates)
  | none, some _ => .next (s.fail .mismatchedCoordinates)

/-- PLDG (R236): the generator, not validated again. -/
def execPldg (rd : Nibble) (s : State) : Host.Outcome State Fault Refusal :=
  s.completeP rd (.ok generator)

/-- PMOV (R237). -/
def execPmov (rd ra : Nibble) (s : State) : Host.Outcome State Fault Refusal :=
  s.completeP rd (.ok (s.readP ra))

/-- PISINF (R238). -/
def execPisinf (ra : Nibble) (s : State) : Host.Outcome State Fault Refusal :=
  .next (s.completeT (isInfinity (s.readP ra)))

/-- The `x` coordinate of a point; `Infinity` has none (R239). -/
def pointX : Point → Except ErrorKind W256
  | .infinity => .error .noCoordinates
  | .coordinates x _ => .ok x

/-- The `y` coordinate of a point; `Infinity` has none (R240). -/
def pointY : Point → Except ErrorKind W256
  | .infinity => .error .noCoordinates
  | .coordinates _ y => .ok y

/-- PGETX (R239). -/
def execPgetx (rd ra : Nibble) (s : State) : Host.Outcome State Fault Refusal :=
  .next (s.completeF rd (pointX (s.readP ra)))

/-- PGETY (R240). -/
def execPgety (rd ra : Nibble) (s : State) : Host.Outcome State Fault Refusal :=
  .next (s.completeF rd (pointY (s.readP ra)))

/-- PEQ (R241). -/
def execPeq (ra rb : Nibble) (s : State) : Host.Outcome State Fault Refusal :=
  .next (s.completeT (pointsEqual (s.readP ra) (s.readP rb)))

end Sys2Proof.Machine
end

