-- ==== Sys2Proof/Machine/ScalarMultiplier.lean ====
section
/-! DEFINITION. PMUL: the scalar-by-point multiplier (46_scalar_multiplier.md). -/

namespace Sys2Proof.Machine

/-- PMUL (R293): `rb` names a K register. -/
def execPmul (rd ra rb : Nibble) (s : State) : Host.Outcome State Fault Refusal :=
  s.completeP rd (pmul (s.readP ra) (s.readK rb).value)

end Sys2Proof.Machine
end

