-- ==== Sys2Proof/Machine/Dispatch.lean ====
section
/-! DEFINITION. One arm per command: what the `Complete` step does with a decoded command (R47, R106). -/

namespace Sys2Proof.Machine

def exec (i : Instr) (s : State) : Host.Outcome State Fault Refusal :=
  match i with
  | .fnew rd ra => Sys2Proof.Machine.execFnew rd ra s
  | .fzero rd => Sys2Proof.Machine.execFzero rd s
  | .fone rd => Sys2Proof.Machine.execFone rd s
  | .fmov rd ra => Sys2Proof.Machine.execFmov rd ra s
  | .feq ra rb => Sys2Proof.Machine.execFeq ra rb s
  | .fadd rd ra rb => Sys2Proof.Machine.execFadd rd ra rb s
  | .fsub rd ra rb => Sys2Proof.Machine.execFsub rd ra rb s
  | .fneg rd ra => Sys2Proof.Machine.execFneg rd ra s
  | .fmul rd ra rb => Sys2Proof.Machine.execFmul rd ra rb s
  | .fsmul rd ra rb => Sys2Proof.Machine.execFsmul rd ra rb s
  | .fpow rd ra rb => Sys2Proof.Machine.execFpow rd ra rb s
  | .finv rd ra => Sys2Proof.Machine.execFinv rd ra s
  | .fdiv rd ra rb => Sys2Proof.Machine.execFdiv rd ra rb s
  | .pnew rd ra rb hx hy => Sys2Proof.Machine.execPnew rd ra rb hx hy s
  | .pldg rd => Sys2Proof.Machine.execPldg rd s
  | .pmov rd ra => Sys2Proof.Machine.execPmov rd ra s
  | .pisinf ra => Sys2Proof.Machine.execPisinf ra s
  | .pgetx rd ra => Sys2Proof.Machine.execPgetx rd ra s
  | .pgety rd ra => Sys2Proof.Machine.execPgety rd ra s
  | .peq ra rb => Sys2Proof.Machine.execPeq ra rb s
  | .pdbl rd ra => Sys2Proof.Machine.execPdbl rd ra s
  | .padd rd ra rb => Sys2Proof.Machine.execPadd rd ra rb s
  | .pmul rd ra rb => Sys2Proof.Machine.execPmul rd ra rb s

end Sys2Proof.Machine
end

