-- ==== Sys2Proof/Machine/Window.lean ====
section
/-! DEFINITION. The host window: the map (R62), what a location reads as (R40 to R48, R68 to R73), what a write to it
does (R42, R45, R47, R69), and the access rules, busy, read-only and unmapped (R74, R75). -/

namespace Sys2Proof.Machine

/-- A location of the window, by the map of rule R62. -/
inductive Location where
  | id
  | version
  | ctrl
  | status
  | result
  | esticky
  | lastcmd
  | cmd
  | kMag (i : Fin 4) (j : Fin 8)
  | kSign (i : Fin 4)
  | fWord (i : Fin 16) (j : Fin 8)
  | pX (i : Fin 8) (j : Fin 8)
  | pY (i : Fin 8) (j : Fin 8)
  | pTag (i : Fin 8)
  | constP (j : Fin 8)
  | constN (j : Fin 8)
  | constGx (j : Fin 8)
  | constGy (j : Fin 8)
  | constB (j : Fin 8)
  | diagL (j : Fin 8)
  | diagR (j : Fin 8)
  | unmapped
  deriving DecidableEq, Repr

/-- The control block `0x000..0x01F` (R62). -/
def locateControl (off : Nat) : Location :=
  if off = 0x000 then .id
  else if off = 0x004 then .version
  else if off = 0x008 then .ctrl
  else if off = 0x00C then .status
  else if off = 0x010 then .result
  else if off = 0x014 then .esticky
  else if off = 0x018 then .lastcmd
  else if off = 0x01C then .cmd
  else .unmapped

/-- The word number of an offset within an eight-word value. -/
def wordNumber (r : Nat) : Fin 8 := Fin.ofNat 8 (r / 4)

/-- The integer registers, `0x100 + 0x40*i` (R62); `r` is the offset from `0x100`. -/
def locateK (r : Nat) : Location :=
  let i := Fin.ofNat 4 (r / 0x40)
  if r % 0x40 < 0x20 then .kMag i (wordNumber (r % 0x40))
  else if r % 0x40 = 0x20 then .kSign i
  else .unmapped

/-- The field registers, `0x200 + 0x20*i` (R62); `r` is the offset from `0x200`. -/
def locateF (r : Nat) : Location := .fWord (Fin.ofNat 16 (r / 0x20)) (wordNumber (r % 0x20))

/-- The point registers, `0x400 + 0x80*i` (R62); `r` is the offset from `0x400`. -/
def locateP (r : Nat) : Location :=
  let i := Fin.ofNat 8 (r / 0x80)
  if r % 0x80 < 0x20 then .pX i (wordNumber (r % 0x80))
  else if r % 0x80 < 0x40 then .pY i (wordNumber (r % 0x80 - 0x20))
  else if r % 0x80 = 0x40 then .pTag i
  else .unmapped

/-- The constants and diagnostics, `0x800..0x8FF` (R62); `r` is the offset from `0x800`. -/
def locateConst (r : Nat) : Location :=
  let j := wordNumber (r % 0x20)
  if r < 0x20 then .constP j
  else if r < 0x40 then .constN j
  else if r < 0x60 then .constGx j
  else if r < 0x80 then .constGy j
  else if r < 0xA0 then .constB j
  else if r < 0xC0 then .unmapped
  else if r < 0xE0 then .diagL j
  else .diagR j

/-- The map of the window (R62). -/
def locate (ix : WordIndex) : Location :=
  let off := ix.off
  if off < 0x020 then locateControl off
  else if off < 0x100 then .unmapped
  else if off < 0x200 then locateK (off - 0x100)
  else if off < 0x400 then locateF (off - 0x200)
  else if off < 0x800 then locateP (off - 0x400)
  else if off < 0x900 then locateConst (off - 0x800)
  else .unmapped

/-- The word index of a byte offset, for an offset the port can carry (R61). -/
def indexOf (off : Nat) : WordIndex := BitVec.ofNat 10 (off / 4)

/-- A bit as a word: bit 0, zeros above. -/
def bitWord (b : Bool) : Word := (BitVec.ofBool b).setWidth 32

/-- `STATUS` (R43): `BUSY`, `DONE`, `ERR` (which reads 1 exactly when `CODE` is not 0) and `T`. -/
def State.statusWord (s : State) : Word :=
  bitWord s.busy ||| (bitWord s.done <<< 1) ||| (bitWord (s.code != 0#4) <<< 2) ||| (bitWord s.t <<< 3)

/-- The `x` field of a point register as the window shows it: zero for `Infinity` (R71). -/
def Point.xField : Point → W256
  | .infinity => 0#256
  | .coordinates x _ => x

/-- The `y` field of a point register as the window shows it: zero for `Infinity` (R71). -/
def Point.yField : Point → W256
  | .infinity => 0#256
  | .coordinates _ y => y

/-- The tag of a point register as the window shows it (R71). -/
def Point.tag : Point → Bool
  | .infinity => true
  | .coordinates _ _ => false

/-- What a location reads as (R40 to R48, R69 to R73). `CTRL`, `CMD` and an unmapped offset read 0. -/
def State.readLocation (s : State) : Location → Word
  | .id => Config.idValue
  | .version => Config.versionValue
  | .ctrl => 0#32
  | .status => s.statusWord
  | .result => s.code.setWidth 32
  | .esticky => s.esticky
  | .lastcmd => s.lastcmd
  | .cmd => 0#32
  | .kMag i j => wordOf s.k[i].mag j
  | .kSign i => bitWord s.k[i].sign
  | .fWord i j => wordOf s.f[i] j
  | .pX i j => wordOf s.pt[i].xField j
  | .pY i j => wordOf s.pt[i].yField j
  | .pTag i => bitWord s.pt[i].tag
  | .constP j => wordOf (BitVec.ofNat 256 Config.p) j
  | .constN j => wordOf (BitVec.ofNat 256 Config.N) j
  | .constGx j => wordOf Config.Gx j
  | .constGy j => wordOf Config.Gy j
  | .constB j => wordOf Config.b j
  | .diagL j => wordOf s.diagl j
  | .diagR j => wordOf s.diagr j
  | .unmapped => 0#32

/-- Replace integer register `i` (R69). -/
def State.setK (s : State) (i : Fin 4) (v : IntReg) : State := { s with k := s.k.set i.val v i.isLt }

/-- Clear the named bits of `ESTICKY` that are 1 in the written word (R45). -/
def State.clearSticky (s : State) (v : Word) : State := { s with esticky := s.esticky &&& ~~~(v &&& stickyMask) }

/-- A write to `CMD` (R47): acceptance, or `BUSYACC` if a command is in flight. -/
def State.writeCmd (s : State) (v : Word) : State := if s.busy then s.setSticky busyAccBit else s.accept v

/-- A write to `CTRL` (R42): the soft reset if bit 0 is set, else nothing. -/
def State.writeCtrl (s : State) (v : Word) : State := if v.getLsbD 0 then s.softReset else s

/-- What a write to a location does, when the busy rule does not refuse it (R42, R45, R47, R69, R75). -/
def State.writeLocation (s : State) (v : Word) : Location → State
  | .ctrl => s.writeCtrl v
  | .esticky => s.clearSticky v
  | .cmd => s.writeCmd v
  | .kMag i j => s.setK i { s.k[i] with mag := setWordOf s.k[i].mag j v }
  | .kSign i => s.setK i { s.k[i] with sign := v.getLsbD 0 }
  | .id => s.setSticky badAccBit
  | .version => s.setSticky badAccBit
  | .status => s.setSticky badAccBit
  | .result => s.setSticky badAccBit
  | .lastcmd => s.setSticky badAccBit
  | .fWord _ _ => s.setSticky badAccBit
  | .pX _ _ => s.setSticky badAccBit
  | .pY _ _ => s.setSticky badAccBit
  | .pTag _ => s.setSticky badAccBit
  | .constP _ => s.setSticky badAccBit
  | .constN _ => s.setSticky badAccBit
  | .constGx _ => s.setSticky badAccBit
  | .constGy _ => s.setSticky badAccBit
  | .constB _ => s.setSticky badAccBit
  | .diagL _ => s.setSticky badAccBit
  | .diagR _ => s.setSticky badAccBit
  | .unmapped => s.setSticky badAccBit

/-- While `BUSY`, every access outside the control block is refused, mapped or not (R74). -/
def State.refuses (s : State) (ix : WordIndex) : Bool := s.busy && decide (0x020 ≤ ix.off)

/-- The word `HostRead(off)` returns (R68 to R75). -/
def State.readWord (s : State) (ix : WordIndex) : Word :=
  if s.refuses ix then 0#32 else s.readLocation (locate ix)

/-- The state after the access part of `HostRead(off)`: a read changes nothing but the sticky bit of a refused or
unmapped one (R74, R75). -/
def State.readEffect (s : State) (ix : WordIndex) : State :=
  if s.refuses ix then s.setSticky busyAccBit
  else if locate ix = .unmapped then s.setSticky badAccBit
  else s

/-- The state after the access part of `HostWrite(off, v)` (R74, R75). -/
def State.writeEffect (s : State) (ix : WordIndex) (v : Word) : State :=
  if s.refuses ix then s.setSticky busyAccBit else s.writeLocation v (locate ix)

/-- `HostRead(off)` (R18). While the hard reset line is asserted the port does not answer (R351). -/
def State.hostRead (s : State) (ix : WordIndex) : State :=
  if s.hreset then { s with reply := .silent }
  else { s.readEffect ix with reply := .data (s.readWord ix) }

/-- `HostWrite(off, v)` (R18). While the hard reset line is asserted the port does not answer (R351). -/
def State.hostWrite (s : State) (ix : WordIndex) (v : Word) : State :=
  if s.hreset then { s with reply := .silent }
  else { s.writeEffect ix v with reply := .written }

end Sys2Proof.Machine
end

