-- ==== Sys2Proof/Machine/Complete.lean ====
section
/-! DEFINITION. The agents' moves (R13): the sequencer's `Complete` step (R47, R106, R317), its turn when there is
nothing to do (R335), and one event of the port. -/

namespace Sys2Proof.Machine

/-- `Complete` (R47): decode `CUR` (R106) and perform the command, or complete an illegal word (R317). -/
def completeStep (s : State) : Host.Outcome State Fault Refusal :=
  match decode s.cur with
  | .command i => exec i s
  | .illegal => .next s.completeIllegal

/-- The sequencer's turn: `Complete` while `BUSY = 1` (R13); otherwise the block is idle, and idling has no
architectural effect (R335, log 6). Nothing completes while the hard reset line is asserted (R351, log 5). -/
def sequencerTurn (s : State) : Host.Outcome State Fault Refusal :=
  if s.busy && !s.hreset then completeStep s else .next s

/-- One event of the port, already taken off the list (R13, R351). -/
def performEvent (e : Event) (s : State) : Host.Outcome State Fault Refusal :=
  match e with
  | .read ix => .next (s.hostRead ix)
  | .write ix v => .next (s.hostWrite ix v)
  | .sequencer => sequencerTurn s
  | .assertReset => .next s.assertHardReset
  | .releaseReset => .next s.releaseHardReset

/-- One step: the next event, in order, each to completion before the next (R82); with no event left the host is
silent and only the sequencer can move (R13, R14, log 1). -/
def performNext (s : State) : Host.Outcome State Fault Refusal :=
  match s.port with
  | [] => sequencerTurn s
  | e :: rest => performEvent e { s with port := rest }

/-- The state in which the command word `w` has just been accepted and the sequencer moves next. -/
def State.withAccepted (s : State) (w : Word) : State :=
  { s.accept w with
    hreset := false
    port := match s.port with
      | [] => []
      | e :: rest => .sequencer :: e :: rest }

end Sys2Proof.Machine
end

