-- ==== Sys2Proof/Machine/Step.lean ====
section
/-! DEFINITION. The step of the machine, and the state whose next step runs a given command. -/

namespace Sys2Proof.Machine

/-- One step of BFS-CORE and its host: three outcomes. -/
def step (s : State) : Host.Outcome State Fault Refusal := performNext s

/-- `s` with the command word whose low `nbits` bits are `w` accepted (R47), so that the next step is the sequencer's
`Complete` of exactly that word. The machine fetches nothing (R36): a host's write to `CMD` presents a command, and
this stands for that write (log 4). -/
def State.withFetchWord (s : State) (nbits w : Nat) : State := s.withAccepted (BitVec.ofNat 32 (w % 2 ^ nbits))

end Sys2Proof.Machine
end

