-- ==== Sys2Proof/Machine/Listing.lean ====
section
/-! DEFINITION. The host's side, as the spec's listings write it: pseudo-commands (R116), the host actions SETK, GETF,
GETP and RUN as lists of port events (R117), the assembler syntax (R115), the textual forms of values (R118), and the
host's address of a window offset (R60). The hardware produces no text. -/

namespace Sys2Proof.Machine

/-- `PINF Pd` (R116). -/
def pinf (rd : Nibble) : Instr := .pnew rd 0 0 false false

/-- `FSQR Fd, Fa` (R116). -/
def fsqr (rd ra : Nibble) : Instr := .fmul rd ra ra

/-- `FDBL Fd, Fa` (R116). -/
def fdbl (rd ra : Nibble) : Instr := .fadd rd ra ra

/-- `WR off, value` (R117). -/
def wr (off : Nat) (v : Word) : Event := .write (indexOf off) v

/-- `RD off` (R117). -/
def rd (off : Nat) : Event := .read (indexOf off)

/-- `SETK Ki, n` (R117): eight magnitude words of `|n|`, least significant first, then the sign word. -/
def setKEvents (i : Fin 4) (n : Int) : List Event :=
  (List.finRange 8).map (fun j => wr (0x100 + 0x40 * i.val + 4 * j.val) (wordOf (BitVec.ofNat 256 n.natAbs) j)) ++
    [wr (0x100 + 0x40 * i.val + 0x20) (bitWord (decide (n < 0)))]

/-- `GETF Fi` (R117): eight reads. -/
def getFEvents (i : Fin 16) : List Event :=
  (List.finRange 8).map fun j => rd (0x200 + 0x20 * i.val + 4 * j.val)

/-- `GETP Pi` (R117): seventeen reads, the tag last. -/
def getPEvents (i : Fin 8) : List Event :=
  (List.range 17).map fun j => rd (0x400 + 0x80 * i.val + 4 * j)

/-- `RUN cmd` (R117): the write to `CMD`, then reads of `STATUS` until `BUSY = 0`. DESIGN CHOICE: the shortest form,
in which the command completes before the first read (log 18). -/
def runEvents (c : Instr) : List Event := [wr 0x01C (encode c), .sequencer, rd 0x00C]

/-- The host's own address of a word of the window (R60). -/
def hostAddress (ix : WordIndex) : Nat := Config.base + ix.off

/-- A hexadecimal digit, in lower case as the spec's listings write it (R118, D32). -/
def hexDigit (d : Nat) : Char := "0123456789abcdef".toList.getD d '0'

/-- 64 hexadecimal digits, zero-padded (R118). -/
def hex64 (v : W256) : String :=
  String.ofList ((List.range 64).map fun i => hexDigit (v.toNat / 16 ^ (63 - i) % 16))

/-- The field element's textual form (R118); how the two numerals are paired is open (U11). -/
def fieldText (v : W256) : String := Config.pairText (hex64 v) (hex64 (BitVec.ofNat 256 Config.p))

/-- The point's textual form (R118). -/
def pointText : Point → String
  | .infinity => "(Infinity)"
  | .coordinates x y => "(x=0x" ++ hex64 x ++ ", y=0x" ++ hex64 y ++ ")"

/-- A register as the assembler writes it (R115). -/
def regText (file : String) (n : Nat) : String := file ++ toString n

/-- An F register in assembler syntax (R115). -/
def fText (n : Nibble) : String := regText "F" (fIdx n).val

/-- A P register in assembler syntax (R115). -/
def pText (n : Nibble) : String := regText "P" (pIdx n).val

/-- A K register in assembler syntax (R115). -/
def kText (n : Nibble) : String := regText "K" (kIdx n).val

/-- A coordinate of PNEW in assembler syntax: `-` when it is absent (R115). -/
def coordText (present : Bool) (n : Nibble) : String := if present then fText n else "-"

/-- A mnemonic and its operands, separated by commas (R115). -/
def listing (mnemonic : String) (operands : List String) : String :=
  mnemonic ++ " " ++ String.intercalate ", " operands

/-- A command in assembler syntax (R115): destination, first source, second source. -/
def asmText : Instr → String
  | .fnew d a => listing "FNEW" [fText d, kText a]
  | .fzero d => listing "FZERO" [fText d]
  | .fone d => listing "FONE" [fText d]
  | .fmov d a => listing "FMOV" [fText d, fText a]
  | .feq a b => listing "FEQ" [fText a, fText b]
  | .fadd d a b => listing "FADD" [fText d, fText a, fText b]
  | .fsub d a b => listing "FSUB" [fText d, fText a, fText b]
  | .fneg d a => listing "FNEG" [fText d, fText a]
  | .fmul d a b => listing "FMUL" [fText d, fText a, fText b]
  | .fsmul d a b => listing "FSMUL" [fText d, kText a, fText b]
  | .fpow d a b => listing "FPOW" [fText d, fText a, kText b]
  | .finv d a => listing "FINV" [fText d, fText a]
  | .fdiv d a b => listing "FDIV" [fText d, fText a, fText b]
  | .pnew d a b hx hy => listing "PNEW" [pText d, coordText hx a, coordText hy b]
  | .pldg d => listing "PLDG" [pText d]
  | .pmov d a => listing "PMOV" [pText d, pText a]
  | .pisinf a => listing "PISINF" [pText a]
  | .pgetx d a => listing "PGETX" [fText d, pText a]
  | .pgety d a => listing "PGETY" [fText d, pText a]
  | .peq a b => listing "PEQ" [pText a, pText b]
  | .pdbl d a => listing "PDBL" [pText d, pText a]
  | .padd d a b => listing "PADD" [pText d, pText a, pText b]
  | .pmul d a b => listing "PMUL" [pText d, pText a, kText b]

end Sys2Proof.Machine
end

