-- ==== Sys2Proof/Machine/Reference.lean ====
section
/-! DEFINITION. The reference algorithms the spec gives for the inside of the units: three reductions (R187 to R189),
Jacobian doubling and mixed addition (R271 to R273) and the windowed scalar multiplier (R297). None of them is
observable and no meaning of a command uses them (R186, R270, R296); they are the subject of refinement claims, and the
units below take the implementation's OPEN parameters from Config (R11). -/

namespace Sys2Proof.Machine

open Sys2Proof.Config (p)

/-- `c = 2^256 - p` (R187). -/
def foldConst : Nat := 0x1000003D1

/-- The loop of `reduce_fold` (R187). -/
def foldLoop : Nat → Nat → Nat
  | 0, t => t
  | fuel + 1, t => if 2 ^ 256 ≤ t then foldLoop fuel (t / 2 ^ 256 * foldConst + t % 2 ^ 256) else t

/-- `reduce_fold` (R187): the loop runs at most three times for `t < 2^512`. -/
def reduceFold (t : Nat) : Nat :=
  let t' := foldLoop 3 t
  if p ≤ t' then t' - p else t'

/-- `mu = floor(2^512 / p)` (R188). -/
def barrettMu : Nat := 0x100000000000000000000000000000000000000000000000000000001000003D1

/-- The subtractions of `reduce_barrett` (R188). -/
def subtractLoop : Nat → Nat → Nat
  | 0, r => r
  | fuel + 1, r => if p ≤ r then subtractLoop fuel (r - p) else r

/-- `reduce_barrett` (R188): at most two subtractions. -/
def reduceBarrett (t : Nat) : Nat :=
  let q := t / 2 ^ 255 * barrettMu / 2 ^ 257
  subtractLoop 2 (t - q * p)

/-- `p' = (-p^-1) mod 2^256` (R189). -/
def montPrime : Nat := 0xC9BD1905155383999C46C2C295F2B761BCB223FEDC24A059D838091DD2253531

/-- `R^2 mod p` for `R = 2^256` (R189). -/
def montSquare : Nat := 0x1000007A2000E90A1

/-- `mont` (R189): `a * b * R^-1 mod p`. -/
def mont (a b : Nat) : Nat :=
  let T := a * b
  let m := T % 2 ^ 256 * montPrime % 2 ^ 256
  let u := (T + m * p) / 2 ^ 256
  if p ≤ u then u - p else u

/-- `fmul` by a reduction method (R186 to R189). -/
def fmulBy (method : Config.Reduction) (a b : W256) : W256 :=
  BitVec.ofNat 256
    (match method with
      | .fold => reduceFold (a.toNat * b.toNat)
      | .barrett => reduceBarrett (a.toNat * b.toNat)
      | .montgomery => mont (mont a.toNat b.toNat) montSquare)

/-- A point in Jacobian form (R271). -/
structure Jacobian where
  X : W256
  Y : W256
  Z : W256
  deriving DecidableEq, Repr

/-- `Infinity` in Jacobian form (R271, R272). -/
def jInfinity : Jacobian := ⟨1, 1, 0⟩

/-- The Jacobian form of an affine point (R271). -/
def toJacobian : Point → Jacobian
  | .infinity => jInfinity
  | .coordinates x y => ⟨x, y, 1⟩

/-- The affine image of a Jacobian triple (R271): `Infinity` when `Z = 0`, else `(X / Z^2, Y / Z^3)`. -/
def toAffine (j : Jacobian) : Except ErrorKind Point :=
  if j.Z = 0#256 then .ok .infinity
  else
    match finv j.Z with
    | .error e => .error e
    | .ok i => .ok (.coordinates (fmul j.X (fmul i i)) (fmul j.Y (fmul (fmul i i) i)))

/-- `jdbl` (R272). -/
def jdbl (j : Jacobian) : Jacobian :=
  if j.Z = 0#256 ∨ j.Y = 0#256 then jInfinity
  else
    let A := fmul j.X j.X
    let B := fmul j.Y j.Y
    let C := fmul B B
    let XB := fadd j.X B
    let D := fsmul 2 (fsub (fsub (fmul XB XB) A) C)
    let E := fsmul 3 A
    let X3 := fsub (fmul E E) (fsmul 2 D)
    ⟨X3, fsub (fmul E (fsub D X3)) (fsmul 8 C), fsmul 2 (fmul j.Y j.Z)⟩

/-- `jmadd` (R273): Jacobian plus affine. -/
def jmadd (j : Jacobian) : Point → Jacobian
  | .infinity => j
  | .coordinates x2 y2 =>
    if j.Z = 0#256 then ⟨x2, y2, 1⟩
    else
      let ZZ := fmul j.Z j.Z
      let H := fsub (fmul x2 ZZ) j.X
      let r := fsub (fmul y2 (fmul j.Z ZZ)) j.Y
      if H = 0#256 then
        if r = 0#256 then jdbl j else jInfinity
      else
        let HH := fmul H H
        let HHH := fmul H HH
        let V := fmul j.X HH
        let X3 := fsub (fsub (fmul r r) HHH) (fsmul 2 V)
        ⟨X3, fsub (fmul r (fsub V X3)) (fmul j.Y HHH), fmul j.Z H⟩

/-- `pdbl` by an internal point form (R270). -/
def pdblBy (form : Config.PointForm) (P : Point) : Except ErrorKind Point :=
  match form with
  | .affine => pdbl P
  | .jacobian => toAffine (jdbl (toJacobian P))

/-- `padd` by an internal point form (R270). -/
def paddBy (form : Config.PointForm) (P Q : Point) : Except ErrorKind Point :=
  match form with
  | .affine => padd P Q
  | .jacobian => toAffine (jmadd (toJacobian P) Q)

/-- The table of `pmul_win` (R297): entries 0 to `n`, entry `i` the point `i·P`. -/
def windowTable (P : Point) : Nat → Except ErrorKind (List Point)
  | 0 => .ok [.infinity]
  | n + 1 =>
    match windowTable P n with
    | .error e => .error e
    | .ok tab =>
      match padd (tab.getLastD .infinity) P with
      | .error e => .error e
      | .ok Q => .ok (tab ++ [Q])

/-- The base-`2^w` digits of `r`, least significant first (R297); `fuel` bounds their number. -/
def windowDigits (w : Nat) : Nat → Nat → List Nat
  | 0, _ => []
  | fuel + 1, r => if r = 0 then [] else r % 2 ^ w :: windowDigits w fuel (r / 2 ^ w)

/-- `w` doublings (R297). -/
def jdblTimes : Nat → Jacobian → Jacobian
  | 0, j => j
  | w + 1, j => jdblTimes w (jdbl j)

/-- `pmul_win` (R297): most significant digit first, Jacobian accumulator, affine table. -/
def pmulWin (P : Point) (k : Int) (w : Nat) : Except ErrorKind Point :=
  match windowTable P (2 ^ w - 1) with
  | .error e => .error e
  | .ok tab =>
    toAffine ((windowDigits w 256 (reduceScalar k)).reverse.foldl
      (fun acc d => jmadd (jdblTimes w acc) (tab.getD d .infinity)) jInfinity)

/-- The multiplier unit as an implementation builds it (R11, R186). -/
def unitFmul (a b : W256) : W256 := fmulBy Config.reduction a b

/-- The point doubler unit as an implementation builds it (R11, R270). -/
def unitPdbl (P : Point) : Except ErrorKind Point := pdblBy Config.pointForm P

/-- The point adder unit as an implementation builds it (R11, R270). -/
def unitPadd (P Q : Point) : Except ErrorKind Point := paddBy Config.pointForm P Q

/-- The scalar multiplier unit as an implementation builds it (R11, R296). DESIGN CHOICE (log 13): it is the reference
multiplier of R297, with a Jacobian accumulator, whatever `Config.pointForm` is, although R11 leaves POINT_FORM open for
this unit too; no command uses it. -/
def unitPmul (P : Point) (k : Int) : Except ErrorKind Point := pmulWin P k Config.windowBits

end Sys2Proof.Machine
end

