-- ==== Sys2Proof/Safety.lean ====
section
/-! DEFINITION. The terms claims are stated in: the invariants of the register files (R21, R23) and of the status
registers, what a completion leaves (R316, R318), what a command may write (R22, R24, R26, R29) and may raise (R311,
R312), and the words that encode a command (R104). -/

namespace Sys2Proof.Machine

open Sys2Proof.Config (p)

/-- A canonical field value: in `[0, p)` (R21). -/
abbrev Canonical (v : W256) : Prop := v.toNat < p

/-- Both coordinates are canonical. -/
def Point.Canonical : Point → Prop
  | .infinity => True
  | .coordinates x y => x.toNat < p ∧ y.toNat < p

/-- The invariant of a point register (R23). -/
def Point.Ok : Point → Prop
  | .infinity => True
  | .coordinates x y =>
    x.toNat < p ∧ y.toNat < p ∧ y.toNat * y.toNat % p = (x.toNat * x.toNat * x.toNat + 7) % p

/-- The invariant of the machine: R21 and R23 for the register files, and for the status registers what R43, R44,
R45 and R48 say they can hold. -/
structure State.Inv (s : State) : Prop where
  /-- Every field register is canonical (R21). -/
  fields : ∀ i : Fin 16, Canonical s.f[i]
  /-- Every point register is `Infinity` or on the curve (R23). -/
  points : ∀ i : Fin 8, s.pt[i].Ok
  /-- `ESTICKY` bits 0, 7 and 31:10 are 0 (R45). -/
  sticky : s.esticky &&& ~~~0x37E#32 = 0#32
  /-- `RESULT.CODE` is one of 0 to 6 (R44, R311). -/
  code : s.code.toNat ≤ 6
  /-- `BUSY` and `DONE` are never both 1 (R43). -/
  exclusive : ¬(s.busy = true ∧ s.done = true)
  /-- `DIAGL` is a remainder modulo `p` (R48). -/
  diagl : Canonical s.diagl
  /-- `DIAGR` is a remainder modulo `p` (R48). -/
  diagr : Canonical s.diagr

/-- What lies outside the block and no completion touches: the reset line, the coming events, the last answer; and
`CUR`, which a completion reads. -/
structure SameSurroundings (s t : State) : Prop where
  cur : t.cur = s.cur
  hreset : t.hreset = s.hreset
  port : t.port = s.port
  reply : t.reply = s.reply

/-- What every successful completion does besides the command's own writes (R318); no command writes K (R26). -/
structure Succeeds (s t : State) : Prop where
  code : t.code = 0#4
  lastcmd : t.lastcmd = s.cur
  busy : t.busy = false
  done : t.done = true
  esticky : t.esticky = s.esticky
  diagl : t.diagl = s.diagl
  diagr : t.diagr = s.diagr
  k : t.k = s.k
  surroundings : SameSurroundings s t

/-- What a completion with error code `c` does (R316), `DIAGL` and `DIAGR` apart. -/
structure FailsExceptDiag (c : Nat) (s t : State) : Prop where
  code : t.code.toNat = c
  lastcmd : t.lastcmd = s.cur
  busy : t.busy = false
  done : t.done = true
  stickySet : t.esticky.getLsbD c = true
  stickyElse : ∀ n, n ≠ c → t.esticky.getLsbD n = s.esticky.getLsbD n
  f : t.f = s.f
  pt : t.pt = s.pt
  k : t.k = s.k
  flag : t.t = s.t
  surroundings : SameSurroundings s t

/-- What a completion with error code `c` does when it is not `NotOnCurve` (R316). -/
structure Fails (c : Nat) (s t : State) : Prop where
  rest : FailsExceptDiag c s t
  diagl : t.diagl = s.diagl
  diagr : t.diagr = s.diagr

/-- A successful completion that writes `v` to field register `n` and to nothing else. -/
structure WroteF (n : Nibble) (v : W256) (s t : State) : Prop where
  status : Succeeds s t
  destination : t.f[n.toNat]'n.isLt = v
  others : ∀ i : Fin 16, i.val ≠ n.toNat → t.f[i] = s.f[i]
  pt : t.pt = s.pt
  flag : t.t = s.t

/-- A successful completion that writes `v` to the point register that nibble `n` names and to nothing else. -/
structure WroteP (n : Nibble) (v : Point) (s t : State) : Prop where
  status : Succeeds s t
  destination : t.pt[n.toNat % 8]'(Nat.mod_lt _ (by decide)) = v
  others : ∀ i : Fin 8, i.val ≠ n.toNat % 8 → t.pt[i] = s.pt[i]
  f : t.f = s.f
  flag : t.t = s.t

/-- A successful completion that writes `b` to `T` and to nothing else. -/
structure WroteT (b : Bool) (s t : State) : Prop where
  status : Succeeds s t
  flag : t.t = b
  f : t.f = s.f
  pt : t.pt = s.pt

/-- The command completes with success and writes `v` to field register `n`. -/
def CompletesF (i : Instr) (n : Nibble) (v : W256) (s : State) : Prop :=
  ∃ t, exec i s = .next t ∧ WroteF n v s t

/-- The command completes with success and writes `v` to the point register nibble `n` names. -/
def CompletesP (i : Instr) (n : Nibble) (v : Point) (s : State) : Prop :=
  ∃ t, exec i s = .next t ∧ WroteP n v s t

/-- The command completes with success and writes `b` to `T`. -/
def CompletesT (i : Instr) (b : Bool) (s : State) : Prop :=
  ∃ t, exec i s = .next t ∧ WroteT b s t

/-- The command completes with error code `c` and writes nothing else. -/
def CompletesFailing (i : Instr) (c : Nat) (s : State) : Prop :=
  ∃ t, exec i s = .next t ∧ Fails c s t

/-- The words that are a command: `w & mask = pattern` holds exactly for the words that decode to the command whose
operands are the fields that `build` takes from them (R104, R106). -/
def EncodedBy (pattern mask : Word) (build : Word → Instr) : Prop :=
  ∀ w : Word, w &&& mask = pattern ↔ decode w = .command (build w)

/-- Bits 23:20 of a word as a number (R101). -/
abbrev bitsRd (w : Word) : Nibble := BitVec.ofNat 4 (w.toNat / 2 ^ 20)

/-- Bits 19:16 of a word as a number (R101). -/
abbrev bitsRa (w : Word) : Nibble := BitVec.ofNat 4 (w.toNat / 2 ^ 16)

/-- Bits 15:12 of a word as a number (R101). -/
abbrev bitsRb (w : Word) : Nibble := BitVec.ofNat 4 (w.toNat / 2 ^ 12)

/-- The codes a command may complete with besides 0 (R311, R312). -/
def mayRaise : Instr → List Nat
  | .fnew _ _ => [1]
  | .pnew _ _ _ _ _ => [2, 3]
  | .fpow _ _ _ => [4]
  | .finv _ _ => [4]
  | .fdiv _ _ _ => [4]
  | .pgetx _ _ => [6]
  | .pgety _ _ => [6]
  | .fzero _ => []
  | .fone _ => []
  | .fmov _ _ => []
  | .feq _ _ => []
  | .fadd _ _ _ => []
  | .fsub _ _ _ => []
  | .fneg _ _ => []
  | .fmul _ _ _ => []
  | .fsmul _ _ _ => []
  | .pldg _ => []
  | .pmov _ _ => []
  | .pisinf _ => []
  | .peq _ _ => []
  | .pdbl _ _ => []
  | .padd _ _ _ => []
  | .pmul _ _ _ => []

/-- The field register a command names as destination (R22). -/
def destF : Instr → Option Nibble
  | .fnew d _ => some d
  | .fzero d => some d
  | .fone d => some d
  | .fmov d _ => some d
  | .fadd d _ _ => some d
  | .fsub d _ _ => some d
  | .fneg d _ => some d
  | .fmul d _ _ => some d
  | .fsmul d _ _ => some d
  | .fpow d _ _ => some d
  | .finv d _ => some d
  | .fdiv d _ _ => some d
  | .pgetx d _ => some d
  | .pgety d _ => some d
  | .feq _ _ => none
  | .pnew _ _ _ _ _ => none
  | .pldg _ => none
  | .pmov _ _ => none
  | .pisinf _ => none
  | .peq _ _ => none
  | .pdbl _ _ => none
  | .padd _ _ _ => none
  | .pmul _ _ _ => none

/-- The point register a command names as destination (R24). -/
def destP : Instr → Option Nibble
  | .pnew d _ _ _ _ => some d
  | .pldg d => some d
  | .pmov d _ => some d
  | .pdbl d _ => some d
  | .padd d _ _ => some d
  | .pmul d _ _ => some d
  | .fnew _ _ => none
  | .fzero _ => none
  | .fone _ => none
  | .fmov _ _ => none
  | .feq _ _ => none
  | .fadd _ _ _ => none
  | .fsub _ _ _ => none
  | .fneg _ _ => none
  | .fmul _ _ _ => none
  | .fsmul _ _ _ => none
  | .fpow _ _ _ => none
  | .finv _ _ => none
  | .fdiv _ _ _ => none
  | .pisinf _ => none
  | .pgetx _ _ => none
  | .pgety _ _ => none
  | .peq _ _ => none

/-- The predicate commands, the only ones that write `T` (R29). -/
def writesT : Instr → Bool
  | .feq _ _ => true
  | .peq _ _ => true
  | .pisinf _ => true
  | .fnew _ _ => false
  | .fzero _ => false
  | .fone _ => false
  | .fmov _ _ => false
  | .fadd _ _ _ => false
  | .fsub _ _ _ => false
  | .fneg _ _ => false
  | .fmul _ _ _ => false
  | .fsmul _ _ _ => false
  | .fpow _ _ _ => false
  | .finv _ _ => false
  | .fdiv _ _ _ => false
  | .pnew _ _ _ _ _ => false
  | .pldg _ => false
  | .pmov _ _ => false
  | .pgetx _ _ => false
  | .pgety _ _ => false
  | .pdbl _ _ => false
  | .padd _ _ _ => false
  | .pmul _ _ _ => false

/-- The next event is a read of offset `off`: it answers `v` and changes nothing (R18). -/
def ReadsAs (off : Nat) (v : Word) (s : State) : Prop :=
  ∀ rest, s.hreset = false → s.port = .read (indexOf off) :: rest →
    step s = .next { s with port := rest, reply := .data v }

/-- The next event is a read of offset `off`: it answers 0 and does nothing but set the bits `bits` of `ESTICKY`. -/
def ReadRefused (off : Nat) (bits : Word) (s : State) : Prop :=
  ∀ rest, s.hreset = false → s.port = .read (indexOf off) :: rest →
    step s = .next { s with port := rest, reply := .data 0#32, esticky := s.esticky ||| bits }

/-- The next event is a write to offset `off`: it is dropped and does nothing but set the bits `bits` of `ESTICKY`. -/
def WriteDropped (off : Nat) (v bits : Word) (s : State) : Prop :=
  ∀ rest, s.hreset = false → s.port = .write (indexOf off) v :: rest →
    step s = .next { s with port := rest, reply := .written, esticky := s.esticky ||| bits }

/-- The next event is a write to offset `off`, and the state after it, but for the port, is one that `after` holds of. -/
def WriteDoes (off : Nat) (v : Word) (s : State) (after : State → Prop) : Prop :=
  ∀ rest, s.hreset = false → s.port = .write (indexOf off) v :: rest →
    ∃ t, step s = .next t ∧ t.port = rest ∧ t.reply = .written ∧ after t

/-- A host transaction other than the soft reset: any read, and any write but one to `CTRL` with bit 0 set (R42, R74). -/
def Event.IsAccessButReset (e : Event) : Prop :=
  (∃ ix, e = .read ix) ∨ ∃ ix v, e = .write ix v ∧ (ix = indexOf 0x008 → v.getLsbD 0 = false)

/-- Every register and status bit is the same; the port is left out. -/
structure SameBlock (s t : State) : Prop where
  f : t.f = s.f
  pt : t.pt = s.pt
  k : t.k = s.k
  flag : t.t = s.t
  busy : t.busy = s.busy
  done : t.done = s.done
  code : t.code = s.code
  esticky : t.esticky = s.esticky
  lastcmd : t.lastcmd = s.lastcmd
  cur : t.cur = s.cur
  diagl : t.diagl = s.diagl
  diagr : t.diagr = s.diagr
  hreset : t.hreset = s.hreset

/-- Every value of the reset table of rule R51. `CUR`, which the rule calls not meaningful, is not listed. -/
structure ResetValues (t : State) : Prop where
  f : ∀ i : Fin 16, t.f[i] = 0#256
  pt : ∀ i : Fin 8, t.pt[i] = .infinity
  k : ∀ i : Fin 4, t.k[i] = ⟨false, 0#256⟩
  flag : t.t = false
  busy : t.busy = false
  done : t.done = false
  code : t.code = 0#4
  esticky : t.esticky = 0#32
  lastcmd : t.lastcmd = 0#32
  diagl : t.diagl = 0#256
  diagr : t.diagr = 0#256

/-- The offsets of read-only locations in the map of rule R62. -/
def isReadOnly (off : Nat) : Bool :=
  off == 0x000 || off == 0x004 || off == 0x00C || off == 0x010 || off == 0x018 ||
    (0x200 ≤ off && off < 0x400) || (0x400 ≤ off && off < 0x800 && (off - 0x400) % 0x80 ≤ 0x40) ||
    (0x800 ≤ off && off < 0x8A0) || (0x8C0 ≤ off && off < 0x900)

/-- The offsets that the map of rule R62 leaves unmapped. -/
def isUnmapped (off : Nat) : Bool :=
  (0x020 ≤ off && off < 0x100) || (0x100 ≤ off && off < 0x200 && (off - 0x100) % 0x40 > 0x20) ||
    (0x400 ≤ off && off < 0x800 && (off - 0x400) % 0x80 > 0x40) || (0x8A0 ≤ off && off < 0x8C0) || 0x900 ≤ off

/-- The 256-bit value of the eight words at `base` as the host reads them (R18, R63). -/
def State.w256At (s : State) (base : Nat) : Nat :=
  ((List.range 8).map fun j => (s.readWord (indexOf (base + 4 * j))).toNat * 2 ^ (32 * j)).sum

end Sys2Proof.Machine
end

