-- ==== Sys2Proof/Certificates/Slice0/Obligations.lean ====
section
/-! DEFINITION. The statements for the provers, by the files of the spec: encoding, the step, field construction,
adder, multiplier, inverter, points, group law, scalar multiplier, errors, the host window, reset, invariants. -/

open Sys2Proof Sys2Proof.Machine
open Sys2Proof.Config (p N)

/-! ## Encoding -/

/-- R101 to R106: the word of a well-formed command decodes to that command, at every value of its operands. -/
def Obligations.DecodeOfEncode : Prop :=
  ∀ i : Instr, i.wellFormed = true → decode (encode i) = .command i

/-- R104, R106: a word that decodes is the word of a well-formed command, so each word has one meaning. -/
def Obligations.EncodeOfDecode : Prop :=
  ∀ (w : Word) (i : Instr), decode w = .command i → i.wellFormed = true ∧ encode i = w

/-- R102: an index lies in the low bits of its nibble, and the word that would encode an index out of range is
illegal. -/
def Obligations.OutOfRangeIndexIsIllegal : Prop :=
  (∀ n : Nibble, (fIdx n).val = n.toNat ∧ (pIdx n).val = n.toNat % 8 ∧ (kIdx n).val = n.toNat % 4) ∧
    (∀ n : Nibble, (isPNibble n = true ↔ n.toNat < 8) ∧ (isKNibble n = true ↔ n.toNat < 4)) ∧
    ∀ i : Instr, i.wellFormed = false → decode (encode i) = .illegal

/-- R105: no two rows of the opcode map match the same word. -/
def Obligations.RowsAreDisjoint : Prop :=
  rows.length = 23 ∧
    rows.Pairwise fun r r' => ∀ w : Word, ¬(w &&& r.mask = r.pattern ∧ w &&& r'.mask = r'.pattern)

/-- Words of the spec's own examples decode as it says (R101, V160 to V182). -/
def Obligations.SpecWordsDecode : Prop :=
  decode 0x10123000#32 = .command (.fadd 1 2 3) ∧ decode 0x01F30000#32 = .command (.fnew 15 3) ∧
    decode 0x40123003#32 = .command (.pnew 1 2 3 true true) ∧
    decode 0x40780001#32 = .command (.pnew 7 8 0 false true) ∧ decode 0x19230000#32 = .command (.fsmul 2 3 0) ∧
    decode 0x20201000#32 = .command (.fpow 2 0 1) ∧ decode 0x60773000#32 = .command (.pmul 7 7 3) ∧
    decode 0x51201000#32 = .command (.padd 2 0 1) ∧ decode 0x00000000#32 = .illegal ∧
    decode 0xFFFFFFFF#32 = .illegal ∧ decode 0x51800000#32 = .illegal ∧ decode 0x60004000#32 = .illegal

/-- R110: every opcode outside the 23, any of bits 11:2, and bit 1 or 0 outside PNEW make a word illegal. -/
def Obligations.ReservedEncodingsAreIllegal : Prop :=
  ∀ w : Word,
    (w.toNat / 2 ^ 24 ∉ [0x01, 0x02, 0x03, 0x04, 0x05, 0x10, 0x11, 0x12, 0x18, 0x19, 0x20, 0x21, 0x22, 0x40, 0x41,
        0x42, 0x43, 0x44, 0x45, 0x46, 0x50, 0x51, 0x60] → decode w = .illegal) ∧
      (w.toNat / 4 % 2 ^ 10 ≠ 0 → decode w = .illegal) ∧
      (w.toNat % 4 ≠ 0 → w.toNat / 2 ^ 24 ≠ 0x40 → decode w = .illegal)

/-! ## The step -/

/-- R47, R106: while a command is in flight, the sequencer's turn runs `exec` of the command that `CUR` decodes to;
with events left the step takes the sequencer's event off the port first (log 1). -/
def Obligations.StepRunsDecodedCommand : Prop :=
  ∀ (s : State) (i : Instr), s.busy = true → s.hreset = false → decode s.cur = .command i →
    (s.port = [] → step s = exec i s) ∧
      ∀ rest, s.port = .sequencer :: rest → step s = exec i { s with port := rest }

/-- R317: an illegal word is accepted like any other, and completes with `IllegalCommand` at the sequencer's turn, which
is the next event, or, by the model's choice of log 1, the step of an empty port. -/
def Obligations.IllegalWordCompletes : Prop :=
  (∀ (s : State) (w : Word), s.busy = false →
      WriteDoes 0x01C w s fun t => t.busy = true ∧ t.done = false ∧ t.cur = w) ∧
    ∀ s : State, s.busy = true → s.hreset = false → decode s.cur = .illegal →
      (s.port = [] → ∃ t, step s = .next t ∧ Fails 5 s t) ∧
        ∀ rest, s.port = .sequencer :: rest → ∃ t, step s = .next t ∧ Fails 5 { s with port := rest } t

/-! ## Field construction, copy and comparison -/

/-- R141: FNEW stores the integer if `0 <= val < p` and completes with `OutOfRange` otherwise. -/
def Obligations.FnewChecksRange : Prop :=
  EncodedBy 0x01000000#32 0xFF0CFFFF#32 (fun w => .fnew (bitsRd w) (bitsRa w)) ∧
    ∀ (s : State) (rd ra : Nibble),
      (0 ≤ (s.readK ra).value ∧ (s.readK ra).value < p →
        ∃ v : W256, (v.toNat : Int) = (s.readK ra).value ∧ CompletesF (.fnew rd ra) rd v s) ∧
      (¬(0 ≤ (s.readK ra).value ∧ (s.readK ra).value < p) → CompletesFailing (.fnew rd ra) 1 s)

/-- R142, R143, R144: FZERO, FONE and FMOV write 0, 1 and the source. -/
def Obligations.FzeroFoneFmovWrite : Prop :=
  EncodedBy 0x02000000#32 0xFF0FFFFF#32 (fun w => .fzero (bitsRd w)) ∧
    EncodedBy 0x03000000#32 0xFF0FFFFF#32 (fun w => .fone (bitsRd w)) ∧
    EncodedBy 0x04000000#32 0xFF00FFFF#32 (fun w => .fmov (bitsRd w) (bitsRa w)) ∧
    ∀ (s : State) (rd ra : Nibble),
      CompletesF (.fzero rd) rd 0#256 s ∧ CompletesF (.fone rd) rd 1#256 s ∧
        CompletesF (.fmov rd ra) rd (s.readF ra) s

/-- R145: FEQ compares the two integers. -/
def Obligations.FeqComparesIntegers : Prop :=
  EncodedBy 0x05000000#32 0xFFF00FFF#32 (fun w => .feq (bitsRa w) (bitsRb w)) ∧
    ∀ (s : State) (ra rb : Nibble),
      CompletesT (.feq ra rb) (decide ((s.readF ra).toNat = (s.readF rb).toNat)) s

/-! ## The modular adder -/

/-- R161, R164: FADD writes the sum modulo `p` of canonical operands. -/
def Obligations.FaddIsModularSum : Prop :=
  EncodedBy 0x10000000#32 0xFF000FFF#32 (fun w => .fadd (bitsRd w) (bitsRa w) (bitsRb w)) ∧
    ∀ (s : State) (rd ra rb : Nibble), Canonical (s.readF ra) → Canonical (s.readF rb) →
      ∃ v : W256, v.toNat = ((s.readF ra).toNat + (s.readF rb).toNat) % p ∧ Canonical v ∧
        CompletesF (.fadd rd ra rb) rd v s

/-- R162, R165: FSUB writes the floored difference modulo `p` of canonical operands. -/
def Obligations.FsubIsModularDifference : Prop :=
  EncodedBy 0x11000000#32 0xFF000FFF#32 (fun w => .fsub (bitsRd w) (bitsRa w) (bitsRb w)) ∧
    ∀ (s : State) (rd ra rb : Nibble), Canonical (s.readF ra) → Canonical (s.readF rb) →
      ∃ v : W256, (v.toNat : Int) = ((s.readF ra).toNat - (s.readF rb).toNat : Int) % (p : Int) ∧ Canonical v ∧
        CompletesF (.fsub rd ra rb) rd v s

/-- R163, R167: FNEG writes `(p - a) mod p`, which is `fsub(0, a)`, and negating twice gives the operand back. -/
def Obligations.FnegIsModularNegation : Prop :=
  EncodedBy 0x12000000#32 0xFF00FFFF#32 (fun w => .fneg (bitsRd w) (bitsRa w)) ∧
    (∀ (s : State) (rd ra : Nibble), Canonical (s.readF ra) →
      ∃ v : W256, v.toNat = (p - (s.readF ra).toNat) % p ∧ CompletesF (.fneg rd ra) rd v s) ∧
    ∀ a : W256, Canonical a → fneg a = fsub 0 a ∧ fneg (fneg a) = a

/-- R168, R190: the properties of `add` and `mul` over canonical values. -/
def Obligations.FieldLaws : Prop :=
  ∀ a b c : W256, Canonical a → Canonical b → Canonical c →
    fadd a b = fadd b a ∧ fadd (fadd a b) c = fadd a (fadd b c) ∧ fadd a 0 = a ∧ fsub a a = 0 ∧
      fmul a b = fmul b a ∧ fmul (fmul a b) c = fmul a (fmul b c) ∧ fmul a 1 = a

/-! ## The modular multiplier -/

/-- R181, R183: FMUL writes the exact product modulo `p`. -/
def Obligations.FmulIsModularProduct : Prop :=
  EncodedBy 0x18000000#32 0xFF000FFF#32 (fun w => .fmul (bitsRd w) (bitsRa w) (bitsRb w)) ∧
    ∀ (s : State) (rd ra rb : Nibble),
      ∃ v : W256, v.toNat = (s.readF ra).toNat * (s.readF rb).toNat % p ∧ CompletesF (.fmul rd ra rb) rd v s

/-- R182, R184: FSMUL writes the floored remainder of the exact signed product, for every value of the K register. -/
def Obligations.FsmulIsFlooredProduct : Prop :=
  EncodedBy 0x19000000#32 0xFF0C0FFF#32 (fun w => .fsmul (bitsRd w) (bitsRa w) (bitsRb w)) ∧
    (∀ (s : State) (rd ra rb : Nibble),
      ∃ v : W256, (v.toNat : Int) = (s.readK ra).value * ((s.readF rb).toNat : Int) % (p : Int) ∧
        CompletesF (.fsmul rd ra rb) rd v s) ∧
    ∀ (k : Int) (a : W256), Canonical a →
      fsmul (-1) a = fneg a ∧ fsmul k a = fmul (BitVec.ofNat 256 (k % (p : Int)).toNat) a

/-- R186 to R189: the three reference reductions compute the remainder, and `fmul` by any of them is `fmul`. -/
def Obligations.ReductionMethodsAgree : Prop :=
  (∀ t : Nat, t < 2 ^ 512 → reduceFold t = t % p ∧ reduceBarrett t = t % p) ∧
    (∀ a b : Nat, a < p → b < p → mont (mont a b) montSquare = a * b % p) ∧
    ∀ (method : Config.Reduction) (a b : W256), Canonical a → Canonical b → fmulBy method a b = fmul a b

/-! ## The Fermat inverter -/

/-- R201, R205: FINV of a non-zero value writes the power `p - 2`, the only inverse in `[0, p)`; of zero it completes
with `DivisionByZero`. -/
def Obligations.FinvIsInverse : Prop :=
  EncodedBy 0x21000000#32 0xFF00FFFF#32 (fun w => .finv (bitsRd w) (bitsRa w)) ∧
    ∀ (s : State) (rd ra : Nibble), Canonical (s.readF ra) →
      ((s.readF ra).toNat = 0 → CompletesFailing (.finv rd ra) 4 s) ∧
      ((s.readF ra).toNat ≠ 0 →
        ∃ v : W256, v.toNat = (s.readF ra).toNat ^ (p - 2) % p ∧ (s.readF ra).toNat * v.toNat % p = 1 ∧
          (∀ u : Nat, u < p → (s.readF ra).toNat * u % p = 1 → u = v.toNat) ∧ CompletesF (.finv rd ra) rd v s)

/-- R202, R204: FPOW reduces the exponent modulo `p - 1` first; for a negative exponent it inverts first, and fails
with `DivisionByZero` exactly when the base is zero. -/
def Obligations.FpowReducesExponentFirst : Prop :=
  EncodedBy 0x20000000#32 0xFF00CFFF#32 (fun w => .fpow (bitsRd w) (bitsRa w) (bitsRb w)) ∧
    ∀ (s : State) (rd ra rb : Nibble), Canonical (s.readF ra) →
      (0 ≤ (s.readK rb).value →
        ∃ v : W256, v.toNat = (if (s.readK rb).value.toNat % (p - 1) = 0 then 1
            else (s.readF ra).toNat ^ ((s.readK rb).value.toNat % (p - 1)) % p) ∧
          CompletesF (.fpow rd ra rb) rd v s) ∧
      ((s.readK rb).value < 0 → (s.readF ra).toNat = 0 → CompletesFailing (.fpow rd ra rb) 4 s) ∧
      ((s.readK rb).value < 0 → (s.readF ra).toNat ≠ 0 →
        ∃ v i : W256, Canonical i ∧ (s.readF ra).toNat * i.toNat % p = 1 ∧
          v.toNat = (if (s.readK rb).value.natAbs % (p - 1) = 0 then 1
            else i.toNat ^ ((s.readK rb).value.natAbs % (p - 1)) % p) ∧
          CompletesF (.fpow rd ra rb) rd v s)

/-- R203, R206: FDIV writes the quotient `v` with `v * b = a`; it fails with `DivisionByZero` exactly when the divisor
is zero, whatever the dividend. -/
def Obligations.FdivIsFieldQuotient : Prop :=
  EncodedBy 0x22000000#32 0xFF000FFF#32 (fun w => .fdiv (bitsRd w) (bitsRa w) (bitsRb w)) ∧
    ∀ (s : State) (rd ra rb : Nibble), Canonical (s.readF ra) → Canonical (s.readF rb) →
      ((s.readF rb).toNat = 0 → CompletesFailing (.fdiv rd ra rb) 4 s) ∧
      ((s.readF rb).toNat ≠ 0 →
        ∃ v i : W256, finv (s.readF rb) = .ok i ∧ v = fmul (s.readF ra) i ∧ Canonical v ∧
          v.toNat * (s.readF rb).toNat % p = (s.readF ra).toNat ∧ CompletesF (.fdiv rd ra rb) rd v s)

/-- R208: the Fermat check and the properties of division. -/
def Obligations.FermatLaws : Prop :=
  ∀ a : W256, Canonical a →
    fdiv a 0 = .error .divisionByZero ∧ fpow a 0 = .ok 1 ∧
      (a ≠ 0 → fdiv a a = .ok 1 ∧ fpow a ((p : Int) - 1) = .ok 1 ∧ ∃ i, fpow a (-1) = .ok i ∧ fmul i a = 1)

/-- R204, C8: for a non-zero base the reduced exponent gives the integer power; for base zero, reducing first gives 1
at a multiple of `p - 1` and 0 at every other positive exponent. -/
def Obligations.FpowAgreesWithIntegerPower : Prop :=
  (∀ (a : W256) (n : Nat), Canonical a → a ≠ 0 → ∃ v, fpow a n = .ok v ∧ v.toNat = a.toNat ^ n % p) ∧
    ∀ n : Nat, (n % (p - 1) = 0 → fpow 0 n = .ok 1) ∧ (n % (p - 1) ≠ 0 → fpow 0 n = .ok 0)

/-- R7, R12: `p = 2^256 - 2^32 - 977` is an odd prime greater than 3. -/
def Obligations.FieldPrimeIsOddPrime : Prop :=
  p = 2 ^ 256 - 2 ^ 32 - 977 ∧ Nat.Prime p ∧ p % 2 = 1 ∧ 3 < p

/-! ## Point construction, copy, access and comparison -/

/-- R230, R233: the four outcomes of PNEW by the presence bits, and the two of the curve test, whose failure records
both sides. -/
def Obligations.PnewOutcomes : Prop :=
  EncodedBy 0x40000000#32 0xFF800FFC#32
      (fun w => .pnew (bitsRd w) (bitsRa w) (bitsRb w) (decide (w.toNat / 2 % 2 = 1)) (decide (w.toNat % 2 = 1))) ∧
    ∀ (s : State) (rd ra rb : Nibble) (x y : Nat), x = (s.readF ra).toNat → y = (s.readF rb).toNat →
      CompletesP (.pnew rd ra rb false false) rd .infinity s ∧
      CompletesFailing (.pnew rd ra rb true false) 3 s ∧ CompletesFailing (.pnew rd ra rb false true) 3 s ∧
      (y * y % p = (x * x * x + 7) % p →
        CompletesP (.pnew rd ra rb true true) rd (.coordinates (s.readF ra) (s.readF rb)) s) ∧
      (y * y % p ≠ (x * x * x + 7) % p →
        ∃ t, exec (.pnew rd ra rb true true) s = .next t ∧ FailsExceptDiag 2 s t ∧ t.diagl.toNat = y * y % p ∧
          t.diagr.toNat = (x * x * x + 7) % p)

/-- R236, R237: PLDG writes the generator, PMOV the source. -/
def Obligations.PldgPmovWrite : Prop :=
  EncodedBy 0x41000000#32 0xFF8FFFFF#32 (fun w => .pldg (bitsRd w)) ∧
    EncodedBy 0x42000000#32 0xFF88FFFF#32 (fun w => .pmov (bitsRd w) (bitsRa w)) ∧
    ∀ (s : State) (rd ra : Nibble),
      CompletesP (.pldg rd) rd (.coordinates Config.Gx Config.Gy) s ∧ CompletesP (.pmov rd ra) rd (s.readP ra) s

/-- R231, R238, R241: PISINF tests for `Infinity`, PEQ for equality of the tagged values. -/
def Obligations.PisinfPeqTest : Prop :=
  EncodedBy 0x43000000#32 0xFFF8FFFF#32 (fun w => .pisinf (bitsRa w)) ∧
    EncodedBy 0x46000000#32 0xFFF88FFF#32 (fun w => .peq (bitsRa w) (bitsRb w)) ∧
    ∀ (s : State) (ra rb : Nibble),
      CompletesT (.pisinf ra) (decide (s.readP ra = .infinity)) s ∧
        CompletesT (.peq ra rb) (decide (s.readP ra = s.readP rb)) s

/-- R239, R240: PGETX and PGETY copy a coordinate; on `Infinity` they complete with `NoCoordinates`. -/
def Obligations.PgetxPgetyCopy : Prop :=
  EncodedBy 0x44000000#32 0xFF08FFFF#32 (fun w => .pgetx (bitsRd w) (bitsRa w)) ∧
    EncodedBy 0x45000000#32 0xFF08FFFF#32 (fun w => .pgety (bitsRd w) (bitsRa w)) ∧
    ∀ (s : State) (rd ra : Nibble),
      (s.readP ra = .infinity → CompletesFailing (.pgetx rd ra) 6 s ∧ CompletesFailing (.pgety rd ra) 6 s) ∧
      ∀ x y, s.readP ra = .coordinates x y → CompletesF (.pgetx rd ra) rd x s ∧ CompletesF (.pgety rd ra) rd y s

/-- The worked examples of BFS section 8 and the group order (V2, V3, R9): `2G` and `3G` have the printed coordinates,
and the unreduced double-and-add of `N` on `G` gives `Infinity`. The numerals of `N` and `G` are the spec's own from general knowledge (log 9). -/
def Obligations.WorkedExamples : Prop :=
  pdbl generator = .ok (.coordinates
      0xc6047f9441ed7d6d3045406e95c07cd85c778e4b8cef3ca7abac09b95c709ee5#256
      0x1ae168fea63dc339a3c58419466ceaeef7f632653266d0e1236431a950cfe52a#256) ∧
    pmul generator 3 = .ok (.coordinates
      0xf9308a019258c31049344f85f89d5229b531c845836f99b08601f113bce036f9#256
      0x388f7b0f632de8140fe337e62a37f3566500a99934c2231b6cb9fd7584b8e672#256) ∧
    pmulLoop 256 N .infinity generator = .ok .infinity

/-- R243: the generator satisfies the curve equation and `(1, 2)` does not; taking a point apart with PGETX and PGETY
and constructing it again with PNEW succeeds and gives the same point, for every point that satisfies the invariant and any two different field registers. -/
def Obligations.PointRoundTrip : Prop :=
  generator.Ok ∧ onCurve 1 2 = false ∧
  ∀ (s : State) (a d fx fy : Nibble), fx ≠ fy → (s.readP a).Ok → s.readP a ≠ .infinity →
    ∃ t u v, exec (.pgetx fx a) s = .next t ∧ exec (.pgety fy a) t = .next u ∧
      exec (.pnew d fx fy true true) u = .next v ∧ v.code = 0#4 ∧ v.readP d = s.readP a

/-- R242, R268: the negative of a point on the curve is on the curve, no point on the curve has `y = 0`, and so no
point is its own negative. -/
def Obligations.NegationOfPoints : Prop :=
  (∀ x y : W256, Canonical x → Canonical y → onCurve x (fneg y) = onCurve x y ∧
    ((Point.coordinates x y).Ok → (Point.coordinates x (fneg y)).Ok ∧ fneg y ≠ y)) ∧
    ∀ x : W256, ¬(Point.coordinates x 0).Ok

/-! ## The point doubler and the point adder -/

/-- R261, R263: PDBL on canonical coordinates. `Infinity` and a vertical tangent give `Infinity`; otherwise the result
has the coordinates of the tangent law, with a slope `m` for which `m * 2y = 3x^2` modulo `p`. It is `padd` of the point
with itself, and the coefficients 2 and 3 may be held as integers or as field elements. -/
def Obligations.PdblIsTangentLaw : Prop :=
  EncodedBy 0x50000000#32 0xFF88FFFF#32 (fun w => .pdbl (bitsRd w) (bitsRa w)) ∧
    (∀ (s : State) (rd ra : Nibble),
      (s.readP ra = .infinity → CompletesP (.pdbl rd ra) rd .infinity s) ∧
      ∀ x y : W256, s.readP ra = .coordinates x y → Canonical x → Canonical y →
        (y = 0 → CompletesP (.pdbl rd ra) rd .infinity s) ∧
        (y ≠ 0 → ∃ m x3 y3 : W256, Canonical m ∧ Canonical x3 ∧ Canonical y3 ∧
          (p : Int) ∣ m.toNat * (2 * y.toNat) - 3 * x.toNat * x.toNat ∧
          (p : Int) ∣ x3.toNat - (m.toNat * m.toNat - 2 * x.toNat : Int) ∧
          (p : Int) ∣ y3.toNat - (m.toNat * (x.toNat - x3.toNat) - y.toNat : Int) ∧
          CompletesP (.pdbl rd ra) rd (.coordinates x3 y3) s)) ∧
    (∀ P : Point, padd P P = pdbl P) ∧
    ∀ v : W256, Canonical v → fsmul 2 v = fmul 2 v ∧ fmul 2 v = fadd v v ∧ fsmul 3 v = fmul 3 v

/-- R262, R264: the outcomes of PADD on canonical coordinates, in the order the cases are tested. For different `x`
the result has the coordinates of the chord law, with a slope `m` for which `m * (x2 - x1) = y2 - y1` modulo `p`. -/
def Obligations.PaddIsGroupLaw : Prop :=
  EncodedBy 0x51000000#32 0xFF888FFF#32 (fun w => .padd (bitsRd w) (bitsRa w) (bitsRb w)) ∧
    ∀ (s : State) (rd ra rb : Nibble), (s.readP ra).Canonical → (s.readP rb).Canonical →
      (s.readP ra = .infinity → CompletesP (.padd rd ra rb) rd (s.readP rb) s) ∧
      (s.readP ra ≠ .infinity → s.readP rb = .infinity → CompletesP (.padd rd ra rb) rd (s.readP ra) s) ∧
      ∀ x1 y1 x2 y2 : W256, s.readP ra = .coordinates x1 y1 → s.readP rb = .coordinates x2 y2 →
        (x1 = x2 ∧ y1 = y2 ∧ y1 ≠ 0 →
          ∃ R, pdbl (s.readP ra) = .ok R ∧ CompletesP (.padd rd ra rb) rd R s) ∧
        (x1 = x2 ∧ (y1 ≠ y2 ∨ y1 = 0) → CompletesP (.padd rd ra rb) rd .infinity s) ∧
        (x1 ≠ x2 → ∃ m x3 y3 : W256, Canonical m ∧ Canonical x3 ∧ Canonical y3 ∧
          (p : Int) ∣ m.toNat * (x2.toNat - x1.toNat) - (y2.toNat - y1.toNat : Int) ∧
          (p : Int) ∣ x3.toNat - (m.toNat * m.toNat - x1.toNat - x2.toNat : Int) ∧
          (p : Int) ∣ y3.toNat - (m.toNat * (x1.toNat - x3.toNat) - y1.toNat : Int) ∧
          CompletesP (.padd rd ra rb) rd (.coordinates x3 y3) s)

/-- R267: the group identities and commutativity, over points that satisfy the invariant; a point with `y = 0` doubles
to `Infinity`. -/
def Obligations.PointAdditionLaws : Prop :=
  (∀ P Q : Point, P.Ok → Q.Ok →
    padd P .infinity = .ok P ∧ padd .infinity P = .ok P ∧ padd P Q = padd Q P) ∧
    padd .infinity .infinity = .ok .infinity ∧
    (∀ x y : W256, (Point.coordinates x y).Ok →
      padd (.coordinates x y) (.coordinates x (fneg y)) = .ok .infinity) ∧
    (∀ x : W256, pdbl (.coordinates x 0) = .ok .infinity) ∧ ∀ P : Point, P.Ok → padd P P = pdbl P

/-- R266: the result of the group law on points that are `Infinity` or on the curve is `Infinity` or on the curve. -/
def Obligations.GroupLawStaysOnCurve : Prop :=
  ∀ (P Q : Point) (k : Int), P.Ok → Q.Ok →
    (∃ R, padd P Q = .ok R ∧ R.Ok) ∧ (∃ R, pdbl P = .ok R ∧ R.Ok) ∧ ∃ R, pmul P k = .ok R ∧ R.Ok

/-- R265, R294, R312: PDBL, PADD and PMUL always complete with code 0 when the registers they read satisfy the
invariant; the denominators of both formulas are not zero. -/
def Obligations.GroupLawNeverRaises : Prop :=
  (∀ (s : State) (rd ra rb : Nibble), (s.readP ra).Ok → (s.readP rb).Ok →
    (∃ t, exec (.pdbl rd ra) s = .next t ∧ t.code = 0#4) ∧ (∃ t, exec (.padd rd ra rb) s = .next t ∧ t.code = 0#4) ∧
      ∃ t, exec (.pmul rd ra rb) s = .next t ∧ t.code = 0#4) ∧
    (∀ y : W256, Canonical y → y ≠ 0 → fsmul 2 y ≠ 0) ∧
    ∀ x1 x2 : W256, Canonical x1 → Canonical x2 → x1 ≠ x2 → fsub x2 x1 ≠ 0

/-- R270 to R273: the Jacobian doubling and mixed addition have the affine law as their affine image, and the doubler
and adder built in either internal form compute `pdbl` and `padd`. -/
def Obligations.JacobianFormsAgree : Prop :=
  (∀ (j : Jacobian) (P Q : Point), Canonical j.X → Canonical j.Y → Canonical j.Z → Q.Canonical →
    toAffine j = .ok P → toAffine (jdbl j) = pdbl P ∧ toAffine (jmadd j Q) = padd P Q) ∧
    ∀ (form : Config.PointForm) (P Q : Point), P.Canonical → Q.Canonical →
      pdblBy form P = pdbl P ∧ paddBy form P Q = padd P Q

/-! ## The scalar multiplier -/

/-- R291, R292, R293: PMUL writes the sum, from the least significant bit up, of the doublings of the point at the set
bits of the reduced scalar, which is `k` modulo `N`. -/
def Obligations.PmulIsDoubleAndAdd : Prop :=
  EncodedBy 0x60000000#32 0xFF88CFFF#32 (fun w => .pmul (bitsRd w) (bitsRa w) (bitsRb w)) ∧
    (∀ k : Int, (reduceScalar k : Int) = k % (N : Int)) ∧
    ∀ (s : State) (rd ra rb : Nibble), (s.readP ra).Canonical →
      ∃ R, ((List.range 256).filter (fun j => (reduceScalar (s.readK rb).value).testBit j)).foldlM
          (fun acc j => (Nat.repeat (fun q => q >>= fun run => padd run run) j (Except.ok (s.readP ra))) >>= padd acc)
          Point.infinity = Except.ok R ∧
        CompletesP (.pmul rd ra rb) rd R s

/-- R293, R299: the properties of scalar multiplication, for every point with canonical coordinates; the result does
not depend on which representative of the scalar modulo `N` was presented. -/
def Obligations.PmulLaws : Prop :=
  (∀ P : Point, P.Canonical →
    pmul P 0 = .ok .infinity ∧ pmul P 1 = .ok P ∧ pmul P 2 = padd P P ∧ pmul P N = .ok .infinity ∧
      pmul P (-1) = pmul P (N - 1)) ∧
    (∀ k : Int, pmul .infinity k = .ok .infinity) ∧
    ∀ (P : Point) (k k' : Int), k % (N : Int) = k' % (N : Int) → pmul P k = pmul P k'

/-- R9, R293: `N` is the order of every point, not of `G` alone: the unreduced double-and-add of `N` gives `Infinity`,
so multiplication by -1 negates the point. The numeral `N` is the spec's own from general knowledge (log 9). -/
def Obligations.EveryPointHasOrderN : Prop :=
  ∀ P : Point, P.Ok → pmulLoop 256 N .infinity P = .ok .infinity ∧
    ∀ x y : W256, P = .coordinates x y → pmul P (-1) = .ok (.coordinates x (fneg y))

/-- R296, R297: the windowed multiplier computes `pmul`, for every window width and every point that satisfies the
invariant. -/
def Obligations.WindowedMultiplierAgrees : Prop :=
  ∀ (P : Point) (k : Int) (w : Nat), P.Ok → 1 ≤ w → pmulWin P k w = pmul P k

/-! ## Errors -/

/-- R316, R19: whatever command fails, with whatever code, leaves every field, point and integer register and `T` as
they were, records the code and the word, and sets its sticky bit; only `NotOnCurve`, which only a PNEW of two
coordinates raises, writes `DIAGL` and `DIAGR`, with the two sides of the equation. -/
def Obligations.FailureChangesNoRegister : Prop :=
  ∀ (i : Instr) (s t : State), exec i s = .next t → t.code ≠ 0#4 →
    FailsExceptDiag t.code.toNat s t ∧ (t.code ≠ 2#4 → t.diagl = s.diagl ∧ t.diagr = s.diagr) ∧
      (t.code = 2#4 → ∃ rd ra rb, i = .pnew rd ra rb true true ∧
        t.diagl.toNat = (s.readF rb).toNat * (s.readF rb).toNat % p ∧
        t.diagr.toNat = ((s.readF ra).toNat * (s.readF ra).toNat * (s.readF ra).toNat + 7) % p)

/-- R311, R312: a command completes with success or with one of the codes the table lists for it. -/
def Obligations.OnlyListedErrors : Prop :=
  ∀ (i : Instr) (s t : State), exec i s = .next t → t.code = 0#4 ∨ t.code.toNat ∈ mayRaise i

/-- R22, R24, R26, R316, R318: a completion writes no field register but the one the command names as destination, no
point register but that one, no integer register, and nothing of its surroundings; success leaves `ESTICKY`, `DIAGL`
and `DIAGR`. -/
def Obligations.OnlyDestinationsWritten : Prop :=
  ∀ (i : Instr) (s t : State), exec i s = .next t →
    (∀ j : Fin 16, (∀ d, destF i = some d → d.toNat ≠ j.val) → t.f[j] = s.f[j]) ∧
      (∀ j : Fin 8, (∀ d, destP i = some d → d.toNat % 8 ≠ j.val) → t.pt[j] = s.pt[j]) ∧
      t.k = s.k ∧ (writesT i = false → t.t = s.t) ∧ SameSurroundings s t ∧ t.lastcmd = s.cur ∧ t.busy = false ∧
      t.done = true ∧ (t.code = 0#4 → t.esticky = s.esticky ∧ t.diagl = s.diagl ∧ t.diagr = s.diagr)

/-- R22, R24, R26, R44, R45, R46, R48: along any step that is no reset, a field or point register changes only by the
successful completion of a command that names it as destination, an integer register only by a host write while
`BUSY = 0`, `DIAGL` and `DIAGR` only by `NotOnCurve`, `RESULT.CODE` and `LASTCMD` only by a completion, and `ESTICKY` only
by a completion with an error or by a host access. So an idle turn of the sequencer (R335, log 6) changes none. -/
def Obligations.RegistersChangeByTheirWritersOnly : Prop :=
  ∀ s t : State, step s = .next t → ¬ResetValues t →
    (∀ j : Fin 16, t.f[j] ≠ s.f[j] → s.busy = true ∧ t.code = 0#4 ∧ t.lastcmd = s.cur ∧
      ∃ i d, decode s.cur = .command i ∧ destF i = some d ∧ d.toNat = j.val) ∧
    (∀ j : Fin 8, t.pt[j] ≠ s.pt[j] → s.busy = true ∧ t.code = 0#4 ∧ t.lastcmd = s.cur ∧
      ∃ i d, decode s.cur = .command i ∧ destP i = some d ∧ d.toNat % 8 = j.val) ∧
    (t.k ≠ s.k → s.busy = false ∧ ∃ ix v rest, s.port = .write ix v :: rest ∧ 0x100 ≤ ix.off ∧ ix.off < 0x200) ∧
    (t.diagl ≠ s.diagl ∨ t.diagr ≠ s.diagr → s.busy = true ∧ t.code = 2#4 ∧ t.lastcmd = s.cur ∧ t.done = true) ∧
    (t.code ≠ s.code ∨ t.lastcmd ≠ s.lastcmd →
      s.busy = true ∧ t.lastcmd = s.cur ∧ t.busy = false ∧ t.done = true ∧
        (s.port = [] ∨ ∃ rest, s.port = .sequencer :: rest)) ∧
    (t.esticky ≠ s.esticky →
      (s.busy = true ∧ t.code ≠ 0#4 ∧ t.lastcmd = s.cur ∧ t.busy = false ∧ t.done = true) ∨
        (∃ ix rest, s.port = .read ix :: rest) ∨ ∃ ix v rest, s.port = .write ix v :: rest)

/-- R29: `T` is written by the successful completion of FEQ, PEQ or PISINF, with their predicate, and by reset, and by
no other step; no command reads it; the host reads it as `STATUS.T`; it is 0 after reset. -/
def Obligations.FlagIsWrittenByPredicatesOnly : Prop :=
  (∀ (s t : State) (ra rb : Nibble),
    (exec (.feq ra rb) s = .next t → t.t = decide (s.readF ra = s.readF rb)) ∧
      (exec (.peq ra rb) s = .next t → t.t = decide (s.readP ra = s.readP rb)) ∧
      (exec (.pisinf ra) s = .next t → t.t = decide (s.readP ra = .infinity))) ∧
    (∀ s t : State, step s = .next t → t.t ≠ s.t →
      (∃ i, decode s.cur = .command i ∧ writesT i = true ∧ s.busy = true ∧ t.code = 0#4 ∧ t.lastcmd = s.cur) ∨
        ResetValues t) ∧
    (∀ (i : Instr) (s t : State) (b : Bool), exec i s = .next t →
      exec i { s with t := b } = .next (if writesT i then t else { t with t := b })) ∧
    (∀ s : State, s.statusWord.getLsbD 3 = s.t) ∧ State.reset.t = false

/-- R45: a completion sets the bit of its code and clears none; a host write clears exactly the named bits that are 1
in the written word, also while `BUSY`; a read shows the record, whose unnamed bits are 0 under the invariant. -/
def Obligations.StickyRecord : Prop :=
  (∀ (i : Instr) (s t : State), exec i s = .next t → ∀ n,
    t.esticky.getLsbD n = (s.esticky.getLsbD n || decide (n = t.code.toNat ∧ t.code ≠ 0#4))) ∧
    (∀ (s : State) (v : Word), WriteDoes 0x014 v s fun t =>
      (∀ n, t.esticky.getLsbD n =
        (s.esticky.getLsbD n && !(v.getLsbD n && decide (n ∈ [1, 2, 3, 4, 5, 6, 8, 9])))) ∧
      SameBlock { s with esticky := t.esticky } t) ∧
    (∀ s : State, ReadsAs 0x014 s.esticky s) ∧
    ∀ s : State, s.Inv → ∀ n, n ∉ [1, 2, 3, 4, 5, 6, 8, 9] → s.esticky.getLsbD n = false

/-! ## The host window -/

/-- R47: a write to `CMD` is accepted when `BUSY = 0`, which changes `CUR`, `BUSY` and `DONE` only; when `BUSY = 1` it is
dropped and sets `BUSYACC`. A read of `CMD` returns 0. -/
def Obligations.CmdAcceptance : Prop :=
  ∀ (s : State) (w : Word),
    (s.busy = false → WriteDoes 0x01C w s fun t => SameBlock { s with cur := w, busy := true, done := false } t) ∧
      (s.busy = true → WriteDropped 0x01C w 0x100#32 s) ∧ ReadsAs 0x01C 0#32 s

/-- R14: every accepted command completes. From a state with a command in flight, if no reset stands among the coming
events, at most one step more than there are events completes exactly that command. -/
def Obligations.AcceptedCommandCompletes : Prop :=
  ∀ s : State, s.Inv → s.busy = true → s.hreset = false →
    (∀ e ∈ s.port, e ≠ .assertReset ∧ e ≠ .releaseReset ∧
      ∀ v : Word, e = .write (indexOf 0x008) v → v.getLsbD 0 = false) →
    ∃ n t, n ≤ s.port.length + 1 ∧ Host.Core.run Sys2Proof.core n s = .next t ∧ t.busy = false ∧ t.done = true ∧
      t.lastcmd = s.cur

/-- R40 to R44, R46: what the registers of the control block read as, at any time and without side effects. -/
def Obligations.ControlBlockReads : Prop :=
  ∀ s : State,
    ReadsAs 0x000 0x4B323536#32 s ∧ ReadsAs 0x004 0x00000001#32 s ∧ ReadsAs 0x008 0#32 s ∧
      (∃ v : Word, ReadsAs 0x00C v s ∧ v.getLsbD 0 = s.busy ∧ v.getLsbD 1 = s.done ∧
        v.getLsbD 2 = decide (s.code ≠ 0#4) ∧ v.getLsbD 3 = s.t ∧ ∀ n, 4 ≤ n → v.getLsbD n = false) ∧
      (∃ v : Word, ReadsAs 0x010 v s ∧ v.toNat = s.code.toNat) ∧ ReadsAs 0x018 s.lastcmd s

/-- R69, R117: a write to a word of a K register replaces that word and nothing else, the sign word takes bit 0 only,
reads return the same words, and the nine writes of SETK load any integer of the range. -/
def Obligations.IntegerRegisterAccess : Prop :=
  (∀ (s : State) (i : Fin 4) (j : Fin 8) (v : Word), s.busy = false →
    (WriteDoes (0x100 + 0x40 * i.val + 4 * j.val) v s fun t =>
      (∀ n : Fin 8, t.k[i].mag.toNat / 2 ^ (32 * n.val) % 2 ^ 32 =
        if n = j then v.toNat else s.k[i].mag.toNat / 2 ^ (32 * n.val) % 2 ^ 32) ∧
      t.k[i].sign = s.k[i].sign ∧ (∀ m : Fin 4, m ≠ i → t.k[m] = s.k[m]) ∧ SameBlock { s with k := t.k } t) ∧
    (WriteDoes (0x100 + 0x40 * i.val + 0x20) v s fun t =>
      t.k[i] = ⟨v.getLsbD 0, s.k[i].mag⟩ ∧ (∀ m : Fin 4, m ≠ i → t.k[m] = s.k[m]) ∧
      SameBlock { s with k := t.k } t) ∧
    ReadsAs (0x100 + 0x40 * i.val + 4 * j.val) (BitVec.ofNat 32 (s.k[i].mag.toNat / 2 ^ (32 * j.val))) s ∧
    ReadsAs (0x100 + 0x40 * i.val + 0x20) (if s.k[i].sign then 1#32 else 0#32) s) ∧
    ∀ (s : State) (i : Fin 4) (n : Int) (rest : List Event), n.natAbs < 2 ^ 256 → s.busy = false →
      s.hreset = false → s.port = setKEvents i n ++ rest →
      ∃ t, Host.Core.run Sys2Proof.core 9 s = .next t ∧ t.port = rest ∧ t.k[i].value = n ∧
        (∀ m : Fin 4, m ≠ i → t.k[m] = s.k[m]) ∧ SameBlock { s with k := t.k } t

/-- R63, R70, R72, R73: field registers, constants and diagnostics read word by word, the least significant word at the
lowest offset, the eight words make up the value, and writes to them are refused. -/
def Obligations.WideValuesReadByWords : Prop :=
  ∀ s : State, s.busy = false →
    (∀ (i : Fin 16) (j : Fin 8),
      ReadsAs (0x200 + 0x20 * i.val + 4 * j.val) (BitVec.ofNat 32 (s.f[i].toNat / 2 ^ (32 * j.val))) s) ∧
    (∀ j : Fin 8,
      ReadsAs (0x800 + 4 * j.val) (BitVec.ofNat 32 (p / 2 ^ (32 * j.val))) s ∧
      ReadsAs (0x820 + 4 * j.val) (BitVec.ofNat 32 (N / 2 ^ (32 * j.val))) s ∧
      ReadsAs (0x840 + 4 * j.val) (BitVec.ofNat 32 (Config.Gx.toNat / 2 ^ (32 * j.val))) s ∧
      ReadsAs (0x860 + 4 * j.val) (BitVec.ofNat 32 (Config.Gy.toNat / 2 ^ (32 * j.val))) s ∧
      ReadsAs (0x880 + 4 * j.val) (if j = 0 then 7#32 else 0#32) s ∧
      ReadsAs (0x8C0 + 4 * j.val) (BitVec.ofNat 32 (s.diagl.toNat / 2 ^ (32 * j.val))) s ∧
      ReadsAs (0x8E0 + 4 * j.val) (BitVec.ofNat 32 (s.diagr.toNat / 2 ^ (32 * j.val))) s) ∧
    (∀ i : Fin 16, s.w256At (0x200 + 0x20 * i.val) = s.f[i].toNat) ∧
    (∀ i : Fin 4, s.w256At (0x100 + 0x40 * i.val) = s.k[i].mag.toNat) ∧
    (∀ (i : Fin 8) (x y : W256), s.pt[i] = .coordinates x y →
      s.w256At (0x400 + 0x80 * i.val) = x.toNat ∧ s.w256At (0x420 + 0x80 * i.val) = y.toNat) ∧
    s.w256At 0x800 = p ∧ s.w256At 0x820 = N ∧ s.w256At 0x840 = Config.Gx.toNat ∧
    s.w256At 0x860 = Config.Gy.toNat ∧ s.w256At 0x880 = 7 ∧ s.w256At 0x8C0 = s.diagl.toNat ∧
    s.w256At 0x8E0 = s.diagr.toNat ∧
    ∀ (n : Nat) (v : Word), (0x200 ≤ 4 * n ∧ 4 * n < 0x400) ∨ (0x800 ≤ 4 * n ∧ 4 * n < 0x8A0) ∨
      (0x8C0 ≤ 4 * n ∧ 4 * n < 0x900) → WriteDropped (4 * n) v 0x200#32 s

/-- R71: a point reads as the words of its coordinates and tag 0; `Infinity` as zero words and tag 1; writes
to them are refused. -/
def Obligations.PointsReadByWords : Prop :=
  ∀ (s : State) (i : Fin 8) (j : Fin 8), s.busy = false →
    (∀ x y, s.pt[i] = .coordinates x y →
      ReadsAs (0x400 + 0x80 * i.val + 4 * j.val) (BitVec.ofNat 32 (x.toNat / 2 ^ (32 * j.val))) s ∧
      ReadsAs (0x400 + 0x80 * i.val + 0x20 + 4 * j.val) (BitVec.ofNat 32 (y.toNat / 2 ^ (32 * j.val))) s ∧
      ReadsAs (0x400 + 0x80 * i.val + 0x40) 0#32 s) ∧
    (s.pt[i] = .infinity →
      ReadsAs (0x400 + 0x80 * i.val + 4 * j.val) 0#32 s ∧
      ReadsAs (0x400 + 0x80 * i.val + 0x20 + 4 * j.val) 0#32 s ∧ ReadsAs (0x400 + 0x80 * i.val + 0x40) 1#32 s) ∧
    ∀ v : Word, WriteDropped (0x400 + 0x80 * i.val + 4 * j.val) v 0x200#32 s ∧
      WriteDropped (0x400 + 0x80 * i.val + 0x20 + 4 * j.val) v 0x200#32 s ∧
      WriteDropped (0x400 + 0x80 * i.val + 0x40) v 0x200#32 s

/-- R74: while `BUSY = 1` reads of the control block are served, writes to `CTRL` and `ESTICKY` are performed, a write to
`CMD` is dropped, and every access at or above `0x020`, mapped or not, is refused with `BUSYACC` alone. -/
def Obligations.BusyRefusesTheWindow : Prop :=
  ∀ (s : State) (n : Nat) (v : Word), s.busy = true → n < 1024 →
    (4 * n < 0x020 → ReadsAs (4 * n) (s.readLocation (locate (indexOf (4 * n)))) s) ∧
      (0x020 ≤ 4 * n → ReadRefused (4 * n) 0x100#32 s ∧ WriteDropped (4 * n) v 0x100#32 s) ∧
      WriteDropped 0x01C v 0x100#32 s ∧
      (v.getLsbD 0 = true → WriteDoes 0x008 v s fun t => ResetValues t) ∧
      WriteDoes 0x014 v s fun t => t.esticky = s.esticky &&& ~~~(v &&& 0x37E#32)

/-- R74: no host access but the soft reset disturbs or observes a command in flight. It leaves every register and `CUR`
as they were, and the completion that follows writes what it would have written without it. Its answer, and what it
leaves in `ESTICKY`, are the same in two states that agree on `T`, `DONE`, `CODE`, `ESTICKY` and `LASTCMD`, whatever the
command in flight, its operands and the other registers are. -/
def Obligations.FlightIsUndisturbed : Prop :=
  (∀ (s t : State) (e : Event), s.busy = true → s.hreset = false → e.IsAccessButReset → performEvent e s = .next t →
    SameBlock { s with esticky := t.esticky } t ∧
      ∀ u, completeStep s = .next u →
        ∃ u', completeStep t = .next u' ∧ SameBlock { u with esticky := u'.esticky } u') ∧
    ∀ (s s' : State) (e : Event), s.busy = true → s'.busy = true → s.hreset = false → s'.hreset = false →
      s'.t = s.t → s'.done = s.done → s'.code = s.code → s'.esticky = s.esticky → s'.lastcmd = s.lastcmd →
      e.IsAccessButReset →
      ∃ t t', performEvent e s = .next t ∧ performEvent e s' = .next t' ∧ t'.reply = t.reply ∧ t'.esticky = t.esticky

/-- R75: a write to a read-only location is dropped, an unmapped location reads 0 and drops writes, each with `BADACC`
alone; this holds when `BUSY = 0`, and in the control block at any time. `CTRL` and `CMD` read 0 without an error. The
port always answers. -/
def Obligations.RefusedAccesses : Prop :=
  ∀ (s : State) (n : Nat) (v : Word), n < 1024 → (s.busy = false ∨ 4 * n < 0x020) →
    (isReadOnly (4 * n) = true → WriteDropped (4 * n) v 0x200#32 s) ∧
      (isUnmapped (4 * n) = true → ReadRefused (4 * n) 0x200#32 s ∧ WriteDropped (4 * n) v 0x200#32 s) ∧
      (4 * n = 0x008 ∨ 4 * n = 0x01C → ReadsAs (4 * n) 0#32 s) ∧
      ∀ (rest : List Event), s.hreset = false →
        (s.port = .read (indexOf (4 * n)) :: rest → ∃ t w, step s = .next t ∧ t.reply = .data w) ∧
        (s.port = .write (indexOf (4 * n)) v :: rest → ∃ t, step s = .next t ∧ t.reply = .written)

/-! ## Reset -/

/-- R42, R352: a write to `CTRL` with bit 0 set resets the block in the same transaction, also while `BUSY`; with bit 0
clear it does nothing; `CTRL` reads 0. -/
def Obligations.SoftReset : Prop :=
  ∀ (s : State) (v : Word),
    (v.getLsbD 0 = true → WriteDoes 0x008 v s fun t => ResetValues t ∧ t.hreset = false) ∧
      (v.getLsbD 0 = false → WriteDoes 0x008 v s fun t => SameBlock s t) ∧ ReadsAs 0x008 0#32 s

/-- R51, R350, R351: after either reset, and at `State.reset`, every register has its reset value; while the line is
asserted the port does not answer; from every state with nothing in flight, reset or not, nothing runs until the host
writes `CMD`, and after a reset the command is accepted. The model's choices: a transaction under the asserted line, and
the sequencer's turn there, leave the block as it was (log 5); an idle turn of the sequencer does (log 6), also as the
step of an empty port (log 1). -/
def Obligations.HardReset : Prop :=
  ResetValues State.reset ∧ (∀ (s : State) (v : Word), v.getLsbD 0 = true → WriteDoes 0x008 v s ResetValues) ∧
    (∀ (s : State) (rest : List Event), s.port = .releaseReset :: rest →
      ∃ t, step s = .next t ∧ ResetValues t ∧ t.hreset = false ∧ t.port = rest) ∧
    (∀ (s : State) (rest : List Event), s.port = .assertReset :: rest →
      ∃ t, step s = .next t ∧ t.hreset = true ∧ t.reply = .silent ∧ t.port = rest) ∧
    (∀ (s : State) (rest : List Event) (ix : WordIndex) (v : Word), s.hreset = true →
      (s.port = .read ix :: rest ∨ s.port = .write ix v :: rest) →
      step s = .next { s with port := rest, reply := .silent }) ∧
    (∀ s : State, s.busy = false ∨ s.hreset = true →
      (s.port = [] → step s = .next s) ∧
        ∀ rest, s.port = .sequencer :: rest → step s = .next { s with port := rest }) ∧
    (∀ s : State, s.busy = false → (∀ w rest, s.port ≠ .write (indexOf 0x01C) w :: rest) →
      ∃ t, step s = .next t ∧ t.busy = false) ∧
    ∀ s : State, ResetValues s → s.hreset = false →
      ∀ w, WriteDoes 0x01C w s fun t => SameBlock { s with cur := w, busy := true, done := false } t

/-! ## Invariants -/

/-- R353: the invariants hold at reset. -/
def Obligations.InvariantAtReset : Prop := State.reset.Inv

/-- R353, R21, R23, R324: from every state that satisfies the invariants, whatever the coming event, the machine answers
a next state, no fault and no refusal, and it satisfies them again. -/
def Obligations.StepKeepsInvariant : Prop :=
  ∀ s : State, s.Inv → ∃ t, step s = .next t ∧ t.Inv
end

