-- ==== Sys2Proof/Laws/Field.lean ====
section
/-! SUPPORT. What the pure functions of the field units are, as integers: the values R161 to R163, R181, R182, R201 to
R203 describe, and that every result is canonical (R21). -/

namespace Sys2Proof.Machine

open Sys2Proof.Config (p)

theorem p_pos : 0 < p := by decide +kernel

theorem p_lt : p < 2 ^ 256 := by decide +kernel

theorem two_p_gt : 2 ^ 256 < 2 * p := by decide +kernel

theorem toNat_ofNat_of_lt_p {n : Nat} (h : n < p) : (BitVec.ofNat 256 n).toNat = n := by
  rw [BitVec.toNat_ofNat, Nat.mod_eq_of_lt (Nat.lt_trans h p_lt)]

theorem toNat_ofNat_mod_p (n : Nat) : (BitVec.ofNat 256 (n % p)).toNat = n % p :=
  toNat_ofNat_of_lt_p (Nat.mod_lt _ p_pos)

theorem canonical_of_toNat {v : W256} {n : Nat} (h : v.toNat = n % p) : Canonical v :=
  show v.toNat < p from h.symm ▸ Nat.mod_lt _ p_pos

theorem ne_zero_toNat {v : W256} (h : v ≠ 0#256) : v.toNat ≠ 0 := fun e => h (BitVec.eq_of_toNat_eq (by simpa using e))

/-- `fadd` is the sum modulo `p` (R161). -/
theorem fadd_toNat {a b : W256} (ha : Canonical a) (hb : Canonical b) :
    (fadd a b).toNat = (a.toNat + b.toNat) % p := by
  unfold fadd
  dsimp only
  have ha' : a.toNat < p := ha
  have hb' : b.toNat < p := hb
  split
  · next h =>
    rw [toNat_ofNat_of_lt_p (by omega), Nat.mod_eq_sub_mod h, Nat.mod_eq_of_lt (by omega)]
  · next h => rw [toNat_ofNat_of_lt_p (by omega), Nat.mod_eq_of_lt (by omega)]

/-- `fsub` is the difference modulo `p` (R162), written without negative numbers. -/
theorem fsub_toNat {a b : W256} (ha : Canonical a) (hb : Canonical b) :
    (fsub a b).toNat = (a.toNat + (p - b.toNat)) % p := by
  unfold fsub
  have ha' : a.toNat < p := ha
  have hb' : b.toNat < p := hb
  split
  · next h =>
    rw [toNat_ofNat_of_lt_p (by omega), Nat.mod_eq_sub_mod (by omega), Nat.mod_eq_of_lt (by omega)]
    omega
  · next h =>
    rw [toNat_ofNat_of_lt_p (by omega), Nat.mod_eq_of_lt (by omega)]
    omega

/-- `fneg` is the negation modulo `p` (R163). -/
theorem fneg_toNat {a : W256} (ha : Canonical a) : (fneg a).toNat = (p - a.toNat) % p := by
  unfold fneg
  have ha' : a.toNat < p := ha
  split
  · next h => subst h; simp
  · next h =>
    have := ne_zero_toNat h
    rw [toNat_ofNat_of_lt_p (by omega), Nat.mod_eq_of_lt (by omega)]

/-- `fmul` is the product modulo `p` (R181). -/
theorem fmul_toNat (a b : W256) : (fmul a b).toNat = a.toNat * b.toNat % p := toNat_ofNat_mod_p _

/-- `fsmul` is the floored product modulo `p` (R182). -/
theorem fsmul_toInt (k : Int) (a : W256) : ((fsmul k a).toNat : Int) = k * (a.toNat : Int) % (p : Int) := by
  have hp : (0 : Int) < (p : Int) := by exact_mod_cast p_pos
  have h0 := Int.emod_nonneg (k * (a.toNat : Int)) (Int.ne_of_gt hp)
  have h1 := Int.emod_lt_of_pos (k * (a.toNat : Int)) hp
  unfold fsmul
  rw [Int.fmod_eq_emod_of_nonneg _ (Int.le_of_lt hp), toNat_ofNat_of_lt_p (by omega)]
  omega

theorem canonical_one : Canonical 1#256 := by decide +kernel

theorem canonical_fadd {a b : W256} (ha : Canonical a) (hb : Canonical b) : Canonical (fadd a b) :=
  canonical_of_toNat (fadd_toNat ha hb)

theorem canonical_fsub {a b : W256} (ha : Canonical a) (hb : Canonical b) : Canonical (fsub a b) :=
  canonical_of_toNat (fsub_toNat ha hb)

theorem canonical_fneg {a : W256} (ha : Canonical a) : Canonical (fneg a) := canonical_of_toNat (fneg_toNat ha)

theorem canonical_fmul (a b : W256) : Canonical (fmul a b) := canonical_of_toNat (fmul_toNat a b)

theorem canonical_fsmul (k : Int) (a : W256) : Canonical (fsmul k a) := by
  have hp : (0 : Int) < (p : Int) := by exact_mod_cast p_pos
  have h1 := Int.emod_lt_of_pos (k * (a.toNat : Int)) hp
  rw [← fsmul_toInt] at h1
  exact_mod_cast h1

theorem canonical_modPow (a : W256) (n : Nat) : Canonical (modPow a n).val := canonical_of_toNat (modPow a n).property

theorem canonical_fpowNonneg (a : W256) (n : Nat) : Canonical (fpowNonneg a n) := by
  unfold fpowNonneg
  by_cases h : n % (p - 1) = 0
  · exact (if_pos h).symm ▸ canonical_one
  · exact (if_neg h).symm ▸ canonical_modPow a (n % (p - 1))

/-- `finv` of a non-zero value is the power `p - 2` (R201). -/
theorem finv_of_ne_zero {a : W256} (h : a ≠ 0#256) : finv a = .ok (modPow a (p - 2)).val := if_neg h

/-- `fdiv` by a non-zero value multiplies by its inverse (R203). -/
theorem fdiv_of_ne_zero {a b : W256} (h : b ≠ 0#256) : fdiv a b = .ok (fmul a (modPow b (p - 2)).val) := by
  unfold fdiv
  rw [finv_of_ne_zero h]

theorem canonical_of_finv {a v : W256} (h : finv a = .ok v) : Canonical v := by
  unfold finv at h
  split at h
  · cases h
  · exact Except.ok.inj h ▸ canonical_modPow _ _

theorem canonical_of_fdiv {a b v : W256} (h : fdiv a b = .ok v) : Canonical v := by
  unfold fdiv at h
  split at h
  · cases h
  · cases h; exact canonical_fmul _ _

theorem canonical_of_fpow {a v : W256} {e : Int} (h : fpow a e = .ok v) : Canonical v := by
  unfold fpow at h
  split at h
  · cases h; exact canonical_fpowNonneg _ _
  · split at h
    · cases h
    · cases h; exact canonical_fpowNonneg _ _

/-- FNEW stores the magnitude it accepts, which is canonical (R141). -/
theorem fieldNew_ok {k : IntReg} {v : W256} (h : fieldNew k = .ok v) : v = k.mag ∧ Canonical v := by
  unfold fieldNew at h
  split at h
  · cases h
  · split at h
    · cases h
    · next hlt => cases h; exact ⟨rfl, Nat.lt_of_not_le hlt⟩

end Sys2Proof.Machine
end

