-- ==== Sys2Proof/Laws/Curve.lean ====
section
/-! SUPPORT. The group law on canonical coordinates: it never raises (R265), its results are canonical (R21), and the
scalar multiplier built from it neither (R294). -/

namespace Sys2Proof.Machine

open Sys2Proof.Config (p N)

theorem Point.Ok.canonical {P : Point} (h : P.Ok) : P.Canonical := by
  cases P with
  | infinity => trivial
  | coordinates x y => exact ⟨h.1, h.2.1⟩

theorem p_odd : p % 2 = 1 := by decide +kernel

/-- The denominator of the doubling formula is not zero (R261). -/
theorem fsmul_two_ne_zero {y : W256} (hy : Canonical y) (h : y ≠ 0#256) : fsmul 2 y ≠ 0#256 := by
  intro e
  have ht : ((fsmul 2 y).toNat : Int) = 2 * (y.toNat : Int) % (p : Int) := fsmul_toInt 2 y
  rw [e] at ht
  have hd : (p : Int) ∣ 2 * (y.toNat : Int) := Int.dvd_of_emod_eq_zero ht.symm
  have hdn : p ∣ 2 * y.toNat := by exact_mod_cast hd
  obtain ⟨c, hc⟩ := hdn
  have hy' : y.toNat < p := hy
  have h0 := ne_zero_toNat h
  have hodd := p_odd
  have : c < 2 := by
    by_contra hc2
    have : p * 2 ≤ p * c := Nat.mul_le_mul_left _ (by omega)
    omega
  interval_cases c <;> omega

/-- The denominator of the chord formula is not zero (R262). -/
theorem fsub_ne_zero {a b : W256} (ha : Canonical a) (hb : Canonical b) (h : a ≠ b) : fsub a b ≠ 0#256 := by
  intro e
  have ht := fsub_toNat ha hb
  rw [e] at ht
  have ha' : a.toNat < p := ha
  have hb' : b.toNat < p := hb
  have hne : a.toNat ≠ b.toNat := fun e => h (BitVec.eq_of_toNat_eq e)
  have ht' : (a.toNat + (p - b.toNat)) % p = 0 := ht.symm
  obtain ⟨c, hc⟩ := Nat.dvd_of_mod_eq_zero ht'
  have : c < 2 := by
    by_contra hc2
    have : p * 2 ≤ p * c := Nat.mul_le_mul_left _ (by omega)
    omega
  interval_cases c <;> omega

theorem chord_canonical {s x1 y1 x3 : W256} (h1 : Canonical y1) (h3 : Canonical x3) :
    (chord s x1 y1 x3).Canonical := ⟨h3, canonical_fsub (canonical_fmul _ _) h1⟩

theorem pdbl_coordinates (x y : W256) :
    pdbl (.coordinates x y) =
      if y = 0#256 then .ok .infinity
      else
        match fdiv (fsmul 3 (fmul x x)) (fsmul 2 y) with
        | .error e => .error e
        | .ok s => .ok (chord s x y (fsub (fmul s s) (fsmul 2 x))) := rfl

theorem padd_coordinates (x1 y1 x2 y2 : W256) :
    padd (.coordinates x1 y1) (.coordinates x2 y2) =
      if x1 = x2 then
        if y1 = y2 then
          if y1 ≠ 0#256 then pdbl (.coordinates x1 y1) else .ok .infinity
        else .ok .infinity
      else
        match fdiv (fsub y2 y1) (fsub x2 x1) with
        | .error e => .error e
        | .ok s => .ok (chord s x1 y1 (fsub (fsub (fmul s s) x1) x2)) := rfl

/-- `pdbl` returns a value, with canonical coordinates (R265). -/
theorem pdbl_ok {P : Point} (h : P.Canonical) : ∃ R, pdbl P = .ok R ∧ R.Canonical := by
  cases P with
  | infinity => exact ⟨_, rfl, trivial⟩
  | coordinates x y =>
    obtain ⟨hx, hy⟩ := h
    rw [pdbl_coordinates]
    split
    · exact ⟨_, rfl, trivial⟩
    · next hy0 =>
      rw [fdiv_of_ne_zero (fsmul_two_ne_zero hy hy0)]
      exact ⟨_, rfl, chord_canonical hy (canonical_fsub (canonical_fmul _ _) (canonical_fsmul _ _))⟩

/-- `padd` returns a value, with canonical coordinates (R265). -/
theorem padd_ok {P Q : Point} (hP : P.Canonical) (hQ : Q.Canonical) : ∃ R, padd P Q = .ok R ∧ R.Canonical := by
  cases P with
  | infinity => exact ⟨_, rfl, hQ⟩
  | coordinates x1 y1 =>
    cases Q with
    | infinity => exact ⟨_, rfl, hP⟩
    | coordinates x2 y2 =>
      rw [padd_coordinates]
      split
      · split
        · split
          · exact pdbl_ok hP
          · exact ⟨_, rfl, trivial⟩
        · exact ⟨_, rfl, trivial⟩
      · next hne =>
        rw [fdiv_of_ne_zero (fsub_ne_zero hQ.1 hP.1 (Ne.symm hne))]
        exact ⟨_, rfl, chord_canonical hP.2 (canonical_fsub (canonical_fsub (canonical_fmul _ _) hP.1) hQ.1)⟩

theorem pmulLoop_ok (fuel r : Nat) {acc run : Point} (ha : acc.Canonical) (hr : run.Canonical) :
    ∃ R, pmulLoop fuel r acc run = .ok R ∧ R.Canonical := by
  induction fuel generalizing r acc run with
  | zero => exact ⟨acc, rfl, ha⟩
  | succ fuel ih =>
    obtain ⟨A, hA, cA⟩ : ∃ A, (if r % 2 = 1 then padd acc run else .ok acc) = .ok A ∧ A.Canonical := by
      split
      · exact padd_ok ha hr
      · exact ⟨acc, rfl, ha⟩
    obtain ⟨R, hR, cR⟩ := padd_ok hr hr
    unfold pmulLoop
    split
    · exact ⟨acc, rfl, ha⟩
    · rw [hA, hR]
      exact ih _ cA cR

/-- `pmul` returns a value, with canonical coordinates (R294). -/
theorem pmul_ok {P : Point} (h : P.Canonical) (k : Int) : ∃ R, pmul P k = .ok R ∧ R.Canonical :=
  pmulLoop_ok _ _ trivial h

/-- `reduce_scalar` is the floored remainder modulo `N` (R291). -/
theorem reduceScalar_eq (k : Int) : (reduceScalar k : Int) = k % (N : Int) := by
  have hN : (0 : Int) < (N : Int) := by decide +kernel
  have h0 := Int.emod_nonneg k (Int.ne_of_gt hN)
  have h1 := Int.emod_lt_of_pos k hN
  have ht := Int.tmod_eq_emod_of_nonneg (a := k) (b := (N : Int))
  unfold reduceScalar
  dsimp only
  rcases Int.lt_or_le k 0 with hk | hk
  · have e := Int.tmod_eq_emod (a := k) (b := (N : Int))
    split <;> split at e <;> omega
  · rw [ht hk]
    split <;> omega

theorem reduceScalar_lt (k : Int) : reduceScalar k < N := by
  have hN : (0 : Int) < (N : Int) := by decide +kernel
  have h1 := Int.emod_lt_of_pos k hN
  rw [← reduceScalar_eq] at h1
  exact_mod_cast h1

end Sys2Proof.Machine
end

