-- ==== Sys2Proof/Laws/Encode.lean ====
section
/-! SUPPORT. The fields of an assembled command word (R101): each is what was put there, and bits 11:2 are zero. -/

namespace Sys2Proof

section
variable (op : BitVec 8) (rd ra rb : Nibble) (hx hy : Bool)

/-- Every bit of an assembled word. -/
theorem assemble_getLsbD (n : Nat) : (assemble op rd ra rb hx hy).getLsbD n =
    if n < 1 then hy
    else if n < 2 then hx
    else if n < 12 then false
    else if n < 16 then rb.getLsbD (n - 12)
    else if n < 20 then ra.getLsbD (n - 16)
    else if n < 24 then rd.getLsbD (n - 20)
    else op.getLsbD (n - 24) := by
  unfold assemble
  simp only [BitVec.getLsbD_append, BitVec.getLsbD_ofBool, BitVec.getLsbD_zero]
  split_ifs
  all_goals first
    | rfl
    | omega
    | (rw [decide_eq_true (by omega), Bool.true_and])

theorem opcodeOf_assemble : opcodeOf (assemble op rd ra rb hx hy) = op := by
  apply BitVec.eq_of_getLsbD_eq
  intro i hi
  simp only [opcodeOf, BitVec.getLsbD_extractLsb', assemble_getLsbD, hi]
  interval_cases i <;> rfl

theorem rdOf_assemble : rdOf (assemble op rd ra rb hx hy) = rd := by
  apply BitVec.eq_of_getLsbD_eq
  intro i hi
  simp only [rdOf, BitVec.getLsbD_extractLsb', assemble_getLsbD, hi]
  interval_cases i <;> rfl

theorem raOf_assemble : raOf (assemble op rd ra rb hx hy) = ra := by
  apply BitVec.eq_of_getLsbD_eq
  intro i hi
  simp only [raOf, BitVec.getLsbD_extractLsb', assemble_getLsbD, hi]
  interval_cases i <;> rfl

theorem rbOf_assemble : rbOf (assemble op rd ra rb hx hy) = rb := by
  apply BitVec.eq_of_getLsbD_eq
  intro i hi
  simp only [rbOf, BitVec.getLsbD_extractLsb', assemble_getLsbD, hi]
  interval_cases i <;> rfl

theorem hxOf_assemble : hxOf (assemble op rd ra rb hx hy) = hx := by
  rw [hxOf, assemble_getLsbD]; rfl

theorem hyOf_assemble : hyOf (assemble op rd ra rb hx hy) = hy := by
  rw [hyOf, assemble_getLsbD]; rfl

theorem reserved_assemble : (assemble op rd ra rb hx hy).extractLsb' 2 10 = 0#10 := by
  apply BitVec.eq_of_getLsbD_eq
  intro i hi
  simp only [BitVec.getLsbD_extractLsb', assemble_getLsbD, hi]
  interval_cases i <;> rfl

end

end Sys2Proof
end

