-- ==== Sys2Proof/Laws/State.lean ====
section
/-! SUPPORT. One lemma per field of State per named update: what the update leaves in that field. -/

namespace Sys2Proof.Machine

section
variable (s : State) (bits : Word)

@[simp] theorem State.setSticky_f : (s.setSticky bits).f = s.f := rfl
@[simp] theorem State.setSticky_pt : (s.setSticky bits).pt = s.pt := rfl
@[simp] theorem State.setSticky_k : (s.setSticky bits).k = s.k := rfl
@[simp] theorem State.setSticky_t : (s.setSticky bits).t = s.t := rfl
@[simp] theorem State.setSticky_busy : (s.setSticky bits).busy = s.busy := rfl
@[simp] theorem State.setSticky_done : (s.setSticky bits).done = s.done := rfl
@[simp] theorem State.setSticky_code : (s.setSticky bits).code = s.code := rfl
@[simp] theorem State.setSticky_esticky : (s.setSticky bits).esticky = s.esticky ||| bits := rfl
@[simp] theorem State.setSticky_lastcmd : (s.setSticky bits).lastcmd = s.lastcmd := rfl
@[simp] theorem State.setSticky_cur : (s.setSticky bits).cur = s.cur := rfl
@[simp] theorem State.setSticky_diagl : (s.setSticky bits).diagl = s.diagl := rfl
@[simp] theorem State.setSticky_diagr : (s.setSticky bits).diagr = s.diagr := rfl
@[simp] theorem State.setSticky_hreset : (s.setSticky bits).hreset = s.hreset := rfl
@[simp] theorem State.setSticky_port : (s.setSticky bits).port = s.port := rfl
@[simp] theorem State.setSticky_reply : (s.setSticky bits).reply = s.reply := rfl

end

section
variable (s : State) 

@[simp] theorem State.succeed_f : (s.succeed).f = s.f := rfl
@[simp] theorem State.succeed_pt : (s.succeed).pt = s.pt := rfl
@[simp] theorem State.succeed_k : (s.succeed).k = s.k := rfl
@[simp] theorem State.succeed_t : (s.succeed).t = s.t := rfl
@[simp] theorem State.succeed_busy : (s.succeed).busy = false := rfl
@[simp] theorem State.succeed_done : (s.succeed).done = true := rfl
@[simp] theorem State.succeed_code : (s.succeed).code = 0#4 := rfl
@[simp] theorem State.succeed_esticky : (s.succeed).esticky = s.esticky := rfl
@[simp] theorem State.succeed_lastcmd : (s.succeed).lastcmd = s.cur := rfl
@[simp] theorem State.succeed_cur : (s.succeed).cur = s.cur := rfl
@[simp] theorem State.succeed_diagl : (s.succeed).diagl = s.diagl := rfl
@[simp] theorem State.succeed_diagr : (s.succeed).diagr = s.diagr := rfl
@[simp] theorem State.succeed_hreset : (s.succeed).hreset = s.hreset := rfl
@[simp] theorem State.succeed_port : (s.succeed).port = s.port := rfl
@[simp] theorem State.succeed_reply : (s.succeed).reply = s.reply := rfl

end

section
variable (s : State) (e : ErrorKind)

@[simp] theorem State.fail_f : (s.fail e).f = s.f := rfl
@[simp] theorem State.fail_pt : (s.fail e).pt = s.pt := rfl
@[simp] theorem State.fail_k : (s.fail e).k = s.k := rfl
@[simp] theorem State.fail_t : (s.fail e).t = s.t := rfl
@[simp] theorem State.fail_busy : (s.fail e).busy = false := rfl
@[simp] theorem State.fail_done : (s.fail e).done = true := rfl
@[simp] theorem State.fail_code : (s.fail e).code = e.code := rfl
@[simp] theorem State.fail_esticky : (s.fail e).esticky = s.esticky ||| e.stickyBit := rfl
@[simp] theorem State.fail_lastcmd : (s.fail e).lastcmd = s.cur := rfl
@[simp] theorem State.fail_cur : (s.fail e).cur = s.cur := rfl
@[simp] theorem State.fail_diagl : (s.fail e).diagl = s.diagl := rfl
@[simp] theorem State.fail_diagr : (s.fail e).diagr = s.diagr := rfl
@[simp] theorem State.fail_hreset : (s.fail e).hreset = s.hreset := rfl
@[simp] theorem State.fail_port : (s.fail e).port = s.port := rfl
@[simp] theorem State.fail_reply : (s.fail e).reply = s.reply := rfl

end

section
variable (s : State) (w : Word)

@[simp] theorem State.accept_f : (s.accept w).f = s.f := rfl
@[simp] theorem State.accept_pt : (s.accept w).pt = s.pt := rfl
@[simp] theorem State.accept_k : (s.accept w).k = s.k := rfl
@[simp] theorem State.accept_t : (s.accept w).t = s.t := rfl
@[simp] theorem State.accept_busy : (s.accept w).busy = true := rfl
@[simp] theorem State.accept_done : (s.accept w).done = false := rfl
@[simp] theorem State.accept_code : (s.accept w).code = s.code := rfl
@[simp] theorem State.accept_esticky : (s.accept w).esticky = s.esticky := rfl
@[simp] theorem State.accept_lastcmd : (s.accept w).lastcmd = s.lastcmd := rfl
@[simp] theorem State.accept_cur : (s.accept w).cur = w := rfl
@[simp] theorem State.accept_diagl : (s.accept w).diagl = s.diagl := rfl
@[simp] theorem State.accept_diagr : (s.accept w).diagr = s.diagr := rfl
@[simp] theorem State.accept_hreset : (s.accept w).hreset = s.hreset := rfl
@[simp] theorem State.accept_port : (s.accept w).port = s.port := rfl
@[simp] theorem State.accept_reply : (s.accept w).reply = s.reply := rfl

end

section
variable (s : State) (n : Nibble) (v : W256)

@[simp] theorem State.writeF_f : (s.writeF n v).f = s.f.set (fIdx n).val v (fIdx n).isLt := rfl
@[simp] theorem State.writeF_pt : (s.writeF n v).pt = s.pt := rfl
@[simp] theorem State.writeF_k : (s.writeF n v).k = s.k := rfl
@[simp] theorem State.writeF_t : (s.writeF n v).t = s.t := rfl
@[simp] theorem State.writeF_busy : (s.writeF n v).busy = s.busy := rfl
@[simp] theorem State.writeF_done : (s.writeF n v).done = s.done := rfl
@[simp] theorem State.writeF_code : (s.writeF n v).code = s.code := rfl
@[simp] theorem State.writeF_esticky : (s.writeF n v).esticky = s.esticky := rfl
@[simp] theorem State.writeF_lastcmd : (s.writeF n v).lastcmd = s.lastcmd := rfl
@[simp] theorem State.writeF_cur : (s.writeF n v).cur = s.cur := rfl
@[simp] theorem State.writeF_diagl : (s.writeF n v).diagl = s.diagl := rfl
@[simp] theorem State.writeF_diagr : (s.writeF n v).diagr = s.diagr := rfl
@[simp] theorem State.writeF_hreset : (s.writeF n v).hreset = s.hreset := rfl
@[simp] theorem State.writeF_port : (s.writeF n v).port = s.port := rfl
@[simp] theorem State.writeF_reply : (s.writeF n v).reply = s.reply := rfl

end

section
variable (s : State) (n : Nibble) (v : Point)

@[simp] theorem State.writeP_f : (s.writeP n v).f = s.f := rfl
@[simp] theorem State.writeP_pt : (s.writeP n v).pt = s.pt.set (pIdx n).val v (pIdx n).isLt := rfl
@[simp] theorem State.writeP_k : (s.writeP n v).k = s.k := rfl
@[simp] theorem State.writeP_t : (s.writeP n v).t = s.t := rfl
@[simp] theorem State.writeP_busy : (s.writeP n v).busy = s.busy := rfl
@[simp] theorem State.writeP_done : (s.writeP n v).done = s.done := rfl
@[simp] theorem State.writeP_code : (s.writeP n v).code = s.code := rfl
@[simp] theorem State.writeP_esticky : (s.writeP n v).esticky = s.esticky := rfl
@[simp] theorem State.writeP_lastcmd : (s.writeP n v).lastcmd = s.lastcmd := rfl
@[simp] theorem State.writeP_cur : (s.writeP n v).cur = s.cur := rfl
@[simp] theorem State.writeP_diagl : (s.writeP n v).diagl = s.diagl := rfl
@[simp] theorem State.writeP_diagr : (s.writeP n v).diagr = s.diagr := rfl
@[simp] theorem State.writeP_hreset : (s.writeP n v).hreset = s.hreset := rfl
@[simp] theorem State.writeP_port : (s.writeP n v).port = s.port := rfl
@[simp] theorem State.writeP_reply : (s.writeP n v).reply = s.reply := rfl

end

section
variable (s : State) (b : Bool)

@[simp] theorem State.writeT_f : (s.writeT b).f = s.f := rfl
@[simp] theorem State.writeT_pt : (s.writeT b).pt = s.pt := rfl
@[simp] theorem State.writeT_k : (s.writeT b).k = s.k := rfl
@[simp] theorem State.writeT_t : (s.writeT b).t = b := rfl
@[simp] theorem State.writeT_busy : (s.writeT b).busy = s.busy := rfl
@[simp] theorem State.writeT_done : (s.writeT b).done = s.done := rfl
@[simp] theorem State.writeT_code : (s.writeT b).code = s.code := rfl
@[simp] theorem State.writeT_esticky : (s.writeT b).esticky = s.esticky := rfl
@[simp] theorem State.writeT_lastcmd : (s.writeT b).lastcmd = s.lastcmd := rfl
@[simp] theorem State.writeT_cur : (s.writeT b).cur = s.cur := rfl
@[simp] theorem State.writeT_diagl : (s.writeT b).diagl = s.diagl := rfl
@[simp] theorem State.writeT_diagr : (s.writeT b).diagr = s.diagr := rfl
@[simp] theorem State.writeT_hreset : (s.writeT b).hreset = s.hreset := rfl
@[simp] theorem State.writeT_port : (s.writeT b).port = s.port := rfl
@[simp] theorem State.writeT_reply : (s.writeT b).reply = s.reply := rfl

end

section
variable (s : State) (i : Fin 4) (v : IntReg)

@[simp] theorem State.setK_f : (s.setK i v).f = s.f := rfl
@[simp] theorem State.setK_pt : (s.setK i v).pt = s.pt := rfl
@[simp] theorem State.setK_k : (s.setK i v).k = s.k.set i.val v i.isLt := rfl
@[simp] theorem State.setK_t : (s.setK i v).t = s.t := rfl
@[simp] theorem State.setK_busy : (s.setK i v).busy = s.busy := rfl
@[simp] theorem State.setK_done : (s.setK i v).done = s.done := rfl
@[simp] theorem State.setK_code : (s.setK i v).code = s.code := rfl
@[simp] theorem State.setK_esticky : (s.setK i v).esticky = s.esticky := rfl
@[simp] theorem State.setK_lastcmd : (s.setK i v).lastcmd = s.lastcmd := rfl
@[simp] theorem State.setK_cur : (s.setK i v).cur = s.cur := rfl
@[simp] theorem State.setK_diagl : (s.setK i v).diagl = s.diagl := rfl
@[simp] theorem State.setK_diagr : (s.setK i v).diagr = s.diagr := rfl
@[simp] theorem State.setK_hreset : (s.setK i v).hreset = s.hreset := rfl
@[simp] theorem State.setK_port : (s.setK i v).port = s.port := rfl
@[simp] theorem State.setK_reply : (s.setK i v).reply = s.reply := rfl

end

section
variable (s : State) (v : Word)

@[simp] theorem State.clearSticky_f : (s.clearSticky v).f = s.f := rfl
@[simp] theorem State.clearSticky_pt : (s.clearSticky v).pt = s.pt := rfl
@[simp] theorem State.clearSticky_k : (s.clearSticky v).k = s.k := rfl
@[simp] theorem State.clearSticky_t : (s.clearSticky v).t = s.t := rfl
@[simp] theorem State.clearSticky_busy : (s.clearSticky v).busy = s.busy := rfl
@[simp] theorem State.clearSticky_done : (s.clearSticky v).done = s.done := rfl
@[simp] theorem State.clearSticky_code : (s.clearSticky v).code = s.code := rfl
@[simp] theorem State.clearSticky_esticky : (s.clearSticky v).esticky = s.esticky &&& ~~~(v &&& stickyMask) := rfl
@[simp] theorem State.clearSticky_lastcmd : (s.clearSticky v).lastcmd = s.lastcmd := rfl
@[simp] theorem State.clearSticky_cur : (s.clearSticky v).cur = s.cur := rfl
@[simp] theorem State.clearSticky_diagl : (s.clearSticky v).diagl = s.diagl := rfl
@[simp] theorem State.clearSticky_diagr : (s.clearSticky v).diagr = s.diagr := rfl
@[simp] theorem State.clearSticky_hreset : (s.clearSticky v).hreset = s.hreset := rfl
@[simp] theorem State.clearSticky_port : (s.clearSticky v).port = s.port := rfl
@[simp] theorem State.clearSticky_reply : (s.clearSticky v).reply = s.reply := rfl

end

section
variable (s : State) (l r : W256)

@[simp] theorem State.failNotOnCurve_f : (s.failNotOnCurve l r).f = s.f := rfl
@[simp] theorem State.failNotOnCurve_pt : (s.failNotOnCurve l r).pt = s.pt := rfl
@[simp] theorem State.failNotOnCurve_k : (s.failNotOnCurve l r).k = s.k := rfl
@[simp] theorem State.failNotOnCurve_t : (s.failNotOnCurve l r).t = s.t := rfl
@[simp] theorem State.failNotOnCurve_busy : (s.failNotOnCurve l r).busy = false := rfl
@[simp] theorem State.failNotOnCurve_done : (s.failNotOnCurve l r).done = true := rfl
@[simp] theorem State.failNotOnCurve_code : (s.failNotOnCurve l r).code = 2#4 := rfl
@[simp] theorem State.failNotOnCurve_esticky : (s.failNotOnCurve l r).esticky = s.esticky ||| 4#32 := rfl
@[simp] theorem State.failNotOnCurve_lastcmd : (s.failNotOnCurve l r).lastcmd = s.cur := rfl
@[simp] theorem State.failNotOnCurve_cur : (s.failNotOnCurve l r).cur = s.cur := rfl
@[simp] theorem State.failNotOnCurve_diagl : (s.failNotOnCurve l r).diagl = l := rfl
@[simp] theorem State.failNotOnCurve_diagr : (s.failNotOnCurve l r).diagr = r := rfl
@[simp] theorem State.failNotOnCurve_hreset : (s.failNotOnCurve l r).hreset = s.hreset := rfl
@[simp] theorem State.failNotOnCurve_port : (s.failNotOnCurve l r).port = s.port := rfl
@[simp] theorem State.failNotOnCurve_reply : (s.failNotOnCurve l r).reply = s.reply := rfl

end

section
variable (s : State)

@[simp] theorem State.resetBlock_f : s.resetBlock.f = State.reset.f := rfl
@[simp] theorem State.resetBlock_pt : s.resetBlock.pt = State.reset.pt := rfl
@[simp] theorem State.resetBlock_k : s.resetBlock.k = State.reset.k := rfl
@[simp] theorem State.resetBlock_t : s.resetBlock.t = State.reset.t := rfl
@[simp] theorem State.resetBlock_busy : s.resetBlock.busy = State.reset.busy := rfl
@[simp] theorem State.resetBlock_done : s.resetBlock.done = State.reset.done := rfl
@[simp] theorem State.resetBlock_code : s.resetBlock.code = State.reset.code := rfl
@[simp] theorem State.resetBlock_esticky : s.resetBlock.esticky = State.reset.esticky := rfl
@[simp] theorem State.resetBlock_lastcmd : s.resetBlock.lastcmd = State.reset.lastcmd := rfl
@[simp] theorem State.resetBlock_cur : s.resetBlock.cur = State.reset.cur := rfl
@[simp] theorem State.resetBlock_diagl : s.resetBlock.diagl = State.reset.diagl := rfl
@[simp] theorem State.resetBlock_diagr : s.resetBlock.diagr = State.reset.diagr := rfl
@[simp] theorem State.resetBlock_hreset : s.resetBlock.hreset = State.reset.hreset := rfl
@[simp] theorem State.resetBlock_port : s.resetBlock.port = s.port := rfl
@[simp] theorem State.resetBlock_reply : s.resetBlock.reply = s.reply := rfl

end

end Sys2Proof.Machine
end

