-- ==== Sys2Proof/Laws/Ops.lean ====
section
/-! SUPPORT. Once for each shared operation, all it can do: reading after writing the register files, the completions,
what a command's meaning can answer, the access part of a host transaction, and one step. -/

namespace Sys2Proof.Machine

theorem fIdx_val (n : Nibble) : (fIdx n).val = n.toNat := rfl

theorem pIdx_val (n : Nibble) : (pIdx n).val = n.toNat % 8 := by
  simp [pIdx, Nat.shiftRight_zero]

theorem kIdx_val (n : Nibble) : (kIdx n).val = n.toNat % 4 := by
  simp [kIdx, Nat.shiftRight_zero]

theorem writeF_get (s : State) (n : Nibble) (v : W256) (i : Fin 16) :
    (s.writeF n v).f[i] = if i = fIdx n then v else s.f[i] := by
  simp only [State.writeF_f, Fin.getElem_fin, Vector.getElem_set, Fin.ext_iff, eq_comm]

theorem writeP_get (s : State) (n : Nibble) (v : Point) (i : Fin 8) :
    (s.writeP n v).pt[i] = if i = pIdx n then v else s.pt[i] := by
  simp only [State.writeP_pt, Fin.getElem_fin, Vector.getElem_set, Fin.ext_iff, eq_comm]

theorem setK_get (s : State) (j : Fin 4) (v : IntReg) (i : Fin 4) :
    (s.setK j v).k[i] = if i = j then v else s.k[i] := by
  simp only [State.setK_k, Fin.getElem_fin, Vector.getElem_set, Fin.ext_iff, eq_comm]

theorem succeeds_writeF (s : State) (n : Nibble) (v : W256) : WroteF n v s (s.writeF n v).succeed where
  status := ⟨rfl, rfl, rfl, rfl, rfl, rfl, rfl, rfl, ⟨rfl, rfl, rfl, rfl⟩⟩
  destination := by simp [← fIdx_val]
  others i h := by
    simpa [Fin.ext_iff, fIdx_val, h] using writeF_get s n v i
  pt := rfl
  flag := rfl

theorem succeeds_writeP (s : State) (n : Nibble) (v : Point) : WroteP n v s (s.writeP n v).succeed where
  status := ⟨rfl, rfl, rfl, rfl, rfl, rfl, rfl, rfl, ⟨rfl, rfl, rfl, rfl⟩⟩
  destination := by simp [← pIdx_val]
  others i h := by
    simpa [Fin.ext_iff, pIdx_val, h] using writeP_get s n v i
  f := rfl
  flag := rfl

theorem succeeds_writeT (s : State) (b : Bool) : WroteT b s (s.completeT b) where
  status := ⟨rfl, rfl, rfl, rfl, rfl, rfl, rfl, rfl, ⟨rfl, rfl, rfl, rfl⟩⟩
  flag := rfl
  f := rfl
  pt := rfl

theorem stickyBit_getLsbD (e : ErrorKind) (n : Nat) : e.stickyBit.getLsbD n = decide (n = e.code.toNat) := by
  by_cases h : n < 32
  · cases e <;> interval_cases n <;> rfl
  · have := e.code.isLt
    rw [BitVec.getLsbD_of_ge _ _ (by omega)]
    simp only [Bool.false_eq, decide_eq_false_iff_not]
    omega

theorem fail_failsExceptDiag (s : State) (e : ErrorKind) : FailsExceptDiag e.code.toNat s (s.fail e) where
  code := rfl
  lastcmd := rfl
  busy := rfl
  done := rfl
  stickySet := by simp [stickyBit_getLsbD]
  stickyElse n h := by simp [stickyBit_getLsbD, h]
  f := rfl
  pt := rfl
  k := rfl
  flag := rfl
  surroundings := ⟨rfl, rfl, rfl, rfl⟩

theorem fail_fails (s : State) (e : ErrorKind) : Fails e.code.toNat s (s.fail e) :=
  ⟨fail_failsExceptDiag s e, rfl, rfl⟩

theorem failNotOnCurve_fails (s : State) (l r : W256) : FailsExceptDiag 2 s (s.failNotOnCurve l r) :=
  let h := fail_failsExceptDiag { s with diagl := l, diagr := r } .notOnCurve
  ⟨h.code, h.lastcmd, h.busy, h.done, h.stickySet, h.stickyElse, h.f, h.pt, h.k, h.flag, ⟨rfl, rfl, rfl, rfl⟩⟩

theorem completeF_cases (s : State) (n : Nibble) (r : Except ErrorKind W256) :
    (∃ v, r = .ok v ∧ s.completeF n r = (s.writeF n v).succeed) ∨
      (∃ e, r = .error e ∧ s.completeF n r = s.fail e) := by
  cases r with
  | ok v => exact .inl ⟨v, rfl, rfl⟩
  | error e => exact .inr ⟨e, rfl, rfl⟩

theorem completeP_next {s t : State} {n : Nibble} {r : Except ErrorKind Point} (h : s.completeP n r = .next t) :
    ∃ Q, r = .ok Q ∧ t = (s.writeP n Q).succeed := by
  cases r with
  | ok Q => exact ⟨Q, rfl, by simpa [State.completeP, eq_comm] using h⟩
  | error e => simp [State.completeP] at h

/-- All a command's meaning can answer as a next state. -/
inductive Completion (i : Instr) (s : State) : State → Prop where
  | field (n : Nibble) (v : W256) (d : destF i = some n) : Completion i s (s.writeF n v).succeed
  | point (n : Nibble) (Q : Point) (d : destP i = some n) : Completion i s (s.writeP n Q).succeed
  | flag (b : Bool) (d : writesT i = true) : Completion i s (s.writeT b).succeed
  | error (e : ErrorKind) (d : e.code.toNat ∈ mayRaise i) (ne : e ≠ .notOnCurve) : Completion i s (s.fail e)
  | notOnCurve (l r : W256) (d : 2 ∈ mayRaise i) : Completion i s (s.failNotOnCurve l r)

theorem fieldNew_error {k : IntReg} {e : ErrorKind} (h : fieldNew k = .error e) : e = .outOfRange := by
  unfold fieldNew at h
  split at h
  · exact (Except.error.inj h).symm
  · split at h
    · exact (Except.error.inj h).symm
    · cases h

theorem finv_error {a : W256} {e : ErrorKind} (h : finv a = .error e) : a = 0#256 ∧ e = .divisionByZero := by
  unfold finv at h
  split at h
  · next h0 => exact ⟨h0, (Except.error.inj h).symm⟩
  · cases h

theorem fdiv_error {a b : W256} {e : ErrorKind} (h : fdiv a b = .error e) : b = 0#256 ∧ e = .divisionByZero := by
  unfold fdiv at h
  split at h
  · next hi => cases h; exact finv_error hi
  · cases h

theorem fpow_error {a : W256} {n : Int} {e : ErrorKind} (h : fpow a n = .error e) :
    a = 0#256 ∧ n < 0 ∧ e = .divisionByZero := by
  unfold fpow at h
  split at h
  · cases h
  · next hn =>
    split at h
    · next hi => cases h; exact ⟨(finv_error hi).1, by omega, (finv_error hi).2⟩
    · cases h

theorem pointX_error {P : Point} {e : ErrorKind} (h : pointX P = .error e) : P = .infinity ∧ e = .noCoordinates := by
  cases P <;> simp_all [pointX]

theorem pointY_error {P : Point} {e : ErrorKind} (h : pointY P = .error e) : P = .infinity ∧ e = .noCoordinates := by
  cases P <;> simp_all [pointY]

theorem completeF_completion {i : Instr} (s : State) {n : Nibble} {r : Except ErrorKind W256} (d : destF i = some n)
    (he : ∀ e, r = .error e → e.code.toNat ∈ mayRaise i ∧ e ≠ .notOnCurve) : Completion i s (s.completeF n r) := by
  obtain ⟨v, -, h⟩ | ⟨e, hr, h⟩ := completeF_cases s n r
  · exact h ▸ .field n v d
  · exact h ▸ .error e (he e hr).1 (he e hr).2

theorem completeP_completion {i : Instr} {s t : State} {n : Nibble} {r : Except ErrorKind Point}
    (d : destP i = some n) (h : s.completeP n r = .next t) : Completion i s t := by
  obtain ⟨Q, -, rfl⟩ := completeP_next h
  exact .point n Q d

theorem execPnew_completion {rd ra rb : Nibble} {hx hy : Bool} {s t : State}
    (h : execPnew rd ra rb hx hy s = .next t) : Completion (.pnew rd ra rb hx hy) s t := by
  unfold execPnew at h
  split at h
  · exact completeP_completion rfl h
  · split at h
    · exact completeP_completion rfl h
    · cases h; exact .notOnCurve _ _ (by simp [mayRaise])
  · cases h; exact .error .mismatchedCoordinates (by simp [mayRaise, ErrorKind.code]) (by decide)
  · cases h; exact .error .mismatchedCoordinates (by simp [mayRaise, ErrorKind.code]) (by decide)

/-- The inversion of `exec`: every next state it answers is one of the five completions. -/
theorem exec_completion {i : Instr} {s t : State} (h : exec i s = .next t) : Completion i s t := by
  cases i with
  | fnew rd ra =>
    cases h
    exact completeF_completion s rfl fun e he => by rw [fieldNew_error he]; simp [mayRaise, ErrorKind.code]
  | fzero rd => cases h; exact .field rd _ rfl
  | fone rd => cases h; exact .field rd _ rfl
  | fmov rd ra => cases h; exact .field rd _ rfl
  | feq ra rb => cases h; exact .flag _ rfl
  | fadd rd ra rb => cases h; exact .field rd _ rfl
  | fsub rd ra rb => cases h; exact .field rd _ rfl
  | fneg rd ra => cases h; exact .field rd _ rfl
  | fmul rd ra rb => cases h; exact .field rd _ rfl
  | fsmul rd ra rb => cases h; exact .field rd _ rfl
  | fpow rd ra rb =>
    cases h
    exact completeF_completion s rfl fun e he => by rw [(fpow_error he).2.2]; simp [mayRaise, ErrorKind.code]
  | finv rd ra =>
    cases h
    exact completeF_completion s rfl fun e he => by rw [(finv_error he).2]; simp [mayRaise, ErrorKind.code]
  | fdiv rd ra rb =>
    cases h
    exact completeF_completion s rfl fun e he => by rw [(fdiv_error he).2]; simp [mayRaise, ErrorKind.code]
  | pnew rd ra rb hx hy => exact execPnew_completion h
  | pldg rd => exact completeP_completion (r := .ok generator) rfl h
  | pmov rd ra => exact completeP_completion (r := .ok (s.readP ra)) rfl h
  | pisinf ra => cases h; exact .flag _ rfl
  | pgetx rd ra =>
    cases h
    exact completeF_completion s rfl fun e he => by rw [(pointX_error he).2]; simp [mayRaise, ErrorKind.code]
  | pgety rd ra =>
    cases h
    exact completeF_completion s rfl fun e he => by rw [(pointY_error he).2]; simp [mayRaise, ErrorKind.code]
  | peq ra rb => cases h; exact .flag _ rfl
  | pdbl rd ra => exact completeP_completion rfl h
  | padd rd ra rb => exact completeP_completion rfl h
  | pmul rd ra rb => exact completeP_completion rfl h

/-- The access part of a read: nothing, or one sticky bit. -/
theorem readEffect_cases (s : State) (ix : WordIndex) :
    s.readEffect ix = s ∨ s.readEffect ix = s.setSticky busyAccBit ∨ s.readEffect ix = s.setSticky badAccBit := by
  unfold State.readEffect
  split
  · exact .inr (.inl rfl)
  · split
    · exact .inr (.inr rfl)
    · exact .inl rfl

/-- The access part of a write: nothing, one sticky bit, the soft reset, a clear of sticky bits, an acceptance, or one
integer register while `BUSY = 0`. -/
theorem writeEffect_cases (s : State) (ix : WordIndex) (v : Word) :
    s.writeEffect ix v = s ∨ s.writeEffect ix v = s.setSticky busyAccBit ∨
      s.writeEffect ix v = s.setSticky badAccBit ∨ (s.writeEffect ix v = s.softReset ∧ v.getLsbD 0 = true) ∨
      s.writeEffect ix v = s.clearSticky v ∨ (s.busy = false ∧ s.writeEffect ix v = s.accept v) ∨
      (s.refuses ix = false ∧ ∃ i r, s.writeEffect ix v = s.setK i r) := by
  unfold State.writeEffect
  by_cases hr : s.refuses ix = true
  · simp [hr]
  · rw [if_neg hr]
    simp only [Bool.not_eq_true] at hr
    cases locate ix with
    | ctrl =>
      by_cases hv : v.getLsbD 0 = true
      · exact .inr (.inr (.inr (.inl ⟨if_pos hv, hv⟩)))
      · exact .inl (if_neg hv)
    | esticky => simp [State.writeLocation]
    | cmd => by_cases hb : s.busy = true <;> simp [State.writeLocation, State.writeCmd, hb]
    | kMag i j =>
      exact .inr (.inr (.inr (.inr (.inr (.inr ⟨hr, i, _, rfl⟩)))))
    | kSign i => exact .inr (.inr (.inr (.inr (.inr (.inr ⟨hr, i, _, rfl⟩)))))
    | _ => simp [State.writeLocation]

/-- The inversion of `step`: which agent moved. -/
theorem step_cases {s t : State} (h : step s = .next t) :
    (s.port = [] ∧ sequencerTurn s = .next t) ∨
      (∃ e rest, s.port = e :: rest ∧ performEvent e { s with port := rest } = .next t) := by
  unfold step performNext at h
  split at h
  · next hp => exact .inl ⟨hp, h⟩
  · next e rest hp => exact .inr ⟨e, rest, hp, h⟩

/-- Reset leaves every register at its reset value, whatever was before (R350). -/
theorem resetBlock_resetValues (s : State) : ResetValues s.resetBlock where
  f := (by decide +kernel : ∀ i : Fin 16, State.reset.f[i] = 0#256)
  pt := (by decide +kernel : ∀ i : Fin 8, State.reset.pt[i] = .infinity)
  k := (by decide +kernel : ∀ i : Fin 4, State.reset.k[i] = ⟨false, 0#256⟩)
  flag := rfl
  busy := rfl
  done := rfl
  code := rfl
  esticky := rfl
  lastcmd := rfl
  diagl := rfl
  diagr := rfl

/-- The inversion of the sequencer's turn. -/
theorem sequencerTurn_cases (s : State) :
    ((s.busy = false ∨ s.hreset = true) ∧ sequencerTurn s = .next s) ∨
      (s.busy = true ∧ s.hreset = false ∧ sequencerTurn s = completeStep s) := by
  unfold sequencerTurn
  cases s.busy <;> cases s.hreset <;> simp

/-- The inversion of `completeStep`. -/
theorem completeStep_cases (s : State) :
    (∃ i, decode s.cur = .command i ∧ completeStep s = exec i s) ∨
      (decode s.cur = .illegal ∧ completeStep s = .next s.completeIllegal) := by
  unfold completeStep
  cases decode s.cur with
  | command i => exact .inl ⟨i, rfl, rfl⟩
  | illegal => exact .inr ⟨rfl, rfl⟩

end Sys2Proof.Machine
end

