-- ==== Sys2Proof/Laws/PerInstr.lean ====
section
/-! SUPPORT. Statements about every command, one lemma per constructor: the word of a command carries the opcode of
its row of rule R104, and its bits 11:2 are zero. -/

namespace Sys2Proof

/-- The opcode column of rule R104. -/
def opcodeByte : Instr → BitVec 8
  | .fnew _ _ => 0x01#8
  | .fzero _ => 0x02#8
  | .fone _ => 0x03#8
  | .fmov _ _ => 0x04#8
  | .feq _ _ => 0x05#8
  | .fadd _ _ _ => 0x10#8
  | .fsub _ _ _ => 0x11#8
  | .fneg _ _ => 0x12#8
  | .fmul _ _ _ => 0x18#8
  | .fsmul _ _ _ => 0x19#8
  | .fpow _ _ _ => 0x20#8
  | .finv _ _ => 0x21#8
  | .fdiv _ _ _ => 0x22#8
  | .pnew _ _ _ _ _ => 0x40#8
  | .pldg _ => 0x41#8
  | .pmov _ _ => 0x42#8
  | .pisinf _ => 0x43#8
  | .pgetx _ _ => 0x44#8
  | .pgety _ _ => 0x45#8
  | .peq _ _ => 0x46#8
  | .pdbl _ _ => 0x50#8
  | .padd _ _ _ => 0x51#8
  | .pmul _ _ _ => 0x60#8

/-- The word carries the row's opcode and zeros in bits 11:2 (R101, R104). -/
def Laws.RowOpcode.Statement (i : Instr) : Prop :=
  opcodeOf (encode i) = opcodeByte i ∧ (encode i).extractLsb' 2 10 = 0#10

theorem rowOpcode_of_assemble {i : Instr} {rd ra rb : Nibble} {hx hy : Bool}
    (h : encode i = assemble (opcodeByte i) rd ra rb hx hy) : Laws.RowOpcode.Statement i :=
  ⟨h ▸ opcodeOf_assemble .., h ▸ reserved_assemble ..⟩

theorem Laws.RowOpcode.fnew (rd ra : Nibble) :
    Laws.RowOpcode.Statement (.fnew rd ra) := rowOpcode_of_assemble rfl

theorem Laws.RowOpcode.fzero (rd : Nibble) :
    Laws.RowOpcode.Statement (.fzero rd) := rowOpcode_of_assemble rfl

theorem Laws.RowOpcode.fone (rd : Nibble) :
    Laws.RowOpcode.Statement (.fone rd) := rowOpcode_of_assemble rfl

theorem Laws.RowOpcode.fmov (rd ra : Nibble) :
    Laws.RowOpcode.Statement (.fmov rd ra) := rowOpcode_of_assemble rfl

theorem Laws.RowOpcode.feq (ra rb : Nibble) :
    Laws.RowOpcode.Statement (.feq ra rb) := rowOpcode_of_assemble rfl

theorem Laws.RowOpcode.fadd (rd ra rb : Nibble) :
    Laws.RowOpcode.Statement (.fadd rd ra rb) := rowOpcode_of_assemble rfl

theorem Laws.RowOpcode.fsub (rd ra rb : Nibble) :
    Laws.RowOpcode.Statement (.fsub rd ra rb) := rowOpcode_of_assemble rfl

theorem Laws.RowOpcode.fneg (rd ra : Nibble) :
    Laws.RowOpcode.Statement (.fneg rd ra) := rowOpcode_of_assemble rfl

theorem Laws.RowOpcode.fmul (rd ra rb : Nibble) :
    Laws.RowOpcode.Statement (.fmul rd ra rb) := rowOpcode_of_assemble rfl

theorem Laws.RowOpcode.fsmul (rd ra rb : Nibble) :
    Laws.RowOpcode.Statement (.fsmul rd ra rb) := rowOpcode_of_assemble rfl

theorem Laws.RowOpcode.fpow (rd ra rb : Nibble) :
    Laws.RowOpcode.Statement (.fpow rd ra rb) := rowOpcode_of_assemble rfl

theorem Laws.RowOpcode.finv (rd ra : Nibble) :
    Laws.RowOpcode.Statement (.finv rd ra) := rowOpcode_of_assemble rfl

theorem Laws.RowOpcode.fdiv (rd ra rb : Nibble) :
    Laws.RowOpcode.Statement (.fdiv rd ra rb) := rowOpcode_of_assemble rfl

theorem Laws.RowOpcode.pnew (rd ra rb : Nibble) (hx hy : Bool) :
    Laws.RowOpcode.Statement (.pnew rd ra rb hx hy) := rowOpcode_of_assemble rfl

theorem Laws.RowOpcode.pldg (rd : Nibble) :
    Laws.RowOpcode.Statement (.pldg rd) := rowOpcode_of_assemble rfl

theorem Laws.RowOpcode.pmov (rd ra : Nibble) :
    Laws.RowOpcode.Statement (.pmov rd ra) := rowOpcode_of_assemble rfl

theorem Laws.RowOpcode.pisinf (ra : Nibble) :
    Laws.RowOpcode.Statement (.pisinf ra) := rowOpcode_of_assemble rfl

theorem Laws.RowOpcode.pgetx (rd ra : Nibble) :
    Laws.RowOpcode.Statement (.pgetx rd ra) := rowOpcode_of_assemble rfl

theorem Laws.RowOpcode.pgety (rd ra : Nibble) :
    Laws.RowOpcode.Statement (.pgety rd ra) := rowOpcode_of_assemble rfl

theorem Laws.RowOpcode.peq (ra rb : Nibble) :
    Laws.RowOpcode.Statement (.peq ra rb) := rowOpcode_of_assemble rfl

theorem Laws.RowOpcode.pdbl (rd ra : Nibble) :
    Laws.RowOpcode.Statement (.pdbl rd ra) := rowOpcode_of_assemble rfl

theorem Laws.RowOpcode.padd (rd ra rb : Nibble) :
    Laws.RowOpcode.Statement (.padd rd ra rb) := rowOpcode_of_assemble rfl

theorem Laws.RowOpcode.pmul (rd ra rb : Nibble) :
    Laws.RowOpcode.Statement (.pmul rd ra rb) := rowOpcode_of_assemble rfl

end Sys2Proof
end

