-- ==== Sys2Proof/Laws/Window.lean ====
section
/-! SUPPORT. The words of a 256-bit value (R63, R69), the locations of the register files in the map (R62), and what a
host transaction at the head of the port makes the step answer. -/

namespace Sys2Proof.Machine

/-- Word `j` as the rule writes it: `v[32j+31 : 32j]` (R63). -/
theorem wordOf_toNat (v : W256) (j : Fin 8) : (wordOf v j).toNat = v.toNat / 2 ^ (32 * j.val) % 2 ^ 32 := by
  simp [wordOf, Nat.shiftRight_eq_div_pow]

theorem lowWord_getLsbD (m : Nat) : (0xFFFFFFFF#256).getLsbD m = decide (m < 32) := by
  rw [show (0xFFFFFFFF#256) = (BitVec.allOnes 32).setWidth 256 by decide]
  simp only [BitVec.getLsbD_setWidth, BitVec.getLsbD_allOnes]
  by_cases h : m < 32
  · rw [decide_eq_true h, decide_eq_true (by omega)]; rfl
  · rw [decide_eq_false h, Bool.and_false]

/-- Replacing word `j` leaves the other words (R69). -/
theorem wordOf_setWordOf (v : W256) (j n : Fin 8) (w : Word) :
    wordOf (setWordOf v j w) n = if n = j then w else wordOf v n := by
  apply BitVec.eq_of_getLsbD_eq
  intro i hi
  have hj := j.isLt
  have hn := n.isLt
  have hlt : 32 * n.val + i < 256 := by omega
  simp only [wordOf, setWordOf, BitVec.getLsbD_extractLsb', hi, hlt, decide_true, Bool.true_and, BitVec.getLsbD_or,
    BitVec.getLsbD_and, BitVec.getLsbD_not, BitVec.getLsbD_shiftLeft, BitVec.getLsbD_setWidth, lowWord_getLsbD]
  split
  · next e =>
    subst e
    simp [hi, show i < 256 by omega]
  · next e =>
    have hne : n.val ≠ j.val := fun e' => e (Fin.ext e')
    rcases Nat.lt_or_gt_of_ne hne with h | h
    · simp [hi, hlt, show 32 * n.val + i < 32 * j.val by omega]
    · have h1 : ¬32 * n.val + i < 32 * j.val := by omega
      have h2 : ¬32 * n.val + i - 32 * j.val < 32 := by omega
      have h3 : w.getLsbD (32 * n.val + i - 32 * j.val) = false := BitVec.getLsbD_of_ge _ _ (by omega)
      simp [hi, hlt, h1, h2, h3]

theorem locate_kMag : ∀ (i : Fin 4) (j : Fin 8), locate (indexOf (0x100 + 0x40 * i.val + 4 * j.val)) = .kMag i j := by
  decide +kernel

theorem locate_kSign : ∀ i : Fin 4, locate (indexOf (0x100 + 0x40 * i.val + 0x20)) = .kSign i := by decide +kernel

theorem locate_fWord : ∀ (i : Fin 16) (j : Fin 8), locate (indexOf (0x200 + 0x20 * i.val + 4 * j.val)) = .fWord i j := by
  decide +kernel

theorem locate_pX : ∀ (i j : Fin 8), locate (indexOf (0x400 + 0x80 * i.val + 4 * j.val)) = .pX i j := by
  decide +kernel

theorem locate_pY : ∀ (i j : Fin 8), locate (indexOf (0x400 + 0x80 * i.val + 0x20 + 4 * j.val)) = .pY i j := by
  decide +kernel

theorem locate_pTag : ∀ i : Fin 8, locate (indexOf (0x400 + 0x80 * i.val + 0x40)) = .pTag i := by decide +kernel

/-- The only offset whose location is `CMD` (R62). -/
theorem locate_cmd : ∀ ix : WordIndex, locate ix = .cmd → ix = indexOf 0x01C := by decide +kernel

/-- The locations of the control block (R62). -/
theorem locate_control : ∀ ix : WordIndex, ix.off < 0x020 →
    locate ix ∈ [.id, .version, .ctrl, .status, .result, .esticky, .lastcmd, .cmd] := by decide +kernel

/-- A read leaves `BUSY` as it is. -/
theorem readEffect_busy (s : State) (ix : WordIndex) : (s.readEffect ix).busy = s.busy := by
  rcases readEffect_cases s ix with h | h | h <;> rw [h] <;> rfl

/-- Only a write to `CMD` raises `BUSY` (R47). -/
theorem writeEffect_busy {s : State} {ix : WordIndex} {v : Word} (hb : s.busy = false) (hi : ix ≠ indexOf 0x01C) :
    (s.writeEffect ix v).busy = false := by
  have hc : locate ix ≠ .cmd := fun e => hi (locate_cmd ix e)
  unfold State.writeEffect
  split
  · exact hb
  · cases h : locate ix with
    | cmd => exact absurd h hc
    | ctrl =>
      show (if v.getLsbD 0 = true then s.softReset else s).busy = false
      split
      · rfl
      · exact hb
    | _ => simpa [State.writeLocation] using hb

/-- A read at the head of the port, the reset line released. -/
theorem step_of_read {s : State} {ix : WordIndex} {rest : List Event} (hh : s.hreset = false)
    (hp : s.port = .read ix :: rest) :
    step s = .next { ({ s with port := rest } : State).readEffect ix with
      reply := .data (({ s with port := rest } : State).readWord ix) } := by
  simp [step, performNext, hp, performEvent, State.hostRead, hh]

/-- A write at the head of the port, the reset line released. -/
theorem step_of_write {s : State} {ix : WordIndex} {v : Word} {rest : List Event} (hh : s.hreset = false)
    (hp : s.port = .write ix v :: rest) :
    step s = .next { ({ s with port := rest } : State).writeEffect ix v with reply := .written } := by
  simp [step, performNext, hp, performEvent, State.hostWrite, hh]

end Sys2Proof.Machine
end

