-- ==== Sys2Proof/Tests/Slice0.lean ====
section
/-! SUPPORT. The model's own tests: the checks of WellFormed, decoding by the spec's words, one step per instruction
with the spec's vectors as expected results, the host port, reset, and for every statement with hypotheses a witness
that meets them. Expected values are those of 95_test_vectors.md, named by V number, or of the rule named. -/

namespace Sys2Proof.Tests

open Sys2Proof Sys2Proof.Machine
open Sys2Proof.Config (p N)

set_option Elab.async false

/-! ## Helpers -/

/-- An outcome that is a next state with a decidable property. -/
theorem next_of {o : Host.Outcome State Fault Refusal} {P : State → Prop} [DecidablePred P]
    (h : (match o with
      | .next t => decide (P t)
      | _ => false) = true) : ∃ t, o = .next t ∧ P t := by
  cases o with
  | next t => exact ⟨t, rfl, of_decide_eq_true h⟩
  | fault _ => exact absurd h Bool.false_ne_true
  | refused _ => exact absurd h Bool.false_ne_true

/-- `A` of 95_test_vectors.md. -/
def vA : W256 := 0x0123456789abcdef0123456789abcdef0123456789abcdef0123456789abcdef#256

/-- `B` of 95_test_vectors.md. -/
def vB : W256 := 0xfedcba9876543210fedcba9876543210fedcba9876543210fedcba9876543210#256

/-- The point `Q` of 95_test_vectors.md. -/
def vQ : Point := .coordinates 1#256 0x4218f20ae6c646b363db68605822fb14264ca8d2587fdd6fbc750d587e76a7ee#256

/-- `2G` (V2). -/
def v2G : Point := .coordinates
  0xc6047f9441ed7d6d3045406e95c07cd85c778e4b8cef3ca7abac09b95c709ee5#256
  0x1ae168fea63dc339a3c58419466ceaeef7f632653266d0e1236431a950cfe52a#256

/-- `3G` (V3). -/
def v3G : Point := .coordinates
  0xf9308a019258c31049344f85f89d5229b531c845836f99b08601f113bce036f9#256
  0x388f7b0f632de8140fe337e62a37f3566500a99934c2231b6cb9fd7584b8e672#256

/-- `-G` (V7). -/
def vNegG : Point := .coordinates Config.Gx
  0xb7c52588d95c3b9aa25b0403f1eef75702e84bb7597aabe663b82f6f04ef2777#256

/-- `p - 1`, the greatest canonical value. -/
def pMinus1 : W256 := BitVec.ofNat 256 (p - 1)

/-- The reset state with a field register set. -/
def withF (i : Fin 16) (v : W256) (s : State := State.reset) : State := { s with f := s.f.set i.val v i.isLt }

/-- The reset state with a point register set. -/
def withP (i : Fin 8) (v : Point) (s : State := State.reset) : State := { s with pt := s.pt.set i.val v i.isLt }

/-- The reset state with an integer register set. -/
def withK (i : Fin 4) (sign : Bool) (mag : W256) (s : State := State.reset) : State := s.setK i ⟨sign, mag⟩

/-- The step that completes the command word `w`. -/
def complete (w : Nat) (s : State) : Host.Outcome State Fault Refusal := step (s.withFetchWord 32 w)

/-- The step of one port event. -/
def onEvent (e : Event) (s : State) : Host.Outcome State Fault Refusal := step { s with port := [e] }

/-! ## WellFormed: an ill-formed term for each check -/

/-- Bits 2 and 3 of a nibble that names a K register, in every position (R102). -/
theorem test_wellFormed_k :
    (.fnew 0 4 : Instr).wellFormed = false ∧
    (.fnew 0 8 : Instr).wellFormed = false ∧
    (.fsmul 0 4 0 : Instr).wellFormed = false ∧
    (.fsmul 0 8 0 : Instr).wellFormed = false ∧
    (.fpow 0 0 4 : Instr).wellFormed = false ∧
    (.fpow 0 0 8 : Instr).wellFormed = false ∧
    (.pmul 0 0 4 : Instr).wellFormed = false ∧
    (.pmul 0 0 8 : Instr).wellFormed = false := by decide

/-- Bit 3 of a nibble that names a P register, in every position (R102). -/
theorem test_wellFormed_p_one :
    (.pnew 8 0 0 true true : Instr).wellFormed = false ∧
    (.pldg 8 : Instr).wellFormed = false ∧
    (.pisinf 8 : Instr).wellFormed = false ∧
    (.pgetx 0 8 : Instr).wellFormed = false ∧
    (.pgety 0 8 : Instr).wellFormed = false ∧
    (.pmov 8 0 : Instr).wellFormed = false ∧
    (.pmov 0 8 : Instr).wellFormed = false ∧
    (.peq 8 0 : Instr).wellFormed = false ∧
    (.peq 0 8 : Instr).wellFormed = false := by decide

theorem test_wellFormed_p_units :
    (.pdbl 8 0 : Instr).wellFormed = false ∧
    (.pdbl 0 8 : Instr).wellFormed = false ∧
    (.padd 8 0 0 : Instr).wellFormed = false ∧
    (.padd 0 8 0 : Instr).wellFormed = false ∧
    (.padd 0 0 8 : Instr).wellFormed = false ∧
    (.pmul 8 0 0 : Instr).wellFormed = false ∧
    (.pmul 0 8 0 : Instr).wellFormed = false := by decide

/-- The greatest index of every class is well-formed (R102). -/
theorem test_wellFormed_bounds :
    (.fnew 15 3 : Instr).wellFormed = true ∧
    (.feq 15 15 : Instr).wellFormed = true ∧
    (.fsmul 15 3 15 : Instr).wellFormed = true ∧
    (.fpow 15 15 3 : Instr).wellFormed = true ∧
    (.pnew 7 15 15 true true : Instr).wellFormed = true ∧
    (.pgetx 15 7 : Instr).wellFormed = true ∧
    (.pgety 15 7 : Instr).wellFormed = true ∧
    (.padd 7 7 7 : Instr).wellFormed = true ∧
    (.pmul 7 7 3 : Instr).wellFormed = true := by decide

/-! ## Decoding: the spec's words -/

/-- V26, V161. -/
theorem test_decode_fnew :
    decode 0x01F30000#32 = .command (.fnew 15 3) ∧ encode (.fnew 15 3) = 0x01F30000#32 :=
  by decide

/-- V27. -/
theorem test_decode_fzero :
    decode 0x02300000#32 = .command (.fzero 3) ∧ encode (.fzero 3) = 0x02300000#32 :=
  by decide

/-- V28. -/
theorem test_decode_fone : decode 0x03300000#32 = .command (.fone 3) ∧ encode (.fone 3) = 0x03300000#32 := by decide

/-- V29. -/
theorem test_decode_fmov :
    decode 0x04210000#32 = .command (.fmov 2 1) ∧ encode (.fmov 2 1) = 0x04210000#32 :=
  by decide

/-- V30. -/
theorem test_decode_feq : decode 0x05012000#32 = .command (.feq 1 2) ∧ encode (.feq 1 2) = 0x05012000#32 := by decide

/-- V160. -/
theorem test_decode_fadd :
    decode 0x10123000#32 = .command (.fadd 1 2 3) ∧ encode (.fadd 1 2 3) = 0x10123000#32 :=
  by decide

/-- 2.2. -/
theorem test_decode_fsub :
    decode 0x11123000#32 = .command (.fsub 1 2 3) ∧ encode (.fsub 1 2 3) = 0x11123000#32 :=
  by decide

/-- 2.2. -/
theorem test_decode_fneg :
    decode 0x12120000#32 = .command (.fneg 1 2) ∧ encode (.fneg 1 2) = 0x12120000#32 :=
  by decide

/-- 2.3. -/
theorem test_decode_fmul :
    decode 0x18123000#32 = .command (.fmul 1 2 3) ∧ encode (.fmul 1 2 3) = 0x18123000#32 :=
  by decide

/-- V166. -/
theorem test_decode_fsmul :
    decode 0x19230000#32 = .command (.fsmul 2 3 0) ∧ encode (.fsmul 2 3 0) = 0x19230000#32 :=
  by decide

/-- 2.4. -/
theorem test_decode_fpow :
    decode 0x20201000#32 = .command (.fpow 2 0 1) ∧ encode (.fpow 2 0 1) = 0x20201000#32 :=
  by decide

/-- 2.4. -/
theorem test_decode_finv :
    decode 0x21100000#32 = .command (.finv 1 0) ∧ encode (.finv 1 0) = 0x21100000#32 :=
  by decide

/-- Program 2. -/
theorem test_decode_fdiv :
    decode 0x22605000#32 = .command (.fdiv 6 0 5) ∧ encode (.fdiv 6 0 5) = 0x22605000#32 :=
  by decide

/-- V162. -/
theorem test_decode_pnew :
    decode 0x40123003#32 = .command (.pnew 1 2 3 true true) ∧ encode (.pnew 1 2 3 true true) = 0x40123003#32 :=
  by decide

/-- V98. -/
theorem test_decode_pldg : decode 0x41000000#32 = .command (.pldg 0) ∧ encode (.pldg 0) = 0x41000000#32 := by decide

/-- V99. -/
theorem test_decode_pmov :
    decode 0x42500000#32 = .command (.pmov 5 0) ∧ encode (.pmov 5 0) = 0x42500000#32 :=
  by decide

/-- V100. -/
theorem test_decode_pisinf :
    decode 0x43030000#32 = .command (.pisinf 3) ∧ encode (.pisinf 3) = 0x43030000#32 :=
  by decide

/-- Program 3. -/
theorem test_decode_pgetx :
    decode 0x44340000#32 = .command (.pgetx 3 4) ∧ encode (.pgetx 3 4) = 0x44340000#32 :=
  by decide

/-- V103. -/
theorem test_decode_pgety :
    decode 0x45110000#32 = .command (.pgety 1 1) ∧ encode (.pgety 1 1) = 0x45110000#32 :=
  by decide

/-- V105. -/
theorem test_decode_peq : decode 0x46012000#32 = .command (.peq 1 2) ∧ encode (.peq 1 2) = 0x46012000#32 := by decide

/-- 2.6. -/
theorem test_decode_pdbl :
    decode 0x50100000#32 = .command (.pdbl 1 0) ∧ encode (.pdbl 1 0) = 0x50100000#32 :=
  by decide

/-- 2.6. -/
theorem test_decode_padd :
    decode 0x51201000#32 = .command (.padd 2 0 1) ∧ encode (.padd 2 0 1) = 0x51201000#32 :=
  by decide

/-- V165. -/
theorem test_decode_pmul :
    decode 0x60773000#32 = .command (.pmul 7 7 3) ∧ encode (.pmul 7 7 3) = 0x60773000#32 :=
  by decide

/-- V163, V164, V94. -/
theorem test_decode_pnew_presence :
    decode 0x40123000#32 = .command (.pnew 1 2 3 false false) ∧
    decode 0x40780001#32 = .command (.pnew 7 8 0 false true) ∧
    decode 0x40120002#32 = .command (.pnew 1 2 0 true false) := by decide

/-- V167 to V174. -/
theorem test_decode_illegal :
    decode 0x00000000#32 = .illegal ∧
    decode 0xFFFFFFFF#32 = .illegal ∧
    decode 0x10123001#32 = .illegal ∧
    decode 0x10123004#32 = .illegal ∧
    decode 0x40123803#32 = .illegal ∧
    decode 0x51800000#32 = .illegal ∧
    decode 0x40900003#32 = .illegal ∧
    decode 0x01040000#32 = .illegal := by decide

/-- V175 to V182. -/
theorem test_decode_illegal_more :
    decode 0x60004000#32 = .illegal ∧
    decode 0x02010000#32 = .illegal ∧
    decode 0x05100000#32 = .illegal ∧
    decode 0x43100000#32 = .illegal ∧
    decode 0x06000000#32 = .illegal ∧
    decode 0x13000000#32 = .illegal ∧
    decode 0x52000000#32 = .illegal ∧
    decode 0x61000000#32 = .illegal := by decide

/-- The decoder on a table word (V160, V175). -/
theorem test_decodeTableWord :
    decodeTableWord 32 0x10123000 = some (.fadd 1 2 3) ∧
    decodeTableWord 32 0x60004000 = none := by decide

/-! ## One step per instruction -/

/-- V22. -/
theorem test_fnew_bound :
    ∃ t, complete 0x01000000 (withK 0 false pMinus1) = .next t ∧ t.f[0] = pMinus1 ∧ t.code = 0#4 :=
  next_of (by decide +kernel)

/-- V24: `-1` is out of range; the destination keeps its value. -/
theorem test_fnew_minus_one :
    ∃ t, complete 0x01000000 (withK 0 true 1#256 (withF 0 vA)) = .next t ∧
      t.f[0] = vA ∧ t.code = 1#4 ∧ t.esticky = 0x002#32 :=
  next_of (by decide +kernel)

/-- V27. -/
theorem test_fzero : ∃ t, complete 0x02300000 (withF 3 vA) = .next t ∧ t.f[3] = 0#256 := next_of (by decide +kernel)

/-- V28. -/
theorem test_fone : ∃ t, complete 0x03300000 (withF 3 vA) = .next t ∧ t.f[3] = 1#256 := next_of (by decide +kernel)

/-- V29. -/
theorem test_fmov :
    ∃ t, complete 0x04210000 (withF 1 vA (withF 2 vB)) = .next t ∧ t.f[2] = vA ∧ t.f[1] = vA :=
  next_of (by decide +kernel)

/-- V30. -/
theorem test_feq_equal :
    ∃ t, complete 0x05012000 (withF 1 vA (withF 2 vA)) = .next t ∧ t.t = true :=
  next_of (by decide +kernel)

/-- V31. -/
theorem test_feq_differs :
    ∃ t, complete 0x05012000 (withF 1 vA (withF 2 vB { State.reset with t := true })) = .next t ∧ t.t = false :=
  next_of (by decide +kernel)

/-- V34: the raw sum needs 257 bits. -/
theorem test_fadd_carry :
    ∃ t, complete 0x10123000 (withF 2 pMinus1 (withF 3 pMinus1)) = .next t ∧ t.f[1] = BitVec.ofNat 256 (p - 2) :=
  next_of (by decide +kernel)

/-- 2.2: the destination is both sources. -/
theorem test_fadd_in_place :
    ∃ t, complete 0x10222000 (withF 2 vA) = .next t ∧
      t.f[2] = 0x02468acf13579bde02468acf13579bde02468acf13579bde02468acf13579bde#256 :=
  next_of (by decide +kernel)

/-- V37. -/
theorem test_fsub_borrow :
    ∃ t, complete 0x11123000 (withF 2 vA (withF 3 vB)) = .next t ∧
      t.f[1] = 0x02468acf13579bde02468acf13579bde02468acf13579bde02468ace1357980e#256 :=
  next_of (by decide +kernel)

/-- V38. -/
theorem test_fsub_order :
    ∃ t, complete 0x11123000 (withF 2 vB (withF 3 vA)) = .next t ∧
      t.f[1] = 0xfdb97530eca86421fdb97530eca86421fdb97530eca86421fdb97530eca86421#256 :=
  next_of (by decide +kernel)

/-- V42: `0`, not `p`. -/
theorem test_fneg_zero :
    ∃ t, complete 0x12120000 (withF 1 vA) = .next t ∧ t.f[1] = 0#256 :=
  next_of (by decide +kernel)

/-- V44. -/
theorem test_fneg :
    ∃ t, complete 0x12120000 (withF 2 vA) = .next t ∧
      t.f[1] = 0xfedcba9876543210fedcba9876543210fedcba9876543210fedcba9776542e40#256 :=
  next_of (by decide +kernel)

/-- V46. -/
theorem test_fmul :
    ∃ t, complete 0x18123000 (withF 2 vA (withF 3 vB)) = .next t ∧
      t.f[1] = 0x8c644419c8c50984e1e06f7bc8ebdb3c375c9addc912acf38dfac0488d5f655d#256 :=
  next_of (by decide +kernel)

/-- V47. -/
theorem test_fmul_squares_minus_one :
    ∃ t, complete 0x18123000 (withF 2 pMinus1 (withF 3 pMinus1)) = .next t ∧ t.f[1] = 1#256 :=
  next_of (by decide +kernel)

/-- V54: the remainder is floored. -/
theorem test_fsmul_negative :
    ∃ t, complete 0x19210000 (withK 1 true 3#256 (withF 0 5#256)) = .next t ∧ t.f[2] = BitVec.ofNat 256 (p - 15) :=
  next_of (by decide +kernel)

/-- V55. -/
theorem test_fsmul_wide :
    ∃ t, complete 0x19210000 (withK 1 false (BitVec.ofNat 256 (2 ^ 256 - 1)) (withF 0 pMinus1)) = .next t ∧
      t.f[2] = 0xfffffffffffffffffffffffffffffffffffffffffffffffffffffffdfffff85f#256 :=
  next_of (by decide +kernel)

/-- V71: the exponent is reduced first, so `fpow(0, p - 1) = 1`. -/
theorem test_fpow_zero_base :
    ∃ t, complete 0x20201000 (withK 1 false pMinus1) = .next t ∧ t.f[2] = 1#256 :=
  next_of (by decide +kernel)

/-- V77. -/
theorem test_fpow_negative :
    ∃ t, complete 0x20201000 (withK 1 true 2#256 (withF 0 3#256)) = .next t ∧
      t.f[2] = 0x8e38e38e38e38e38e38e38e38e38e38e38e38e38e38e38e38e38e38daaaaa88c#256 :=
  next_of (by decide +kernel)

/-- V61. -/
theorem test_finv :
    ∃ t, complete 0x21100000 (withF 0 vA) = .next t ∧
      t.f[1] = 0xf37164d6ff61ed527289824f2aac8343ca55b3c9eeabe44cd6379acbc0ba895d#256 :=
  next_of (by decide +kernel)

/-- V65. -/
theorem test_finv_zero :
    ∃ t, complete 0x21100000 (withF 1 vA) = .next t ∧ t.f[1] = vA ∧ t.code = 4#4 ∧ t.lastcmd = 0x21100000#32 :=
  next_of (by decide +kernel)

/-- V66. -/
theorem test_fdiv :
    ∃ t, complete 0x22605000 (withF 0 vA (withF 5 vB)) = .next t ∧
      t.f[6] = 0x8d9648df98eb2dfa9950b1a6e2caa1498755aa2aefccf47abf79e18eaa6d5a69#256 :=
  next_of (by decide +kernel)

/-- Program 2. -/
theorem test_fdiv_by_zero :
    ∃ t, complete 0x22605000 (withF 0 vA) = .next t ∧ t.code = 4#4 ∧ t.esticky = 0x010#32 ∧ t.f[6] = 0#256 :=
  next_of (by decide +kernel)

/-- V92. -/
theorem test_pnew_not_on_curve :
    ∃ t, complete 0x40123003 (withF 2 1#256 (withF 3 2#256 (withP 1 generator))) = .next t ∧
      t.code = 2#4 ∧ t.diagl = 4#256 ∧ t.diagr = 8#256 ∧ t.pt[1] = generator :=
  next_of (by decide +kernel)

/-- V96. -/
theorem test_pnew_on_curve :
    ∃ t, complete 0x40723003 (withF 2 1#256 (withF 3 0x4218f20ae6c646b363db68605822fb14264ca8d2587fdd6fbc750d587e76a7ee#256)) = .next t ∧
      t.code = 0#4 ∧ t.pt[7] = vQ :=
  next_of (by decide +kernel)

/-- V98. -/
theorem test_pldg :
    ∃ t, complete 0x41000000 (State.reset) = .next t ∧ t.pt[0] = generator :=
  next_of (by decide +kernel)

/-- V99. -/
theorem test_pmov :
    ∃ t, complete 0x42500000 (withP 0 generator) = .next t ∧ t.pt[5] = generator :=
  next_of (by decide +kernel)

/-- V100. -/
theorem test_pisinf_infinity :
    ∃ t, complete 0x43030000 (State.reset) = .next t ∧ t.t = true :=
  next_of (by decide +kernel)

/-- V101. -/
theorem test_pisinf_point :
    ∃ t, complete 0x43030000 (withP 3 generator { State.reset with t := true }) = .next t ∧ t.t = false :=
  next_of (by decide +kernel)

/-- V102. -/
theorem test_pgetx :
    ∃ t, complete 0x44010000 (withP 1 generator) = .next t ∧
      t.f[0] = 0x79be667ef9dcbbac55a06295ce870b07029bfcdb2dce28d959f2815b16f81798#256 :=
  next_of (by decide +kernel)

/-- V104. -/
theorem test_pgetx_infinity :
    ∃ t, complete 0x44010000 (withF 0 vA) = .next t ∧ t.f[0] = vA ∧ t.code = 6#4 ∧ t.esticky = 0x040#32 :=
  next_of (by decide +kernel)

/-- V103. -/
theorem test_pgety :
    ∃ t, complete 0x45110000 (withP 1 generator) = .next t ∧
      t.f[1] = 0x483ada7726a3c4655da4fbfc0e1108a8fd17b448a68554199c47d08ffb10d4b8#256 :=
  next_of (by decide +kernel)

/-- Program 4. -/
theorem test_pgety_infinity :
    ∃ t, complete 0x45400000 (State.reset) = .next t ∧ t.code = 6#4 ∧ t.f[4] = 0#256 :=
  next_of (by decide +kernel)

/-- V106: same `x`, different `y`. -/
theorem test_peq_negative :
    ∃ t, complete 0x46012000 (withP 1 generator (withP 2 vNegG { State.reset with t := true })) = .next t ∧
      t.t = false :=
  next_of (by decide +kernel)

/-- V107. -/
theorem test_peq_infinity :
    ∃ t, complete 0x46012000 (State.reset) = .next t ∧ t.t = true :=
  next_of (by decide +kernel)

/-- V120. -/
theorem test_pdbl :
    ∃ t, complete 0x50100000 (withP 0 generator) = .next t ∧ t.pt[1] = v2G :=
  next_of (by decide +kernel)

/-- V123. -/
theorem test_pdbl_infinity :
    ∃ t, complete 0x50100000 (withP 1 generator) = .next t ∧ t.pt[1] = .infinity :=
  next_of (by decide +kernel)

/-- V124. -/
theorem test_padd_distinct :
    ∃ t, complete 0x51201000 (withP 0 generator (withP 1 v2G)) = .next t ∧ t.pt[2] = v3G :=
  next_of (by decide +kernel)

/-- V127. -/
theorem test_padd_opposite :
    ∃ t, complete 0x51201000 (withP 0 generator (withP 1 vNegG)) = .next t ∧ t.pt[2] = .infinity ∧ t.code = 0#4 :=
  next_of (by decide +kernel)

/-- V143. -/
theorem test_pmul_three :
    ∃ t, complete 0x60100000 (withP 0 generator (withK 0 false 3#256)) = .next t ∧ t.pt[1] = v3G :=
  next_of (by decide +kernel)

/-- V142: the scalar is reduced modulo `N`. -/
theorem test_pmul_order :
    ∃ t, complete 0x60100000 (withP 0 generator (withK 0 false (BitVec.ofNat 256 (N + 2)))) = .next t ∧
      t.pt[1] = v2G :=
  next_of (by decide +kernel)

/-- V169, R317. -/
theorem test_illegal_word :
    ∃ t, complete 0x10123001 (withF 2 vA) = .next t ∧
      t.code = 5#4 ∧ t.esticky = 0x020#32 ∧ t.lastcmd = 0x10123001#32 ∧ t.f[1] = 0#256 :=
  next_of (by decide +kernel)

/-! ## The host port and reset -/

/-- V200. -/
theorem test_read_id :
    ∃ t, onEvent (rd 0x000) (State.reset) = .next t ∧ t.reply = .data 0x4B323536#32 :=
  next_of (by decide +kernel)

/-- V201: word 0 is the least significant. -/
theorem test_read_constP_low :
    ∃ t, onEvent (rd 0x800) (State.reset) = .next t ∧ t.reply = .data 0xFFFFFC2F#32 :=
  next_of (by decide +kernel)

/-- V202. -/
theorem test_read_constGx_high :
    ∃ t, onEvent (rd 0x85C) (State.reset) = .next t ∧ t.reply = .data 0x79BE667E#32 :=
  next_of (by decide +kernel)

/-- V204. -/
theorem test_read_tag_after_reset :
    ∃ t, onEvent (rd 0x440) (State.reset) = .next t ∧ t.reply = .data 1#32 :=
  next_of (by decide +kernel)

/-- V205. -/
theorem test_write_kMag :
    ∃ t, onEvent (wr 0x104 0x01234567#32) (withK 0 false 0x89ABCDEF#256) = .next t ∧
      t.k[0] = ⟨false, 0x0123456789abcdef#256⟩ :=
  next_of (by decide +kernel)

/-- V206. -/
theorem test_write_kSign :
    ∃ t, onEvent (wr 0x120 0xFFFFFFFF#32) (withK 0 false 0x0123456789abcdef#256) = .next t ∧
      t.k[0] = ⟨true, 0x0123456789abcdef#256⟩ :=
  next_of (by decide +kernel)

/-- V208. -/
theorem test_write_readOnly :
    ∃ t, onEvent (wr 0x200 5#32) (State.reset) = .next t ∧ t.esticky = 0x200#32 ∧ t.f[0] = 0#256 :=
  next_of (by decide +kernel)

/-- V211. -/
theorem test_read_unmapped :
    ∃ t, onEvent (rd 0x124) (State.reset) = .next t ∧ t.reply = .data 0#32 ∧ t.esticky = 0x200#32 :=
  next_of (by decide +kernel)

/-- V212. -/
theorem test_accept :
    ∃ t, onEvent (wr 0x01C 0x01100000#32) ({ State.reset with done := true }) = .next t ∧
      t.statusWord = 0x1#32 ∧ t.f[1] = 0#256 :=
  next_of (by decide +kernel)

/-- V216: busy comes before unmapped. -/
theorem test_read_while_busy :
    ∃ t, onEvent (rd 0x0F0) ({ withF 1 vA with busy := true, cur := 0x01100000#32 }) = .next t ∧
      t.reply = .data 0#32 ∧ t.esticky = 0x100#32 :=
  next_of (by decide +kernel)

/-- V215. -/
theorem test_cmd_while_busy :
    ∃ t, onEvent (wr 0x01C 0x02100000#32) ({ withF 1 vA with busy := true, cur := 0x01100000#32 }) = .next t ∧
      t.esticky = 0x100#32 ∧ t.cur = 0x01100000#32 :=
  next_of (by decide +kernel)

/-- V218, R45. -/
theorem test_clear_sticky_while_busy :
    ∃ t, onEvent (wr 0x014 0x100#32) ({ { withF 1 vA with busy := true, cur := 0x01100000#32 } with esticky := 0x110#32 }) = .next t ∧
      t.esticky = 0x010#32 :=
  next_of (by decide +kernel)

/-- V222. -/
theorem test_soft_reset_while_busy :
    ∃ t, onEvent (wr 0x008 1#32) ({ withF 1 vA with busy := true, cur := 0x01100000#32 }) = .next t ∧
      t.statusWord = 0#32 ∧ t.f[1] = 0#256 ∧ t.pt[0] = .infinity :=
  next_of (by decide +kernel)

/-- V223. -/
theorem test_ctrl_bit0_clear :
    ∃ t, onEvent (wr 0x008 0xFFFFFFFE#32) (withF 1 vA) = .next t ∧ t.f[1] = vA ∧ t.reply = .written :=
  next_of (by decide +kernel)

/-- R351. -/
theorem test_hard_reset_silent :
    ∃ t, onEvent (.read 0) ({ State.reset with hreset := true }) = .next t ∧ t.reply = .silent :=
  next_of (by decide +kernel)

/-- R351. -/
theorem test_hard_reset_abandons :
    ∃ t, onEvent (.assertReset) ({ withF 1 vA with busy := true, cur := 0x01100000#32 }) = .next t ∧
      t.busy = false ∧ t.f[1] = 0#256 ∧ t.hreset = true :=
  next_of (by decide +kernel)

/-- R117: SETK K3, -5. -/
theorem test_setK_events :
    (setKEvents 3 (-5)).length = 9 ∧
    (setKEvents 3 (-5)).getLast? = some (wr 0x1E0 1#32) ∧
    (setKEvents 3 (-5)).head? = some (wr 0x1C0 5#32) := by decide +kernel

/-- R115, R118. -/
theorem test_listing_text :
    asmText (.pnew 1 2 3 true false) = "PNEW P1, F2, -" ∧
    asmText (.fsmul 2 1 0) = "FSMUL F2, K1, F0" ∧
    pointText .infinity = "(Infinity)" := by decide +kernel
/-! ## Witnesses: for every statement with hypotheses, a state and operands that meet them, clause by clause -/

/-- The state whose next event is a read of `off`. -/
def reading (off : Nat) (s : State := State.reset) : State := { s with port := [.read (indexOf off), .sequencer] }

/-- The state whose next event is a write of `v` to `off`. -/
def writing (off : Nat) (v : Word) (s : State := State.reset) : State :=
  { s with port := [.write (indexOf off) v, .sequencer] }

/-- A state with the command word `w` in flight. -/
def inFlight (w : Word) (s : State := State.reset) : State := { s with busy := true, cur := w }

/-- A state of the invariant at its bounds: the greatest field value, a point with coordinates, every sticky bit, the
greatest code, and a command in flight. -/
def full : State :=
  { withF 15 pMinus1 (withP 7 generator) with
    esticky := 0x37E#32, code := 6#4, busy := true, cur := 0x60773000#32, t := true }

theorem generator_ok : generator.Ok :=
  show Config.Gx.toNat < p ∧ Config.Gy.toNat < p ∧
    Config.Gy.toNat * Config.Gy.toNat % p = (Config.Gx.toNat * Config.Gx.toNat * Config.Gx.toNat + 7) % p by
  decide +kernel

theorem vQ_ok : vQ.Ok :=
  show (1#256).toNat < p ∧
    (0x4218f20ae6c646b363db68605822fb14264ca8d2587fdd6fbc750d587e76a7ee#256).toNat < p ∧
    (0x4218f20ae6c646b363db68605822fb14264ca8d2587fdd6fbc750d587e76a7ee#256).toNat *
      (0x4218f20ae6c646b363db68605822fb14264ca8d2587fdd6fbc750d587e76a7ee#256).toNat % p =
      ((1#256).toNat * (1#256).toNat * (1#256).toNat + 7) % p by decide +kernel

theorem generator_canonical : generator.Canonical :=
  show Config.Gx.toNat < p ∧ Config.Gy.toNat < p by decide +kernel

theorem full_points (i : Fin 8) : full.pt[i] = .infinity ∨ full.pt[i] = generator := by
  revert i
  decide +kernel

/-- StepKeepsInvariant, StickyRecord, AcceptedCommandCompletes. -/
theorem witness_inv : full.Inv where
  fields := by decide +kernel
  points i := by
    rcases full_points i with h | h <;> rw [h]
    · trivial
    · exact generator_ok
  sticky := by decide +kernel
  code := by decide +kernel
  exclusive := by decide +kernel
  diagl := by decide +kernel
  diagr := by decide +kernel

/-! ### Encoding -/

/-- DecodeOfEncode, at the greatest operands; RowOpcode. -/
theorem witness_wellFormed : (Instr.pmul 7 7 3).wellFormed = true ∧ (Instr.pnew 7 15 15 true true).wellFormed = true := by
  decide

/-- EncodeOfDecode. -/
theorem witness_decodes : decode 0x60773000#32 = .command (.pmul 7 7 3) := by decide

/-- OutOfRangeIndexIsIllegal: the least index out of range of each class. -/
theorem witness_illFormed :
    (Instr.padd 8 0 0).wellFormed = false ∧ (Instr.fnew 0 4).wellFormed = false ∧ (Instr.pmul 0 0 4).wellFormed = false := by
  decide

/-- ReservedEncodingsAreIllegal: opcodes beside used ones, the lowest and highest of bits 11:2, and bits 1 and 0. -/
theorem witness_reserved :
    (∀ o ∈ [0x00, 0x06, 0x0F, 0x13, 0x17, 0x1A, 0x1F, 0x23, 0x3F, 0x47, 0x4F, 0x52, 0x5F, 0x61, 0xFF],
      o ∉ [0x01, 0x02, 0x03, 0x04, 0x05, 0x10, 0x11, 0x12, 0x18, 0x19, 0x20, 0x21, 0x22, 0x40, 0x41, 0x42, 0x43, 0x44,
        0x45, 0x46, 0x50, 0x51, 0x60]) ∧
      (0x10123004#32).toNat / 4 % 2 ^ 10 ≠ 0 ∧ (0x40123803#32).toNat / 4 % 2 ^ 10 ≠ 0 ∧
      (0x10123001#32).toNat % 4 ≠ 0 ∧ (0x10123001#32).toNat / 2 ^ 24 ≠ 0x40 ∧ (0x60000002#32).toNat % 4 ≠ 0 ∧
      (0x60000002#32).toNat / 2 ^ 24 ≠ 0x40 := by decide

/-! ### The step -/

/-- StepRunsDecodedCommand, with an empty port and with the sequencer's event first. -/
theorem witness_stepRuns :
    (inFlight 0x60773000#32).busy = true ∧ (inFlight 0x60773000#32).hreset = false ∧
      decode (inFlight 0x60773000#32).cur = .command (.pmul 7 7 3) ∧ (inFlight 0x60773000#32).port = [] ∧
      { inFlight 0x60773000#32 with port := [.sequencer, rd 0] }.port = .sequencer :: [rd 0] := by decide +kernel

/-- IllegalWordCompletes: the acceptance, and the completion at an empty port and at the sequencer's event. -/
theorem witness_illegal :
    (writing 0x01C 0#32).busy = false ∧ (writing 0x01C 0#32).hreset = false ∧
      (writing 0x01C 0#32).port = .write (indexOf 0x01C) 0#32 :: [.sequencer] ∧ (inFlight 0#32).busy = true ∧
      (inFlight 0#32).hreset = false ∧ (inFlight 0#32).port = [] ∧ decode (inFlight 0#32).cur = .illegal ∧
      { inFlight 0#32 with port := [.sequencer, rd 0] }.port = .sequencer :: [rd 0] := by
  decide +kernel

/-! ### Field arithmetic -/

/-- FnewChecksRange: both ends of the range, and both sides outside it. -/
theorem witness_fnew :
    (0 ≤ (State.reset.readK 0).value ∧ (State.reset.readK 0).value < p) ∧
      (0 ≤ ((withK 0 false pMinus1).readK 0).value ∧ ((withK 0 false pMinus1).readK 0).value < p) ∧
      ¬(0 ≤ ((withK 0 false (BitVec.ofNat 256 p)).readK 0).value ∧
        ((withK 0 false (BitVec.ofNat 256 p)).readK 0).value < p) ∧
      ¬(0 ≤ ((withK 3 true 1#256).readK 3).value ∧ ((withK 3 true 1#256).readK 3).value < p) := by decide +kernel

/-- Canonical operands (FADD, FSUB, FNEG, FSMUL, FieldLaws, FermatLaws, ReductionMethodsAgree, NegationOfPoints
and every statement with canonical operands): the least and the greatest, as values and as register contents. -/
theorem witness_canonical :
    Canonical 0#256 ∧ Canonical pMinus1 ∧ Canonical ((withF 15 pMinus1).readF 15) ∧ Canonical (State.reset.readF 0) := by
  decide +kernel

/-- ReductionMethodsAgree: the bounds of its three clauses. -/
theorem witness_reduction : 2 ^ 512 - 1 < 2 ^ 512 ∧ p - 1 < p ∧ 0 < p ∧ Canonical pMinus1 := by decide +kernel

/-- FinvIsInverse: zero, and a non-zero operand with an inverse. -/
theorem witness_finv :
    (State.reset.readF 0).toNat = 0 ∧ ((withF 1 pMinus1).readF 1).toNat ≠ 0 ∧
      ((withF 1 pMinus1).readF 1).toNat * (p - 1) % p = 1 ∧ p - 1 < p := by decide +kernel

/-- FpowReducesExponentFirst: an exponent that is zero, one that reduces to zero, and a negative one with base zero and
with another base. -/
theorem witness_fpow :
    0 ≤ (State.reset.readK 0).value ∧ 0 ≤ ((withK 1 false pMinus1).readK 1).value ∧
      ((withK 1 true 1#256).readK 1).value < 0 ∧ ((withK 1 true 1#256).readF 0).toNat = 0 ∧
      ((withK 1 true 1#256 (withF 0 1#256)).readK 1).value < 0 ∧
      ((withK 1 true 1#256 (withF 0 1#256)).readF 0).toNat ≠ 0 := by decide +kernel

/-- FdivIsFieldQuotient: the divisor zero and not zero. -/
theorem witness_fdiv :
    Canonical ((withF 2 pMinus1).readF 2) ∧ (State.reset.readF 1).toNat = 0 ∧ ((withF 2 pMinus1).readF 2).toNat ≠ 0 := by
  decide +kernel

/-- FermatLaws: a non-zero canonical value. -/
theorem witness_fermat : Canonical pMinus1 ∧ pMinus1 ≠ 0 ∧ Canonical 1#256 ∧ (1#256) ≠ 0 := by decide +kernel

/-- FpowAgreesWithIntegerPower: exponents that are and are not a multiple of `p - 1`. -/
theorem witness_fpow_integer :
    (2 * (p - 1)) % (p - 1) = 0 ∧ 0 % (p - 1) = 0 ∧ (p - 2) % (p - 1) ≠ 0 ∧ 1 % (p - 1) ≠ 0 ∧ pMinus1 ≠ 0 := by
  decide +kernel

/-! ### Points -/

/-- PnewOutcomes: a pair on the curve, and `(1, 2)`, which is not. -/
theorem witness_pnew :
    vB.toNat = ((withF 2 vB).readF 2).toNat ∧
      Config.Gy.toNat * Config.Gy.toNat % p = (Config.Gx.toNat * Config.Gx.toNat * Config.Gx.toNat + 7) % p ∧
      2 * 2 % p ≠ (1 * 1 * 1 + 7) % p := by decide +kernel

/-- PgetxPgetyCopy, PdblIsTangentLaw, PaddIsGroupLaw: `Infinity` and a point with coordinates. -/
theorem witness_point_cases :
    State.reset.readP 0 = .infinity ∧ (withP 7 generator).readP 7 = .coordinates Config.Gx Config.Gy ∧
      (withP 7 generator).readP 7 ≠ .infinity := by decide +kernel

/-- PointRoundTrip: different registers and a point that satisfies the invariant. -/
theorem witness_roundTrip :
    (0 : Nibble) ≠ 15 ∧ ((withP 7 generator).readP 7).Ok ∧ (withP 7 generator).readP 7 ≠ .infinity :=
  ⟨by decide, by rw [show (withP 7 generator).readP 7 = generator by decide +kernel]; exact generator_ok,
    by decide +kernel⟩

/-- NegationOfPoints, PointAdditionLaws, GroupLawStaysOnCurve, EveryPointHasOrderN, WindowedMultiplierAgrees:
points that satisfy the invariant, one of them with its coordinates in view, and a window width. -/
theorem witness_ok :
    generator.Ok ∧ vQ.Ok ∧ Point.infinity.Ok ∧ (Point.coordinates Config.Gx Config.Gy).Ok ∧ 1 ≤ 1 :=
  ⟨generator_ok, vQ_ok, trivial, generator_ok, le_refl 1⟩

/-- GroupLawNeverRaises: registers that satisfy the invariant, a non-zero `y`, two different `x`. -/
theorem witness_neverRaises :
    ((withP 7 generator).readP 7).Ok ∧ ((withP 7 generator).readP 0).Ok ∧ Canonical Config.Gy ∧ Config.Gy ≠ 0 ∧
      Canonical Config.Gx ∧ Canonical 1#256 ∧ Config.Gx ≠ 1#256 :=
  ⟨by rw [show (withP 7 generator).readP 7 = generator by decide +kernel]; exact generator_ok,
    by rw [show (withP 7 generator).readP 0 = .infinity by decide +kernel]; trivial, by decide +kernel,
    by decide +kernel, by decide +kernel, by decide +kernel, by decide +kernel⟩

/-- PdblIsTangentLaw: canonical coordinates with `y = 0` and with `y ≠ 0`. -/
theorem witness_pdbl :
    (withP 0 (.coordinates 5#256 0#256)).readP 0 = .coordinates 5#256 0 ∧ Canonical 5#256 ∧ Canonical 0#256 ∧
      Canonical Config.Gx ∧ Canonical Config.Gy ∧ Config.Gy ≠ 0 := by decide +kernel

/-- PaddIsGroupLaw, PmulIsDoubleAndAdd, PmulLaws, JacobianFormsAgree: points with canonical coordinates. -/
theorem witness_point_canonical :
    generator.Canonical ∧ Point.infinity.Canonical ∧ ((withP 7 generator).readP 7).Canonical ∧
      (State.reset.readP 0).Canonical :=
  ⟨generator_canonical, trivial, by
    rw [show (withP 7 generator).readP 7 = generator by decide +kernel]; exact generator_canonical, by
    rw [show State.reset.readP 0 = .infinity by decide +kernel]; trivial⟩

/-- PaddIsGroupLaw: two points with coordinates in each of the three cases: equal with `y ≠ 0`, equal `x` with
different `y` or with `y = 0`, and different `x`. -/
theorem witness_padd_cases :
    (withP 1 generator (withP 0 generator)).readP 0 = (withP 1 generator (withP 0 generator)).readP 1 ∧
      Config.Gy ≠ 0 ∧ (withP 1 vNegG (withP 0 generator)).readP 1 = .coordinates Config.Gx (fneg Config.Gy) ∧
      Config.Gy ≠ fneg Config.Gy ∧ (withP 0 (.coordinates 5#256 0#256)).readP 0 = .coordinates 5#256 0 ∧
      (withP 1 v2G (withP 0 generator)).readP 0 = .coordinates Config.Gx Config.Gy ∧
      (∃ x y, (withP 1 v2G (withP 0 generator)).readP 1 = .coordinates x y ∧ Config.Gx ≠ x) :=
  ⟨by decide +kernel, by decide +kernel, by decide +kernel, by decide +kernel, by decide +kernel, by decide +kernel,
    _, _, rfl, by decide +kernel⟩

/-- JacobianFormsAgree: a triple with `Z = 2` and one with `Z = 0`, and their affine images. -/
theorem witness_jacobian :
    Canonical 4#256 ∧ Canonical 8#256 ∧ Canonical 2#256 ∧
      (match toAffine ⟨4#256, 8#256, 2#256⟩ with
        | .ok P => decide (P = .coordinates 1#256 1#256)
        | .error _ => false) = true ∧
      toAffine ⟨1#256, 1#256, 0#256⟩ = .ok .infinity :=
  ⟨by decide +kernel, by decide +kernel, by decide +kernel, by decide +kernel, rfl⟩

/-- PmulLaws: two representatives of one scalar modulo `N`. -/
theorem witness_pmul_scalars : (N + 1 : Int) % (N : Int) = 1 % (N : Int) ∧ (-1 : Int) % (N : Int) = (N - 1 : Int) % (N : Int) := by
  decide +kernel

/-! ### Errors and registers -/

/-- FailureChangesNoRegister, OnlyListedErrors: a failing command of each kind; `NotOnCurve` has its own clause. -/
theorem witness_failures :
    (∃ t, exec (.fnew 0 0) (withK 0 true 1#256) = .next t ∧ t.code ≠ 0#4 ∧ t.code ≠ 2#4) ∧
      (∃ t, exec (.pnew 0 0 0 true true) State.reset = .next t ∧ t.code ≠ 0#4 ∧ t.code = 2#4) ∧
      (∃ t, exec (.pnew 0 0 0 true false) State.reset = .next t ∧ t.code ≠ 0#4 ∧ t.code ≠ 2#4) ∧
      (∃ t, exec (.finv 0 0) State.reset = .next t ∧ t.code ≠ 0#4 ∧ t.code ≠ 2#4) ∧
      ∃ t, exec (.pgety 0 0) State.reset = .next t ∧ t.code ≠ 0#4 ∧ t.code ≠ 2#4 :=
  ⟨next_of (by decide +kernel), next_of (by decide +kernel), next_of (by decide +kernel), next_of (by decide +kernel),
    next_of (by decide +kernel)⟩

/-- OnlyDestinationsWritten: a successful completion, a register beside its destination, a command that does not write
`T`, and commands without a destination of one kind. -/
theorem witness_onlyDestinations :
    (∃ t, exec (.fone 3) State.reset = .next t ∧ t.code = 0#4) ∧
      (∀ d, destF (.fone 3) = some d → d.toNat ≠ (4 : Fin 16).val) ∧ writesT (.fone 3) = false ∧
      (∀ d, destP (.pldg 6) = some d → d.toNat % 8 ≠ (7 : Fin 8).val) ∧ (∀ d, destP (.fone 3) ≠ some d) :=
  ⟨next_of (by decide +kernel), by intro d h; cases h; decide, rfl, by intro d h; cases h; decide, by intro d h; cases h⟩

/-- A state whose `LASTCMD` is not zero, or with a K register that is not zero, is not at its reset values. -/
theorem not_resetValues {t : State} (h : t.lastcmd ≠ 0#32 ∨ t.k[3] ≠ ⟨false, 0#256⟩) : ¬ResetValues t := by
  intro r
  rcases h with h | h
  · exact h r.lastcmd
  · exact h (r.k 3)

/-- RegistersChangeByTheirWritersOnly: a step that changes each kind of register and is no reset. -/
theorem witness_registersChange :
    (∃ t, step (inFlight 0x03300000#32) = .next t ∧ ¬ResetValues t ∧ t.f[3] ≠ (inFlight 0x03300000#32).f[3]) ∧
      (∃ t, step (inFlight 0x41700000#32) = .next t ∧ ¬ResetValues t ∧ t.pt[7] ≠ (inFlight 0x41700000#32).pt[7]) ∧
      (∃ t, step (writing 0x1E0 1#32) = .next t ∧ ¬ResetValues t ∧ t.k ≠ (writing 0x1E0 1#32).k) ∧
      ∃ t, step (inFlight 0x40000003#32) = .next t ∧ ¬ResetValues t ∧ t.diagr ≠ (inFlight 0x40000003#32).diagr :=
  ⟨(next_of (P := fun t => t.lastcmd ≠ 0#32 ∧ t.f[3] ≠ (inFlight 0x03300000#32).f[3]) (by decide +kernel)).imp
      fun _ h => ⟨h.1, not_resetValues (.inl h.2.1), h.2.2⟩,
    (next_of (P := fun t => t.lastcmd ≠ 0#32 ∧ t.pt[7] ≠ (inFlight 0x41700000#32).pt[7]) (by decide +kernel)).imp
      fun _ h => ⟨h.1, not_resetValues (.inl h.2.1), h.2.2⟩,
    (next_of (P := fun t => t.k[3] ≠ ⟨false, 0#256⟩ ∧ t.k ≠ (writing 0x1E0 1#32).k) (by decide +kernel)).imp
      fun _ h => ⟨h.1, not_resetValues (.inr h.2.1), h.2.2⟩,
    (next_of (P := fun t => t.lastcmd ≠ 0#32 ∧ t.diagr ≠ (inFlight 0x40000003#32).diagr) (by decide +kernel)).imp
      fun _ h => ⟨h.1, not_resetValues (.inl h.2.1), h.2.2⟩⟩

/-- RegistersChangeByTheirWritersOnly: a completion at an empty port and at the sequencer's event that changes `CODE`,
`LASTCMD` and `ESTICKY`, and accesses that change `ESTICKY`. -/
theorem witness_statusChange :
    (∃ t, step (inFlight 0x21000000#32) = .next t ∧ ¬ResetValues t ∧
      t.code ≠ (inFlight 0x21000000#32).code ∧ t.esticky ≠ (inFlight 0x21000000#32).esticky) ∧
      (∃ t, step { inFlight 0#32 full with port := [.sequencer] } = .next t ∧ ¬ResetValues t ∧
        t.lastcmd ≠ 1#32 ∧ t.code ≠ full.code) ∧
      (∃ t, step (reading 0xFFC (withK 3 true 0#256)) = .next t ∧ ¬ResetValues t ∧ t.esticky ≠ 0#32) ∧
      ∃ t, step (writing 0x014 2#32 full) = .next t ∧ ¬ResetValues t ∧ t.esticky ≠ full.esticky :=
  ⟨(next_of (P := fun t => t.esticky ≠ 0#32 ∧ t.code ≠ (inFlight 0x21000000#32).code ∧
      t.esticky ≠ (inFlight 0x21000000#32).esticky) (by decide +kernel)).imp
      fun _ h => ⟨h.1, fun r => h.2.1 r.esticky, h.2.2⟩,
    (next_of (P := fun t => t.esticky ≠ 0#32 ∧ t.lastcmd ≠ 1#32 ∧ t.code ≠ full.code) (by decide +kernel)).imp
      fun _ h => ⟨h.1, fun r => h.2.1 r.esticky, h.2.2⟩,
    (next_of (P := fun t => t.esticky ≠ 0#32) (by decide +kernel)).imp fun _ h => ⟨h.1, fun r => h.2 r.esticky, h.2⟩,
    (next_of (P := fun t => t.esticky ≠ 0#32 ∧ t.esticky ≠ full.esticky) (by decide +kernel)).imp
      fun _ h => ⟨h.1, fun r => h.2.1 r.esticky, h.2.2⟩⟩

/-- FlagIsWrittenByPredicatesOnly: the predicates answer, and `T` changes by a predicate and by a reset. -/
theorem witness_flag :
    (∃ t, exec (.feq 0 1) State.reset = .next t ∧ t.t = true) ∧
      (∃ t, exec (.peq 0 1) State.reset = .next t ∧ t.t = true) ∧
      (∃ t, exec (.pisinf 0) (withP 0 generator) = .next t ∧ t.t = false) ∧
      (∃ t, step (inFlight 0x05000000#32) = .next t ∧ t.t ≠ (inFlight 0x05000000#32).t) ∧
      ∃ t, step (writing 0x008 1#32 full) = .next t ∧ t.t ≠ (writing 0x008 1#32 full).t :=
  ⟨next_of (by decide +kernel), next_of (by decide +kernel), next_of (by decide +kernel), next_of (by decide +kernel),
    next_of (by decide +kernel)⟩

/-- StickyRecord: a completion, and bits beside the named ones. -/
theorem witness_sticky :
    (∃ t, exec (.finv 0 0) State.reset = .next t ∧ t.code = 4#4) ∧
      ∀ n ∈ [0, 7, 10, 31], n ∉ [1, 2, 3, 4, 5, 6, 8, 9] :=
  ⟨next_of (by decide +kernel), by decide⟩

/-! ### The window: every `ReadsAs`, `ReadRefused`, `WriteDropped` and `WriteDoes` asks for a released reset line and the
access as the next event -/

/-- The premises of the access predicates, at the first and last offsets of the window and at both values of `BUSY`
(CmdAcceptance, ControlBlockReads, IntegerRegisterAccess, WideValuesReadByWords, PointsReadByWords,
BusyRefusesTheWindow, RefusedAccesses, SoftReset, HardReset). -/
theorem witness_access :
    (reading 0x000).hreset = false ∧ (reading 0x000).port = .read (indexOf 0x000) :: [.sequencer] ∧
      (reading 0xFFC).hreset = false ∧ (reading 0xFFC).port = .read (indexOf 0xFFC) :: [.sequencer] ∧
      (writing 0x01C 5#32).hreset = false ∧ (writing 0x01C 5#32).port = .write (indexOf 0x01C) 5#32 :: [.sequencer] ∧
      (writing 0x01C 5#32).busy = false ∧ (writing 0xFFC 5#32 full).hreset = false ∧
      (writing 0xFFC 5#32 full).port = .write (indexOf 0xFFC) 5#32 :: [.sequencer] ∧
      (writing 0xFFC 5#32 full).busy = true ∧ (writing 0x01C 5#32 full).busy = true ∧
      (writing 0x01C 5#32 full).port = .write (indexOf 0x01C) 5#32 :: [.sequencer] ∧
      (writing 0x01C 5#32 full).hreset = false := by decide +kernel

/-- IntegerRegisterAccess: the idle block, the widest integers, the nine writes at the head of the port; WideValuesReadByWords: an offset
at each end of each range. -/
theorem witness_registers :
    State.reset.busy = false ∧ Int.natAbs (2 ^ 256 - 1) < 2 ^ 256 ∧ Int.natAbs (-(2 ^ 256 - 1)) < 2 ^ 256 ∧
      { State.reset with port := setKEvents 3 (-5) ++ [rd 0] }.port = setKEvents 3 (-5) ++ [rd 0] ∧
      (∀ n ∈ [0x80, 0xFF, 0x200, 0x227, 0x230, 0x23F], (0x200 ≤ 4 * n ∧ 4 * n < 0x400) ∨ (0x800 ≤ 4 * n ∧ 4 * n < 0x8A0) ∨
        (0x8C0 ≤ 4 * n ∧ 4 * n < 0x900)) ∧
      ∀ n ∈ [0x7F, 0x100, 0x1FF, 0x228, 0x22F, 0x240], ¬((0x200 ≤ 4 * n ∧ 4 * n < 0x400) ∨
        (0x800 ≤ 4 * n ∧ 4 * n < 0x8A0) ∨ (0x8C0 ≤ 4 * n ∧ 4 * n < 0x900)) := by decide +kernel

/-- PointsReadByWords: a point with coordinates and `Infinity`, in an idle block. -/
theorem witness_points :
    (withP 7 generator).busy = false ∧ (withP 7 generator).pt[7] = .coordinates Config.Gx Config.Gy ∧
      (withP 7 generator).pt[6] = .infinity := by decide +kernel

/-- BusyRefusesTheWindow: the last word of the control block and the first outside it, the last of the window, and a
word with bit 0 set. -/
theorem witness_busy :
    full.busy = true ∧ 4 * 7 < 0x020 ∧ 0x020 ≤ 4 * 8 ∧ 4 * 8 = 0x020 ∧ 1023 < 1024 ∧ (1#32).getLsbD 0 = true := by
  decide +kernel

/-- RefusedAccesses: read-only and unmapped offsets at the ends of their ranges, and none is both. -/
theorem witness_refused :
    (∀ off ∈ [0x000, 0x004, 0x00C, 0x010, 0x018, 0x200, 0x3FC, 0x400, 0x440, 0x7C0, 0x800, 0x89C, 0x8C0, 0x8FC],
      isReadOnly off = true ∧ isUnmapped off = false) ∧
    (∀ off ∈ [0x020, 0x0FC, 0x124, 0x13C, 0x1FC, 0x444, 0x47C, 0x7FC, 0x8A0, 0x8BC, 0x900, 0xFFC],
      isReadOnly off = false ∧ isUnmapped off = true) ∧
    ∀ off ∈ [0x008, 0x014, 0x01C, 0x100, 0x120, 0x1E0], isReadOnly off = false ∧ isUnmapped off = false := by decide

/-- FlightIsUndisturbed: accesses that the statement covers while a command is in flight, and the completion. -/
theorem witness_flight :
    (inFlight 0x03300000#32).busy = true ∧ (inFlight 0x03300000#32).hreset = false ∧
      ((2#32).getLsbD 0 = false) ∧
      (∃ t, performEvent (.read 0x40) (inFlight 0x03300000#32) = .next t ∧ t.esticky = 0x100#32) ∧
      (∃ t, performEvent (.write (indexOf 0x008) 2#32) (inFlight 0x03300000#32) = .next t ∧ t.busy = true) ∧
      ∃ u, completeStep (inFlight 0x03300000#32) = .next u ∧ u.f[3] = 1#256 :=
  ⟨by decide +kernel, by decide +kernel, by decide, next_of (by decide +kernel), next_of (by decide +kernel),
    next_of (by decide +kernel)⟩

/-- FlightIsUndisturbed, the clause on answers: two different commands in flight over different registers, in states
that agree on what a host may see, and an access of each form. -/
theorem witness_flight_pair :
    (inFlight 0x03300000#32).busy = true ∧ (inFlight 0x60773000#32 (withF 3 vA)).busy = true ∧
      (inFlight 0x03300000#32).hreset = false ∧ (inFlight 0x60773000#32 (withF 3 vA)).hreset = false ∧
      (inFlight 0x60773000#32 (withF 3 vA)).t = (inFlight 0x03300000#32).t ∧
      (inFlight 0x60773000#32 (withF 3 vA)).done = (inFlight 0x03300000#32).done ∧
      (inFlight 0x60773000#32 (withF 3 vA)).code = (inFlight 0x03300000#32).code ∧
      (inFlight 0x60773000#32 (withF 3 vA)).esticky = (inFlight 0x03300000#32).esticky ∧
      (inFlight 0x60773000#32 (withF 3 vA)).lastcmd = (inFlight 0x03300000#32).lastcmd ∧
      (inFlight 0x60773000#32 (withF 3 vA)).cur ≠ (inFlight 0x03300000#32).cur ∧
      (inFlight 0x60773000#32 (withF 3 vA)).f ≠ (inFlight 0x03300000#32).f := by decide +kernel

theorem witness_access_forms :
    (rd 0x260).IsAccessButReset ∧ (wr 0x008 2#32).IsAccessButReset ∧ (wr 0x100 1#32).IsAccessButReset :=
  ⟨.inl ⟨_, rfl⟩, .inr ⟨_, _, rfl, fun _ => by decide⟩, .inr ⟨_, _, rfl, fun h => absurd h (by decide)⟩⟩

/-- AcceptedCommandCompletes: a command in flight, in a state of the invariant, with no reset among the events to come. -/
theorem witness_accepted :
    ({ full with port := [wr 0x008 2#32, rd 0x00C] } : State).Inv ∧ full.busy = true ∧ full.hreset = false ∧
      ∀ e ∈ [wr 0x008 2#32, rd 0x00C], e ≠ .assertReset ∧ e ≠ .releaseReset ∧
        ∀ v : Word, e = .write (indexOf 0x008) v → v.getLsbD 0 = false := by
  refine ⟨⟨witness_inv.fields, witness_inv.points, witness_inv.sticky, witness_inv.code, witness_inv.exclusive,
    witness_inv.diagl, witness_inv.diagr⟩, by decide +kernel, by decide +kernel, ?_⟩
  intro e h
  rcases List.mem_cons.mp h with rfl | h
  · refine ⟨by decide, by decide, ?_⟩
    intro v hv
    injection hv with _ h2
    rw [← h2]
    decide
  · rcases List.mem_cons.mp h with rfl | h
    · exact ⟨by decide, by decide, fun v hv => nomatch hv⟩
    · exact absurd h List.not_mem_nil

/-! ### Reset -/

/-- SoftReset: a word with bit 0 set and one with bit 0 clear. -/
theorem witness_softReset : (1#32).getLsbD 0 = true ∧ (0xFFFFFFFE#32).getLsbD 0 = false := by decide

/-- HardReset: the events of the line, an asserted line with an access at the head of the port, and an idle block. -/
theorem witness_hardReset :
    { full with port := [.releaseReset, rd 0] }.port = .releaseReset :: [rd 0] ∧
      { full with port := [.assertReset, rd 0] }.port = .assertReset :: [rd 0] ∧
      { reading 0 with hreset := true }.hreset = true ∧ State.reset.hreset = false ∧ State.reset.port = [] ∧
      State.reset.lastcmd = 0#32 := by decide +kernel

/-- HardReset: nothing in flight in a state that is not at its reset values, at an empty port, at the sequencer's event
and at an access that is no write to `CMD`; and the sequencer's turn under an asserted line, also with a command in
flight, which no run reaches. -/
theorem witness_idle :
    (withF 3 vA).busy = false ∧ (withF 3 vA).port = [] ∧
      { withF 3 vA with port := [.sequencer] }.port = .sequencer :: [] ∧
      (∀ w rest, (withF 3 vA).port ≠ .write (indexOf 0x01C) w :: rest) ∧
      (∀ w rest, (writing 0x100 5#32).port ≠ .write (indexOf 0x01C) w :: rest) ∧
      { full with hreset := true, port := [.sequencer] }.hreset = true := by
  refine ⟨by decide +kernel, by decide +kernel, rfl, fun w rest h => (nomatch h), fun w rest h => ?_, rfl⟩
  injection h with h1 _
  injection h1 with h2 _
  exact absurd h2 (by decide)

/-- HardReset: a state at its reset values, with a value of `CUR` of its own, and a released reset line. -/
theorem witness_resetValues :
    ResetValues { State.reset with cur := 7#32 } ∧ { State.reset with cur := 7#32 }.hreset = false :=
  ⟨{ f := by decide +kernel, pt := by decide +kernel, k := by decide +kernel, flag := rfl, busy := rfl, done := rfl
     code := rfl, esticky := rfl, lastcmd := rfl, diagl := rfl, diagr := rfl }, rfl⟩

end Sys2Proof.Tests
end

section
/-! SUPPORT. The moduli of the field (R7, R12) and of the scalars (R9) are prime: Lucas' test, evaluated for each number
of a chain of certificates. -/

namespace Sys2Proof.Machine

open Sys2Proof.Config (p N)

/-- `s ^ e % n` by repeated squaring, so that the kernel can evaluate it; `fuel` bounds the bits of `e`. -/
def modExp (n : ℕ) : ℕ → ℕ → ℕ → ℕ
  | 0, _, _ => 1 % n
  | fuel + 1, s, e => s ^ (e % 2) * modExp n fuel (s * s % n) (e / 2) % n

theorem modExp_eq (n : ℕ) {fuel : ℕ} (s : ℕ) {e : ℕ} (he : e < 2 ^ fuel) : modExp n fuel s e = s ^ e % n := by
  induction fuel generalizing s e with
  | zero => simp [modExp, show e = 0 by omega]
  | succ fuel ih =>
    have hhalf : e / 2 < 2 ^ fuel := by rw [pow_succ] at he; omega
    have hsplit : s ^ e = s ^ (e % 2) * (s * s) ^ (e / 2) := by
      rw [← pow_two, ← pow_mul, ← pow_add, Nat.mod_add_div]
    rw [modExp, ih _ hhalf, ← Nat.pow_mod, Nat.mul_mod_mod, hsplit]

/-- The check of Lucas' test: `a ^ (n - 1)` is 1 modulo `n`, and for no listed factor `q` of `n - 1` is
`a ^ ((n - 1) / q)`. -/
def lucasCheck (n a : ℕ) (factors : List ℕ) : Bool :=
  factors.prod == n - 1 && modExp n (n.log2 + 1) a (n - 1) == 1 % n &&
    factors.all fun q => modExp n (n.log2 + 1) a ((n - 1) / q) != 1 % n

/-- Lucas' test, by evaluation: the factors listed are all the prime factors of `n - 1`. -/
theorem prime_of_lucas {n : ℕ} (a : ℕ) (factors : List ℕ) (hprime : ∀ q ∈ factors, q.Prime)
    (hcheck : lucasCheck n a factors = true) : n.Prime := by
  have pow_eq_one {e : ℕ} (he : e ≤ n - 1) : (a : ZMod n) ^ e = 1 ↔ modExp n (n.log2 + 1) a e = 1 % n := by
    rw [modExp_eq n a ((he.trans (Nat.sub_le n 1)).trans_lt Nat.lt_log2_self)]
    exact_mod_cast ZMod.natCast_eq_natCast_iff' (a ^ e) 1 n
  simp only [lucasCheck, Bool.and_eq_true, beq_iff_eq, List.all_eq_true, bne_iff_ne] at hcheck
  obtain ⟨⟨hprod, hone⟩, hne⟩ := hcheck
  refine lucas_primality n a ((pow_eq_one le_rfl).mpr hone) fun q hq hdvd => ?_
  rw [← hprod, hq.prime.dvd_prod_iff] at hdvd
  obtain ⟨r, hr, hqr⟩ := hdvd
  obtain rfl : q = r := (Nat.prime_dvd_prime_iff_eq hq (hprime r hr)).mp hqr
  exact (pow_eq_one (Nat.div_le_self _ _)).not.mpr (hne q hr)

/-! ### The chain to the field modulus

Each number is certified from the prime factors of its predecessor. The factors above `10 ^ 7` are certified before it
and rewritten away first; `norm_num` would try to find their divisors. -/

theorem prime_13331831 : Nat.Prime 13331831 :=
  prime_of_lucas 13 [2, 5, 971, 1373] (by norm_num) (by decide +kernel)

theorem prime_173378833005251801 : Nat.Prime 173378833005251801 :=
  prime_of_lucas 6 [2, 2, 2, 5, 5, 2621, 24809, 13331831]
    (by simp only [List.forall_mem_cons, prime_13331831]; norm_num) (by decide +kernel)

theorem prime_22149492674086928081353 : Nat.Prime 22149492674086928081353 :=
  prime_of_lucas 5 [2, 2, 2, 3, 5323, 173378833005251801]
    (by simp only [List.forall_mem_cons, prime_173378833005251801]; norm_num) (by decide +kernel)

theorem prime_132896956044521568488119 : Nat.Prime 132896956044521568488119 :=
  prime_of_lucas 6 [2, 3, 22149492674086928081353]
    (by simp only [List.forall_mem_cons, prime_22149492674086928081353]; norm_num) (by decide +kernel)

theorem prime_107590001 : Nat.Prime 107590001 :=
  prime_of_lucas 3 [2, 2, 2, 2, 5, 5, 5, 5, 7, 29, 53] (by norm_num) (by decide +kernel)

theorem prime_255515944373312847190720520512484175977 : Nat.Prime 255515944373312847190720520512484175977 :=
  prime_of_lucas 3 [2, 2, 2, 7, 7, 11, 1627, 2657, 4423, 41201, 96557, 7240687, 107590001]
    (by simp only [List.forall_mem_cons, prime_107590001]; norm_num) (by decide +kernel)

theorem prime_205115282021455665897114700593932402728804164701536103180137503955397371 :
    Nat.Prime 205115282021455665897114700593932402728804164701536103180137503955397371 :=
  prime_of_lucas 10 [2, 3, 5, 29, 29, 31, 7723, 132896956044521568488119, 255515944373312847190720520512484175977]
    (by
      simp only [List.forall_mem_cons, prime_132896956044521568488119,
        prime_255515944373312847190720520512484175977]
      norm_num)
    (by decide +kernel)

/-- The field modulus is prime (R12), by the certificates above. -/
theorem p_prime : p.Prime :=
  prime_of_lucas 3 [2, 3, 7, 13441, 205115282021455665897114700593932402728804164701536103180137503955397371]
    (by
      simp only [List.forall_mem_cons,
        prime_205115282021455665897114700593932402728804164701536103180137503955397371]
      norm_num)
    (by decide +kernel)

/-! ### The chain to the group order -/

theorem prime_107361793816595537 : Nat.Prime 107361793816595537 :=
  prime_of_lucas 3 [2, 2, 2, 2, 16699, 85831, 4681609] (by norm_num) (by decide +kernel)

theorem prime_44706919 : Nat.Prime 44706919 :=
  prime_of_lucas 6 [2, 3, 797, 9349] (by norm_num) (by decide +kernel)

theorem prime_174723607534414371449 : Nat.Prime 174723607534414371449 :=
  prime_of_lucas 3 [2, 2, 2, 17, 59, 4051, 120233, 44706919]
    (by simp only [List.forall_mem_cons, prime_44706919]; norm_num) (by decide +kernel)

theorem prime_545358713 : Nat.Prime 545358713 :=
  prime_of_lucas 5 [2, 2, 2, 41, 59, 28181] (by norm_num) (by decide +kernel)

theorem prime_297159362677 : Nat.Prime 297159362677 :=
  prime_of_lucas 2 [2, 2, 3, 3, 11, 461, 1627771] (by norm_num) (by decide +kernel)

theorem prime_29047611873442575647497758179 : Nat.Prime 29047611873442575647497758179 :=
  prime_of_lucas 2 [2, 293, 305873, 545358713, 297159362677]
    (by simp only [List.forall_mem_cons, prime_545358713, prime_297159362677]; norm_num) (by decide +kernel)

theorem prime_341948486974166000522343609283189 : Nat.Prime 341948486974166000522343609283189 :=
  prime_of_lucas 2 [2, 2, 3, 3, 3, 109, 29047611873442575647497758179]
    (by simp only [List.forall_mem_cons, prime_29047611873442575647497758179]; norm_num) (by decide +kernel)

/-- The numeral of the group order (R9) is prime, by the certificates above. -/
theorem N_prime : N.Prime :=
  prime_of_lucas 7 [2, 2, 2, 2, 2, 2, 3, 149, 631, 107361793816595537, 174723607534414371449,
      341948486974166000522343609283189]
    (by
      simp only [List.forall_mem_cons, prime_107361793816595537, prime_174723607534414371449,
        prime_341948486974166000522343609283189]
      norm_num)
    (by decide +kernel)

/-- Settles O24, by the chain of Lucas certificates that ends in `p_prime`. -/
theorem fieldPrimeIsOddPrime : Obligations.FieldPrimeIsOddPrime :=
  ⟨Config.p_eq, p_prime, p_odd, by decide +kernel⟩

end Sys2Proof.Machine
end

section
/-! SUPPORT. The pure functions of the field units (R161 to R163, R181, R182, R203) in the field of residues
modulo `p`. -/

namespace Sys2Proof.Machine

open Sys2Proof.Config (p)

/-- The residue modulo `p` that a 256-bit value stands for. -/
def toField (v : W256) : ZMod p := (v.toNat : ZMod p)

theorem canonical_zero : Canonical 0#256 := p_pos

@[simp] theorem toField_zero : toField 0#256 = 0 := by simp [toField]

theorem toField_inj {a b : W256} (ha : Canonical a) (hb : Canonical b) : toField a = toField b ↔ a = b := by
  rw [toField, toField, ZMod.natCast_eq_natCast_iff', Nat.mod_eq_of_lt ha, Nat.mod_eq_of_lt hb, BitVec.toNat_inj]

theorem toField_ne_zero {a : W256} (ha : Canonical a) (h : a ≠ 0#256) : toField a ≠ 0 := by
  rw [← toField_zero]
  exact (toField_inj ha canonical_zero).not.mpr h

theorem toField_fadd {a b : W256} (ha : Canonical a) (hb : Canonical b) :
    toField (fadd a b) = toField a + toField b := by
  rw [toField, fadd_toNat ha hb, ZMod.natCast_mod, Nat.cast_add, toField, toField]

theorem toField_fsub {a b : W256} (ha : Canonical a) (hb : Canonical b) :
    toField (fsub a b) = toField a - toField b := by
  rw [toField, fsub_toNat ha hb, ZMod.natCast_mod, Nat.cast_add, Nat.cast_sub (Nat.le_of_lt hb), ZMod.natCast_self]
  simp only [toField]
  ring

theorem toField_fneg {a : W256} (ha : Canonical a) : toField (fneg a) = -toField a := by
  rw [toField, fneg_toNat ha, ZMod.natCast_mod, Nat.cast_sub (Nat.le_of_lt ha), ZMod.natCast_self, zero_sub, toField]

theorem toField_fmul (a b : W256) : toField (fmul a b) = toField a * toField b := by
  rw [toField, fmul_toNat, ZMod.natCast_mod, Nat.cast_mul, toField, toField]

theorem toField_fsmul (k : ℤ) (a : W256) : toField (fsmul k a) = k * toField a := by
  have h := congrArg (Int.cast : ℤ → ZMod p) (fsmul_toInt k a)
  rwa [ZMod.intCast_mod, Int.cast_mul, Int.cast_natCast, Int.cast_natCast] at h

theorem toField_modPow (a : W256) (n : ℕ) : toField (modPow a n).val = toField a ^ n := by
  rw [toField, (modPow a n).property, ZMod.natCast_mod, Nat.cast_pow, toField]

section
variable [Fact p.Prime]

/-- `fdiv` is the division of the field of residues (R203). -/
theorem toField_fdiv {a b : W256} (hb : Canonical b) (h : b ≠ 0#256) :
    ∃ q, fdiv a b = .ok q ∧ toField q = toField a / toField b := by
  refine ⟨_, fdiv_of_ne_zero h, ?_⟩
  have hpow : toField b ^ (p - 2) * toField b = 1 := by
    rw [← pow_succ, show p - 2 + 1 = p - 1 by decide +kernel, ZMod.pow_card_sub_one_eq_one (toField_ne_zero hb h)]
  rw [toField_fmul, toField_modPow, eq_inv_of_mul_eq_one_left hpow, div_eq_mul_inv]

end

end Sys2Proof.Machine
end

section
/-! SUPPORT. The group law of the model (R261, R262, R292) is the addition of Mathlib's group of the points of
`y^2 = x^3 + 7` over the field of residues modulo `p`. -/

namespace Sys2Proof.Machine

open Sys2Proof.Config (p)
open WeierstrassCurve

/-- The curve of R8 as Mathlib's Weierstrass curve over the residues modulo `p`: `y^2 = x^3 + 7`. -/
def curve : Affine (ZMod p) := ⟨0, 0, 0, 0, 7⟩

theorem curve_negY (x y : ZMod p) : curve.negY x y = -y := by simp [curve]

theorem curve_equation_iff (x y : W256) : curve.Equation (toField x) (toField y) ↔
    y.toNat * y.toNat % p = (x.toNat * x.toNat * x.toNat + 7) % p := by
  rw [← ZMod.natCast_eq_natCast_iff', Affine.equation_iff]
  push_cast
  simp only [curve, toField]
  ring_nf

/-- The point of the group that a point register stands for: `Infinity` is the identity, coordinates are canonical
representatives. -/
def Represents : Point → curve.Point → Prop
  | .infinity, A => A = 0
  | .coordinates x y, A =>
    Canonical x ∧ Canonical y ∧ ∃ h : curve.Nonsingular (toField x) (toField y), A = .some _ _ h

@[simp] theorem represents_infinity {A : curve.Point} : Represents .infinity A ↔ A = 0 := Iff.rfl

theorem represents_some {x y : W256} {X Y : ZMod p} (h : curve.Nonsingular X Y) (cx : Canonical x) (cy : Canonical y)
    (hx : toField x = X) (hy : toField y = Y) : Represents (.coordinates x y) (.some X Y h) := by
  subst hx hy
  exact ⟨cx, cy, h, rfl⟩

theorem Represents.unique {P Q : Point} {A : curve.Point} (hP : Represents P A) (hQ : Represents Q A) : P = Q := by
  cases P with
  | infinity =>
    cases Q with
    | infinity => rfl
    | coordinates x y =>
      obtain ⟨-, -, h, hA⟩ := hQ
      exact absurd (hA.symm.trans hP) (Affine.Point.some_ne_zero h)
  | coordinates x₁ y₁ =>
    obtain ⟨cx₁, cy₁, h₁, rfl⟩ := hP
    cases Q with
    | infinity => exact absurd hQ (Affine.Point.some_ne_zero h₁)
    | coordinates x₂ y₂ =>
      obtain ⟨cx₂, cy₂, h₂, heq⟩ := hQ
      obtain ⟨hx, hy⟩ := (Affine.Point.some.injEq ..).mp heq
      rw [(toField_inj cx₁ cx₂).mp hx, (toField_inj cy₁ cy₂).mp hy]

theorem Represents.fneg {x y : W256} {A : curve.Point} (h : Represents (.coordinates x y) A) :
    Represents (.coordinates x (fneg y)) (-A) := by
  obtain ⟨cx, cy, hns, rfl⟩ := h
  rw [Affine.Point.neg_some]
  exact represents_some _ cx (canonical_fneg cy) rfl (by rw [toField_fneg cy, curve_negY])

theorem natCast_ne_zero_of_lt_p {n : ℕ} (hpos : 0 < n) (hlt : n < p) : (n : ZMod p) ≠ 0 := by
  rw [Ne, ZMod.natCast_eq_zero_iff]
  exact Nat.not_dvd_of_pos_of_lt hpos hlt

theorem two_ne_zero_mod_p : (2 : ZMod p) ≠ 0 := natCast_ne_zero_of_lt_p (n := 2) (by decide) (by decide +kernel)

theorem curve_discriminant_ne_zero : curve.Δ ≠ 0 := by
  have hΔ : curve.Δ = -((21168 : ℕ) : ZMod p) := by
    simp only [Δ, b₂, b₄, b₆, b₈, curve]
    push_cast
    ring
  rw [hΔ, neg_ne_zero]
  exact natCast_ne_zero_of_lt_p (by decide) (by decide +kernel)

/-- The invariant of a point register (R23) says that it holds a point of the group. -/
theorem Point.ok_iff_represents {P : Point} : P.Ok ↔ ∃ A, Represents P A := by
  cases P with
  | infinity => exact iff_of_true trivial ⟨0, rfl⟩
  | coordinates x y =>
    constructor
    · rintro ⟨cx, cy, heq⟩
      have hns := (curve.equation_iff_nonsingular_of_Δ_ne_zero curve_discriminant_ne_zero).mp
        ((curve_equation_iff x y).mpr heq)
      exact ⟨_, represents_some hns cx cy rfl rfl⟩
    · rintro ⟨_, cx, cy, hns, -⟩
      exact ⟨cx, cy, (curve_equation_iff x y).mp hns.1⟩

section
variable [Fact p.Prime]

/-- The last line that R261 and R262 share is the sum of two points that are not opposite, when `s` is the slope of
the line through them. -/
theorem represents_chord {x₁ y₁ x₂ y₂ s x₃ : W256} (h₁ : curve.Nonsingular (toField x₁) (toField y₁))
    (h₂ : curve.Nonsingular (toField x₂) (toField y₂))
    (hxy : ¬(toField x₁ = toField x₂ ∧ toField y₁ = curve.negY (toField x₂) (toField y₂)))
    (cx₁ : Canonical x₁) (cy₁ : Canonical y₁) (cx₃ : Canonical x₃)
    (hs : toField s = curve.slope (toField x₁) (toField x₂) (toField y₁) (toField y₂))
    (hx₃ : toField x₃ = toField s ^ 2 - toField x₁ - toField x₂) :
    Represents (chord s x₁ y₁ x₃) (.some _ _ h₁ + .some _ _ h₂) := by
  have hX : toField x₃ = curve.addX (toField x₁) (toField x₂) (toField s) := by
    rw [hx₃]; simp [curve]
  rw [Affine.Point.add_some hxy]
  refine represents_some _ cx₃ (canonical_fsub (canonical_fmul _ _) cy₁) (hs ▸ hX) ?_
  rw [toField_fsub (canonical_fmul _ _) cy₁, toField_fmul, toField_fsub cx₁ cx₃, ← hs,
    Affine.addY, curve_negY, Affine.negAddY, ← hX]
  ring

/-- `pdbl` is the doubling of the group of the curve (R261). -/
theorem Represents.pdbl {P : Point} {A : curve.Point} (h : Represents P A) :
    ∃ R, pdbl P = .ok R ∧ Represents R (A + A) := by
  cases P with
  | infinity => obtain rfl : A = 0 := h; exact ⟨_, rfl, zero_add 0⟩
  | coordinates x y =>
    obtain ⟨cx, cy, hns, rfl⟩ := h
    rw [pdbl_coordinates]
    split
    · next hy =>
      exact ⟨_, rfl, Affine.Point.add_self_of_Y_eq (by rw [curve_negY, hy, toField_zero, neg_zero])⟩
    · next hy =>
      have hne : toField y ≠ curve.negY (toField x) (toField y) := by
        rw [curve_negY, Ne, eq_neg_iff_add_eq_zero, ← two_mul, mul_eq_zero, not_or]
        exact ⟨two_ne_zero_mod_p, toField_ne_zero cy hy⟩
      obtain ⟨s, hfdiv, hs⟩ := toField_fdiv (a := fsmul 3 (fmul x x)) (canonical_fsmul 2 y)
        (fsmul_two_ne_zero cy hy)
      rw [hfdiv]
      refine ⟨_, rfl, represents_chord hns hns (fun e => hne e.2) cx cy
        (canonical_fsub (canonical_fmul _ _) (canonical_fsmul _ _)) ?_ ?_⟩
      · rw [hs, toField_fsmul, toField_fsmul, toField_fmul, Affine.slope_of_Y_ne rfl hne, curve_negY]
        simp only [curve]
        push_cast
        ring
      · rw [toField_fsub (canonical_fmul _ _) (canonical_fsmul _ _), toField_fmul, toField_fsmul]
        push_cast
        ring

/-- `padd` is the addition of the group of the curve (R262). -/
theorem Represents.padd {P Q : Point} {A B : curve.Point} (hP : Represents P A) (hQ : Represents Q B) :
    ∃ R, padd P Q = .ok R ∧ Represents R (A + B) := by
  cases P with
  | infinity => obtain rfl : A = 0 := hP; exact ⟨Q, rfl, (zero_add B).symm ▸ hQ⟩
  | coordinates x₁ y₁ =>
    cases Q with
    | infinity => obtain rfl : B = 0 := hQ; exact ⟨_, rfl, (add_zero A).symm ▸ hP⟩
    | coordinates x₂ y₂ =>
      rw [padd_coordinates]
      obtain ⟨cx₁, cy₁, h₁, rfl⟩ := id hP
      obtain ⟨cx₂, cy₂, h₂, rfl⟩ := hQ
      by_cases hx : x₁ = x₂
      · subst hx
        rw [if_pos rfl]
        by_cases hy : y₁ = y₂
        · subst hy
          rw [if_pos rfl]
          split
          · exact hP.pdbl
          · next hy0 =>
            refine ⟨_, rfl, Affine.Point.add_self_of_Y_eq ?_⟩
            rw [curve_negY, not_not.mp hy0, toField_zero, neg_zero]
        · rw [if_neg hy]
          have hopp := (Affine.Y_eq_of_X_eq h₁.1 h₂.1 rfl).resolve_left
            ((toField_inj cy₁ cy₂).not.mpr hy)
          exact ⟨_, rfl, Affine.Point.add_of_Y_eq rfl hopp⟩
      · rw [if_neg hx]
        have hne : toField x₁ ≠ toField x₂ := (toField_inj cx₁ cx₂).not.mpr hx
        obtain ⟨s, hfdiv, hs⟩ := toField_fdiv (a := fsub y₂ y₁) (canonical_fsub cx₂ cx₁)
          (fsub_ne_zero cx₂ cx₁ (Ne.symm hx))
        rw [hfdiv]
        refine ⟨_, rfl, represents_chord h₁ h₂ (fun e => hne e.1) cx₁ cy₁
          (canonical_fsub (canonical_fsub (canonical_fmul _ _) cx₁) cx₂) ?_ ?_⟩
        · rw [hs, toField_fsub cy₂ cy₁, toField_fsub cx₂ cx₁, Affine.slope_of_X_ne hne,
            ← neg_sub, ← neg_sub (toField x₁), neg_div_neg_eq]
        · rw [toField_fsub (canonical_fsub (canonical_fmul _ _) cx₁) cx₂, toField_fsub (canonical_fmul _ _) cx₁,
            toField_fmul]
          ring

/-- The loop of R292 adds the `r`-fold of the running point to the accumulator. -/
theorem Represents.pmulLoop {acc run : Point} {A B : curve.Point} {fuel r : ℕ} (hacc : Represents acc A)
    (hrun : Represents run B) (hr : r < 2 ^ fuel) :
    ∃ R, pmulLoop fuel r acc run = .ok R ∧ Represents R (A + r • B) := by
  induction fuel generalizing r acc run A B with
  | zero =>
    obtain rfl : r = 0 := by omega
    exact ⟨acc, rfl, by rwa [zero_nsmul, add_zero]⟩
  | succ fuel ih =>
    unfold Sys2Proof.Machine.pmulLoop
    by_cases h0 : r = 0
    · subst h0
      exact ⟨acc, rfl, by rwa [zero_nsmul, add_zero]⟩
    · obtain ⟨acc', hacc', racc'⟩ : ∃ acc', (if r % 2 = 1 then Machine.padd acc run else .ok acc) = .ok acc' ∧
          Represents acc' (A + (r % 2) • B) := by
        rcases Nat.mod_two_eq_zero_or_one r with h | h
        · exact ⟨acc, by simp [h], by rwa [h, zero_nsmul, add_zero]⟩
        · rw [h, if_pos rfl, one_nsmul]
          exact hacc.padd hrun
      obtain ⟨run', hrun', rrun'⟩ := hrun.padd hrun
      obtain ⟨R, hR, rR⟩ := ih racc' rrun' (r := r / 2) (by rw [pow_succ] at hr; omega)
      have hsum : A + (r % 2) • B + (r / 2) • (B + B) = A + r • B := by
        rw [add_assoc, ← two_nsmul, ← mul_nsmul', ← add_nsmul, mul_comm, Nat.mod_add_div]
      rw [if_neg h0, hacc', hrun']
      exact ⟨R, hR, hsum ▸ rR⟩

/-- Double-and-add of a scalar of at most 256 bits, as `pmul` starts it (R292). -/
theorem Represents.pmulLoop_infinity {P : Point} {A : curve.Point} {r : ℕ} (h : Represents P A) (hr : r < 2 ^ 256) :
    ∃ R, Machine.pmulLoop 256 r .infinity P = .ok R ∧ Represents R (r • A) := by
  simpa only [zero_add] using (represents_infinity.mpr rfl).pmulLoop h hr

end

end Sys2Proof.Machine
end

section
/-! SUPPORT. The order of the group (R9): the curve has `N` points, so `N` times a point is `Infinity`, and `pmul` is
the multiplication of the group by an integer. -/

namespace Sys2Proof.Machine

open Sys2Proof.Config (p N)
open WeierstrassCurve

theorem N_lt : N < 2 ^ 256 := by decide +kernel

theorem ok_generator : generator.Ok :=
  ⟨by decide +kernel, by decide +kernel, by decide +kernel⟩

/-- Double-and-add of `N` on the generator, evaluated step by step: the one fact about the numerals of R9 and R10 that
the order of the group rests on. -/
theorem pmulLoop_N_generator : pmulLoop 256 N .infinity generator = .ok .infinity := by decide +kernel

/-- Settles O29, by evaluation. -/
theorem workedExamples : Obligations.WorkedExamples :=
  ⟨by decide +kernel, by decide +kernel, pmulLoop_N_generator⟩

section
variable [Fact p.Prime]

/-- Every non-zero cube is a root of `X ^ ((p - 1) / 3) = 1`, and 7 is not. -/
theorem cube_ne_seven (z : ZMod p) : z ^ 3 ≠ 7 := by
  intro hz
  have h7 : (7 : ZMod p) ≠ 0 := natCast_ne_zero_of_lt_p (n := 7) (by decide) (by decide +kernel)
  have hz0 : z ≠ 0 := by
    rintro rfl
    exact h7 (by rw [← hz, zero_pow three_ne_zero])
  have hpow : (7 : ZMod p) ^ ((p - 1) / 3) = 1 := by
    rw [← hz, ← pow_mul, show 3 * ((p - 1) / 3) = p - 1 by decide +kernel, ZMod.pow_card_sub_one_eq_one hz0]
  have hmod : 7 ^ ((p - 1) / 3) % p = 1 % p := by
    exact_mod_cast (ZMod.natCast_eq_natCast_iff' (7 ^ ((p - 1) / 3)) 1 p).mp (by exact_mod_cast hpow)
  rw [← modExp_eq p (fuel := 256) 7 (by decide +kernel)] at hmod
  exact absurd hmod (by decide +kernel)

/-- No point of the curve has `y = 0` (R268), for `-7` is no cube. -/
theorem curve_y_ne_zero {x y : ZMod p} (h : curve.Equation x y) : y ≠ 0 := by
  rintro rfl
  rw [Affine.equation_iff] at h
  simp only [curve] at h
  exact cube_ne_seven (-x) (by linear_combination h)

theorem eq_zero_of_add_self_eq_zero {A : curve.Point} (h : A + A = 0) : A = 0 := by
  cases A with
  | zero => rfl
  | some x y hns =>
    rw [add_eq_zero_iff_eq_neg, Affine.Point.neg_some] at h
    obtain ⟨-, hy⟩ := (Affine.Point.some.injEq ..).mp h
    rw [curve_negY, eq_neg_iff_add_eq_zero, ← two_mul, mul_eq_zero] at hy
    exact absurd (hy.resolve_left two_ne_zero_mod_p) (curve_y_ne_zero hns.1)

end

/-- A point by its `x` and the parity of its `y`, which tells `y` from `-y`. -/
def pointCode : curve.Point → Option (ZMod p × Bool)
  | .zero => none
  | .some x y _ => some (x, y.val % 2 == 1)

section
variable [Fact p.Prime]

theorem val_neg_parity {y : ZMod p} (hy : y ≠ 0) : ((-y).val % 2 == 1) ≠ (y.val % 2 == 1) := by
  have : NeZero y := ⟨hy⟩
  have hlt := y.val_lt
  have hodd := p_odd
  rw [ZMod.val_neg_of_ne_zero]
  simp only [ne_eq, beq_eq_beq]
  omega

theorem pointCode_injective : Function.Injective pointCode := by
  intro A B hAB
  cases A with
  | zero =>
    cases B with
    | zero => rfl
    | some x₂ y₂ h₂ => simp [pointCode] at hAB
  | some x₁ y₁ h₁ =>
    cases B with
    | zero => simp [pointCode] at hAB
    | some x₂ y₂ h₂ =>
      simp only [pointCode, Option.some.injEq, Prod.mk.injEq] at hAB
      obtain ⟨rfl, hparity⟩ := hAB
      obtain rfl | hneg := Affine.Y_eq_of_X_eq h₁.1 h₂.1 rfl
      · rfl
      · rw [hneg, curve_negY] at hparity
        exact absurd hparity (val_neg_parity (curve_y_ne_zero h₂.1))

theorem finite_curve_points : Finite curve.Point := .of_injective _ pointCode_injective

theorem card_curve_points_le : Nat.card curve.Point ≤ 2 * p + 1 := by
  have h := Nat.card_le_card_of_injective _ pointCode_injective
  simpa [Nat.mul_comm] using h

/-- The generator has order `N` in the group of the curve (R9, R10). -/
theorem exists_point_of_order_N : ∃ G : curve.Point, addOrderOf G = N := by
  have : Fact N.Prime := ⟨N_prime⟩
  obtain ⟨G, hG⟩ := Point.ok_iff_represents.mp ok_generator
  refine ⟨G, addOrderOf_eq_prime ?_ ?_⟩
  · obtain ⟨R, hR, rR⟩ := hG.pmulLoop_infinity N_lt
    rw [pmulLoop_N_generator, Except.ok.injEq] at hR
    exact represents_infinity.mp (hR ▸ rR)
  · rintro rfl
    exact absurd (hG.unique (represents_infinity.mpr rfl)) (by simp [generator])

/-- The curve has `N` points: a multiple of `N`, no even number, and less than `3 * N`. -/
theorem card_curve_points : Nat.card curve.Point = N := by
  have := finite_curve_points
  obtain ⟨G, hG⟩ := exists_point_of_order_N
  obtain ⟨k, hk⟩ : N ∣ Nat.card curve.Point := hG ▸ addOrderOf_dvd_natCard G
  have hle := card_curve_points_le
  have hlt : 2 * p + 1 < N * 3 := by decide +kernel
  have hk3 : k < 3 := by
    by_contra hge
    exact absurd (Nat.mul_le_mul_left N (not_lt.mp hge)) (by omega)
  have hodd : ¬ 2 ∣ Nat.card curve.Point := by
    intro h2
    obtain ⟨A, hA⟩ := exists_prime_addOrderOf_dvd_card' 2 h2
    have hA2 : A + A = 0 := by rw [← two_nsmul, ← hA, addOrderOf_nsmul_eq_zero]
    rw [eq_zero_of_add_self_eq_zero hA2, addOrderOf_zero] at hA
    omega
  have hpos : 0 < Nat.card curve.Point := Nat.card_pos
  interval_cases k <;> omega

/-- The group has `N` elements, so `N` annihilates it. -/
theorem N_nsmul_eq_zero (A : curve.Point) : N • A = 0 := by
  rw [← card_curve_points]
  exact card_nsmul_eq_zero'

/-- `pmul` is the multiplication by an integer in the group (R292): the reduction of the scalar modulo `N` does not
show. -/
theorem Represents.pmul {P : Point} {A : curve.Point} (h : Represents P A) (k : ℤ) :
    ∃ R, pmul P k = .ok R ∧ Represents R (k • A) := by
  obtain ⟨R, hR, rR⟩ := h.pmulLoop_infinity ((reduceScalar_lt k).trans N_lt)
  refine ⟨R, hR, ?_⟩
  have hk : k • A = (reduceScalar k : ℤ) • A := by
    rw [reduceScalar_eq]
    conv_lhs => rw [← Int.emod_add_mul_ediv k N, add_zsmul, mul_comm, mul_zsmul, natCast_zsmul, N_nsmul_eq_zero,
      zsmul_zero, add_zero]
  rwa [hk, natCast_zsmul]

end

/-- Settles O40: the group of the curve has `N` elements, and the model's group law is its addition. -/
theorem everyPointHasOrderN : Obligations.EveryPointHasOrderN := by
  unfold Obligations.EveryPointHasOrderN
  have : Fact p.Prime := ⟨p_prime⟩
  intro P hP
  obtain ⟨A, hA⟩ := Point.ok_iff_represents.mp hP
  constructor
  · obtain ⟨R, hR, rR⟩ := hA.pmulLoop_infinity N_lt
    rw [N_nsmul_eq_zero] at rR
    rw [hR, rR.unique (represents_infinity.mpr rfl)]
  · rintro x y rfl
    obtain ⟨R, hR, rR⟩ := hA.pmul (-1)
    rw [neg_one_zsmul] at rR
    rw [hR, rR.unique hA.fneg]

end Sys2Proof.Machine
end

section
/-! SUPPORT. A command in flight completes (R14): no event but a reset disturbs it, and the sequencer's turn comes. -/

namespace Sys2Proof.Machine

theorem completeP_next_of_ok {s : State} {n : Nibble} {r : Except ErrorKind Point}
    (h : ∃ R, r = .ok R ∧ R.Canonical) : ∃ t, s.completeP n r = .next t := by
  obtain ⟨R, rfl, -⟩ := h
  exact ⟨_, rfl⟩

theorem execPnew_next (rd ra rb : Nibble) (hx hy : Bool) (s : State) : ∃ t, execPnew rd ra rb hx hy s = .next t := by
  unfold execPnew
  split
  · exact ⟨_, rfl⟩
  · split <;> exact ⟨_, rfl⟩
  · exact ⟨_, rfl⟩
  · exact ⟨_, rfl⟩

/-- Every command completes while the point registers hold canonical coordinates: only the group law can raise
(R265), and on those it does not. -/
theorem exec_next_of_canonical (i : Instr) {s : State} (h : ∀ j : Fin 8, s.pt[j].Canonical) :
    ∃ t, exec i s = .next t := by
  cases i with
  | pnew rd ra rb hx hy => exact execPnew_next rd ra rb hx hy s
  | pdbl rd ra => exact completeP_next_of_ok (pdbl_ok (h _))
  | padd rd ra rb => exact completeP_next_of_ok (padd_ok (h _) (h _))
  | pmul rd ra rb => exact completeP_next_of_ok (pmul_ok (h _) _)
  | _ => exact ⟨_, rfl⟩

/-- A completion, with success or with an error, ends the command and records its word (R316, R318). -/
structure Completed (w : Word) (t : State) : Prop where
  busy : t.busy = false
  done : t.done = true
  lastcmd : t.lastcmd = w

theorem Completion.completed {i : Instr} {s t : State} (h : Completion i s t) : Completed s.cur t := by
  cases h <;> exact ⟨rfl, rfl, rfl⟩

/-- The command word `w` is in flight, nothing keeps it from completing, and `events` are still to come. -/
structure InFlight (w : Word) (events : List Event) (s : State) : Prop where
  busy : s.busy = true
  hreset : s.hreset = false
  cur : s.cur = w
  points : ∀ j : Fin 8, s.pt[j].Canonical
  port : s.port = events

/-- An event that abandons no command: neither an edge of the reset line nor a soft reset (R351, R352). -/
def Event.NoReset (e : Event) : Prop :=
  e ≠ .assertReset ∧ e ≠ .releaseReset ∧ ∀ v : Word, e = .write (indexOf 0x008) v → v.getLsbD 0 = false

/-- The only offset whose location is `CTRL` (R62). -/
theorem locate_ctrl : ∀ ix : WordIndex, locate ix = .ctrl → ix = indexOf 0x008 := by decide +kernel

namespace InFlight

variable {w : Word} {events : List Event} {s t : State}

theorem congr (h : InFlight w events s) (hb : t.busy = s.busy) (hh : t.hreset = s.hreset) (hc : t.cur = s.cur)
    (hpt : t.pt = s.pt) (hp : t.port = s.port) : InFlight w events t :=
  ⟨hb.trans h.busy, hh.trans h.hreset, hc.trans h.cur, hpt ▸ h.points, hp.trans h.port⟩

theorem readEffect (h : InFlight w events s) (ix : WordIndex) : InFlight w events (s.readEffect ix) := by
  rcases readEffect_cases s ix with e | e | e
  · exact e.symm ▸ h
  · exact e.symm ▸ h.congr rfl rfl rfl rfl rfl
  · exact e.symm ▸ h.congr rfl rfl rfl rfl rfl

/-- A write to a location leaves a command in flight alone, if it is no soft reset: `CMD` accepts nothing while
`BUSY = 1` (R47). -/
theorem writeLocation (h : InFlight w events s) {v : Word} {l : Location} (hv : l = .ctrl → v.getLsbD 0 = false) :
    InFlight w events (s.writeLocation v l) := by
  cases l with
  | ctrl =>
    have hnone : s.writeLocation v .ctrl = s := if_neg (by rw [hv rfl]; exact Bool.false_ne_true)
    exact hnone.symm ▸ h
  | cmd =>
    have hdrop : s.writeLocation v .cmd = s.setSticky busyAccBit := if_pos h.busy
    exact hdrop.symm ▸ h.congr rfl rfl rfl rfl rfl
  | _ => exact h.congr rfl rfl rfl rfl rfl

theorem writeEffect (h : InFlight w events s) {ix : WordIndex} {v : Word}
    (hv : ix = indexOf 0x008 → v.getLsbD 0 = false) : InFlight w events (s.writeEffect ix v) := by
  unfold State.writeEffect
  split
  · exact h.congr rfl rfl rfl rfl rfl
  · exact h.writeLocation fun hl => hv (locate_ctrl ix hl)

theorem hostRead (h : InFlight w events s) (ix : WordIndex) : InFlight w events (s.hostRead ix) := by
  rw [State.hostRead, h.hreset]
  exact (h.readEffect ix).congr rfl rfl rfl rfl rfl

theorem hostWrite (h : InFlight w events s) {ix : WordIndex} {v : Word}
    (hv : ix = indexOf 0x008 → v.getLsbD 0 = false) : InFlight w events (s.hostWrite ix v) := by
  rw [State.hostWrite, h.hreset]
  exact (h.writeEffect hv).congr rfl rfl rfl rfl rfl

/-- The sequencer's turn completes the command in flight. -/
theorem sequencerTurn (h : InFlight w events s) : ∃ t, sequencerTurn s = .next t ∧ Completed w t := by
  obtain ⟨hidle, -⟩ | ⟨-, -, hturn⟩ := sequencerTurn_cases s
  · simp [h.busy, h.hreset] at hidle
  · obtain ⟨i, -, hi⟩ | ⟨-, hi⟩ := completeStep_cases s
    · obtain ⟨t, ht⟩ := exec_next_of_canonical i h.points
      exact ⟨t, by rw [hturn, hi, ht], h.cur ▸ (exec_completion ht).completed⟩
    · exact ⟨_, hturn.trans hi, rfl, rfl, h.cur⟩

/-- An event either leaves the command in flight or is the turn of the sequencer, which completes it. -/
theorem performEvent (h : InFlight w events s) {e : Event} (he : e.NoReset) :
    ∃ t, performEvent e s = .next t ∧ (InFlight w events t ∨ Completed w t) := by
  obtain ⟨hassert, hrelease, hctrl⟩ := he
  cases e with
  | read ix => exact ⟨_, rfl, .inl (h.hostRead ix)⟩
  | write ix v => exact ⟨_, rfl, .inl (h.hostWrite fun hix => hctrl v (by rw [hix]))⟩
  | sequencer =>
    obtain ⟨t, ht, hdone⟩ := h.sequencerTurn
    exact ⟨t, ht, .inr hdone⟩
  | assertReset => exact absurd rfl hassert
  | releaseReset => exact absurd rfl hrelease

end InFlight

theorem step_of_nil {s : State} (hp : s.port = []) : step s = sequencerTurn s := by
  rw [step, performNext, hp]

theorem step_of_cons {s : State} {e : Event} {rest : List Event} (hp : s.port = e :: rest) :
    step s = performEvent e { s with port := rest } := by
  rw [step, performNext, hp]

theorem core_run_succ {s t : State} (n : ℕ) (h : step s = .next t) :
    Host.Core.run core (n + 1) s = Host.Core.run core n t := by
  have hcore : core.step s = .next t := h
  simp only [Host.Core.run, hcore]

/-- The events to come are taken one by one until one of them, or the host's silence after the last, gives the
sequencer its turn. -/
theorem InFlight.completes {w : Word} {events : List Event} {s : State} (h : InFlight w events s)
    (hev : ∀ e ∈ events, e.NoReset) :
    ∃ n t, n ≤ events.length + 1 ∧ Host.Core.run core n s = .next t ∧ Completed w t := by
  induction events generalizing s with
  | nil =>
    obtain ⟨t, ht, hdone⟩ := h.sequencerTurn
    exact ⟨1, t, le_rfl, core_run_succ 0 ((step_of_nil h.port).trans ht), hdone⟩
  | cons e rest ih =>
    have hrest : InFlight w rest { s with port := rest } := ⟨h.busy, h.hreset, h.cur, h.points, rfl⟩
    obtain ⟨t, ht, hnext⟩ := hrest.performEvent (hev e List.mem_cons_self)
    have hstep : step s = .next t := (step_of_cons h.port).trans ht
    obtain hflight | hdone := hnext
    · obtain ⟨n, u, hn, hrun, hu⟩ := ih hflight fun e' he' => hev e' (List.mem_cons_of_mem e he')
      exact ⟨n + 1, u, Nat.succ_le_succ hn, (core_run_succ n hstep).trans hrun, hu⟩
    · exact ⟨1, t, by simp, core_run_succ 0 hstep, hdone⟩

/-- Settles O49, by induction on the coming events. -/
theorem acceptedCommandCompletes : Obligations.AcceptedCommandCompletes := by
  unfold Obligations.AcceptedCommandCompletes
  intro s hinv hbusy hhreset hevents
  have hflight : InFlight s.cur s.port s := ⟨hbusy, hhreset, rfl, fun j => (hinv.points j).canonical, rfl⟩
  obtain ⟨n, t, hn, hrun, hdone⟩ := hflight.completes hevents
  exact ⟨n, t, hn, hrun, hdone.busy, hdone.done, hdone.lastcmd⟩

end Sys2Proof.Machine
end

section
/-! SUPPORT. The invariant of the machine (R21, R23, R353): it holds at reset, the group law keeps points on the curve
(R266), and every event keeps all of it. -/

namespace Sys2Proof.Machine

open Sys2Proof.Config (p)

/-! ### Points that are Infinity or on the curve -/

theorem canonical_b : Canonical Config.b := by decide +kernel

theorem canonical_lhs (y : W256) : Canonical (lhs y) := canonical_fmul y y

theorem canonical_rhs (x : W256) : Canonical (rhs x) := canonical_fadd (canonical_fmul _ _) canonical_b

theorem lhs_toNat (y : W256) : (lhs y).toNat = y.toNat * y.toNat % p := fmul_toNat y y

theorem rhs_toNat (x : W256) : (rhs x).toNat = (x.toNat * x.toNat * x.toNat + 7) % p := by
  rw [rhs, fadd_toNat (canonical_fmul _ _) canonical_b, fmul_toNat, fmul_toNat, Nat.mod_mul_mod, Nat.mod_add_mod]
  rfl

/-- The curve test of the model is the curve equation modulo `p`, for every two values (R230). -/
theorem onCurve_iff (x y : W256) :
    onCurve x y = true ↔ y.toNat * y.toNat % p = (x.toNat * x.toNat * x.toNat + 7) % p := by
  rw [onCurve, beq_iff_eq, ← BitVec.toNat_inj, lhs_toNat, rhs_toNat]

theorem ok_of_onCurve {x y : W256} (hx : Canonical x) (hy : Canonical y) (h : onCurve x y = true) :
    (Point.coordinates x y).Ok := ⟨hx, hy, (onCurve_iff x y).mp h⟩

theorem canonical_of_pointX {P : Point} {v : W256} (hP : P.Ok) (h : pointX P = .ok v) : Canonical v := by
  cases P with
  | infinity => cases h
  | coordinates x y => cases h; exact hP.1

theorem canonical_of_pointY {P : Point} {v : W256} (hP : P.Ok) (h : pointY P = .ok v) : Canonical v := by
  cases P with
  | infinity => cases h
  | coordinates x y => cases h; exact hP.2.1

/-- A result that represents a point of the group of the curve satisfies the invariant (R23). -/
theorem result_ok_of_represents {r : Except ErrorKind Point} {A : curve.Point}
    (h : ∃ R, r = .ok R ∧ Represents R A) : ∃ R, r = .ok R ∧ R.Ok := by
  obtain ⟨R, hR, rR⟩ := h
  exact ⟨R, hR, Point.ok_iff_represents.mpr ⟨A, rR⟩⟩

theorem padd_keepsOk {P Q : Point} (hP : P.Ok) (hQ : Q.Ok) : ∃ R, padd P Q = .ok R ∧ R.Ok := by
  have : Fact p.Prime := ⟨p_prime⟩
  obtain ⟨A, hA⟩ := Point.ok_iff_represents.mp hP
  obtain ⟨B, hB⟩ := Point.ok_iff_represents.mp hQ
  exact result_ok_of_represents (hA.padd hB)

theorem pdbl_keepsOk {P : Point} (hP : P.Ok) : ∃ R, pdbl P = .ok R ∧ R.Ok := by
  have : Fact p.Prime := ⟨p_prime⟩
  obtain ⟨A, hA⟩ := Point.ok_iff_represents.mp hP
  exact result_ok_of_represents hA.pdbl

theorem pmul_keepsOk {P : Point} (hP : P.Ok) (k : ℤ) : ∃ R, pmul P k = .ok R ∧ R.Ok := by
  have : Fact p.Prime := ⟨p_prime⟩
  obtain ⟨A, hA⟩ := Point.ok_iff_represents.mp hP
  exact result_ok_of_represents (hA.pmul k)

/-- Settles O35: the group law of the model is the addition of the group of the curve, and what represents a point of
that group satisfies the invariant. -/
theorem groupLawStaysOnCurve : Obligations.GroupLawStaysOnCurve := by
  unfold Obligations.GroupLawStaysOnCurve
  intro P Q k hP hQ
  exact ⟨padd_keepsOk hP hQ, pdbl_keepsOk hP, pmul_keepsOk hP k⟩

/-! ### What each named update needs to keep the invariant -/

theorem ErrorKind.code_le (e : ErrorKind) : e.code.toNat ≤ 6 := by cases e <;> decide

/-- Every bit of `ESTICKY` that the word sets is a named one (R45). -/
def OnlyNamedBits (bits : Word) : Prop := bits &&& ~~~stickyMask = 0#32

theorem ErrorKind.onlyNamedBits_stickyBit (e : ErrorKind) : OnlyNamedBits e.stickyBit := by
  cases e <;> simp [OnlyNamedBits, ErrorKind.stickyBit, ErrorKind.code, stickyMask]

theorem stickyMask_getLsbD (n : ℕ) : stickyMask.getLsbD n = decide (n ∈ [1, 2, 3, 4, 5, 6, 8, 9]) := by
  by_cases h : n < 32
  · interval_cases n <;> rfl
  · rw [BitVec.getLsbD_of_ge _ _ (by omega), eq_comm, decide_eq_false_iff_not]
    simp only [List.mem_cons, List.not_mem_nil, or_false]
    omega

theorem onlyNamedBits_iff {bits : Word} :
    OnlyNamedBits bits ↔ ∀ n, n ∉ [1, 2, 3, 4, 5, 6, 8, 9] → bits.getLsbD n = false := by
  constructor
  · intro h n hn
    have hbit : (bits &&& ~~~stickyMask).getLsbD n = false := h ▸ BitVec.getLsbD_zero
    by_cases h32 : n < 32
    · simpa only [BitVec.getLsbD_and, BitVec.getLsbD_not, stickyMask_getLsbD, hn, h32, decide_true, decide_false,
        Bool.not_false, Bool.and_true] using hbit
    · exact BitVec.getLsbD_of_ge _ _ (by omega)
  · intro h
    refine BitVec.eq_of_getLsbD_eq fun n _ => ?_
    by_cases hn : n ∈ [1, 2, 3, 4, 5, 6, 8, 9]
    · simp [stickyMask_getLsbD, hn]
    · simp [h n hn]

theorem OnlyNamedBits.or {a b : Word} (ha : OnlyNamedBits a) (hb : OnlyNamedBits b) : OnlyNamedBits (a ||| b) :=
  onlyNamedBits_iff.mpr fun n hn => by
    rw [BitVec.getLsbD_or, onlyNamedBits_iff.mp ha n hn, onlyNamedBits_iff.mp hb n hn, Bool.or_self]

theorem OnlyNamedBits.and {a : Word} (ha : OnlyNamedBits a) (b : Word) : OnlyNamedBits (a &&& b) :=
  onlyNamedBits_iff.mpr fun n hn => by
    rw [BitVec.getLsbD_and, onlyNamedBits_iff.mp ha n hn, Bool.false_and]

section
variable {s : State} (h : s.Inv)
include h

theorem State.Inv.succeed : s.succeed.Inv :=
  { h with
    code := Nat.zero_le 6
    exclusive := by simp }

theorem State.Inv.fail (e : ErrorKind) : (s.fail e).Inv :=
  { h with
    sticky := OnlyNamedBits.or h.sticky e.onlyNamedBits_stickyBit
    code := e.code_le
    exclusive := by simp }

theorem State.Inv.failNotOnCurve {l r : W256} (hl : Canonical l) (hr : Canonical r) : (s.failNotOnCurve l r).Inv :=
  { h.fail .notOnCurve with
    diagl := hl
    diagr := hr }

theorem State.Inv.writeF (n : Nibble) {v : W256} (hv : Canonical v) : (s.writeF n v).Inv :=
  { h with
    fields := fun i => by
      rw [writeF_get]
      split
      · exact hv
      · exact h.fields i }

theorem State.Inv.writeP (n : Nibble) {P : Point} (hP : P.Ok) : (s.writeP n P).Inv :=
  { h with
    points := fun i => by
      rw [writeP_get]
      split
      · exact hP
      · exact h.points i }

theorem State.Inv.writeT (b : Bool) : (s.writeT b).Inv := { h with }

theorem State.Inv.setK (i : Fin 4) (r : IntReg) : (s.setK i r).Inv := { h with }

theorem State.Inv.setPort (port : List Event) (reply : Reply) : ({ s with port := port, reply := reply } : State).Inv :=
  { h with }

theorem State.Inv.setSticky {bits : Word} (hbits : OnlyNamedBits bits) : (s.setSticky bits).Inv :=
  { h with sticky := OnlyNamedBits.or h.sticky hbits }

theorem State.Inv.clearSticky (v : Word) : (s.clearSticky v).Inv :=
  { h with sticky := OnlyNamedBits.and h.sticky _ }

theorem State.Inv.accept (w : Word) : (s.accept w).Inv :=
  { h with exclusive := by simp }

end

/-- The reset values satisfy the invariant, whatever the port and the line are. -/
theorem ResetValues.inv {s : State} (h : ResetValues s) : s.Inv where
  fields i := h.f i ▸ canonical_zero
  points i := h.pt i ▸ trivial
  sticky := by rw [h.esticky]; rfl
  code := by rw [h.code]; decide
  exclusive := by simp [h.busy]
  diagl := h.diagl ▸ canonical_zero
  diagr := h.diagr ▸ canonical_zero

/-- The values of the reset table do not speak of the port, its answer or the reset line. -/
theorem ResetValues.setSurroundings {s : State} (h : ResetValues s) (hreset : Bool) (port : List Event)
    (reply : Reply) : ResetValues { s with hreset := hreset, port := port, reply := reply } := { h with }

theorem assertHardReset_resetValues (s : State) : ResetValues s.assertHardReset :=
  (resetBlock_resetValues s).setSurroundings true s.port .silent

theorem releaseHardReset_resetValues (s : State) : ResetValues s.releaseHardReset :=
  (resetBlock_resetValues s).setSurroundings false s.port .silent

theorem resetBlock_inv (s : State) : s.resetBlock.Inv := (resetBlock_resetValues s).inv

/-- Settles O59: every register has its reset value. -/
theorem invariantAtReset : Obligations.InvariantAtReset := resetBlock_inv State.reset

/-! ### Every event keeps the invariant -/

section
variable {s : State} (h : s.Inv)
include h

theorem completeF_keepsInv (n : Nibble) {r : Except ErrorKind W256} (hr : ∀ v, r = .ok v → Canonical v) :
    (s.completeF n r).Inv := by
  obtain ⟨v, hv, e⟩ | ⟨k, -, e⟩ := completeF_cases s n r <;> rw [e]
  · exact (h.writeF n (hr v hv)).succeed
  · exact h.fail k

theorem completeF_ok_keepsInv (n : Nibble) {v : W256} (hv : Canonical v) : (s.completeF n (.ok v)).Inv :=
  (h.writeF n hv).succeed

theorem completeP_keepsInv (n : Nibble) {r : Except ErrorKind Point} (hr : ∃ R, r = .ok R ∧ R.Ok) :
    ∃ t, s.completeP n r = .next t ∧ t.Inv := by
  obtain ⟨R, rfl, hR⟩ := hr
  exact ⟨_, rfl, (h.writeP n hR).succeed⟩

theorem completeT_keepsInv (b : Bool) : (s.completeT b).Inv := (h.writeT b).succeed

/-- PNEW writes a point only after the curve test, and its diagnostics are remainders modulo `p` (R48, R233). -/
theorem execPnew_keepsInv (rd ra rb : Nibble) (hx hy : Bool) :
    ∃ t, execPnew rd ra rb hx hy s = .next t ∧ t.Inv := by
  have hcanon {present : Bool} {n : Nibble} {v : W256} (hv : s.readOptF present n = some v) : Canonical v := by
    cases present with
    | false => cases hv
    | true => exact Option.some.inj hv ▸ h.fields (fIdx n)
  unfold execPnew
  split
  · exact completeP_keepsInv h rd ⟨_, rfl, trivial⟩
  · next x y hx hy =>
    split
    · next hcurve => exact completeP_keepsInv h rd ⟨_, rfl, ok_of_onCurve (hcanon hx) (hcanon hy) hcurve⟩
    · exact ⟨_, rfl, h.failNotOnCurve (canonical_lhs y) (canonical_rhs x)⟩
  · exact ⟨_, rfl, h.fail _⟩
  · exact ⟨_, rfl, h.fail _⟩

/-- The completion of every command answers a state of the invariant: a value of a field unit is canonical, a point is
Infinity or on the curve. -/
theorem exec_keepsInv (i : Instr) : ∃ t, exec i s = .next t ∧ t.Inv := by
  cases i with
  | fnew rd ra => exact ⟨_, rfl, completeF_keepsInv h rd fun _ hv => (fieldNew_ok hv).2⟩
  | fzero rd => exact ⟨_, rfl, completeF_ok_keepsInv h rd canonical_zero⟩
  | fone rd => exact ⟨_, rfl, completeF_ok_keepsInv h rd canonical_one⟩
  | fmov rd ra => exact ⟨_, rfl, completeF_ok_keepsInv h rd (h.fields _)⟩
  | feq ra rb => exact ⟨_, rfl, completeT_keepsInv h _⟩
  | fadd rd ra rb => exact ⟨_, rfl, completeF_ok_keepsInv h rd (canonical_fadd (h.fields _) (h.fields _))⟩
  | fsub rd ra rb => exact ⟨_, rfl, completeF_ok_keepsInv h rd (canonical_fsub (h.fields _) (h.fields _))⟩
  | fneg rd ra => exact ⟨_, rfl, completeF_ok_keepsInv h rd (canonical_fneg (h.fields _))⟩
  | fmul rd ra rb => exact ⟨_, rfl, completeF_ok_keepsInv h rd (canonical_fmul _ _)⟩
  | fsmul rd ra rb => exact ⟨_, rfl, completeF_ok_keepsInv h rd (canonical_fsmul _ _)⟩
  | fpow rd ra rb => exact ⟨_, rfl, completeF_keepsInv h rd fun _ => canonical_of_fpow⟩
  | finv rd ra => exact ⟨_, rfl, completeF_keepsInv h rd fun _ => canonical_of_finv⟩
  | fdiv rd ra rb => exact ⟨_, rfl, completeF_keepsInv h rd fun _ => canonical_of_fdiv⟩
  | pnew rd ra rb hx hy => exact execPnew_keepsInv h rd ra rb hx hy
  | pldg rd => exact completeP_keepsInv h rd ⟨_, rfl, ok_generator⟩
  | pmov rd ra => exact completeP_keepsInv h rd ⟨_, rfl, h.points _⟩
  | pisinf ra => exact ⟨_, rfl, completeT_keepsInv h _⟩
  | pgetx rd ra => exact ⟨_, rfl, completeF_keepsInv h rd fun _ => canonical_of_pointX (h.points _)⟩
  | pgety rd ra => exact ⟨_, rfl, completeF_keepsInv h rd fun _ => canonical_of_pointY (h.points _)⟩
  | peq ra rb => exact ⟨_, rfl, completeT_keepsInv h _⟩
  | pdbl rd ra => exact completeP_keepsInv h rd (pdbl_keepsOk (h.points _))
  | padd rd ra rb => exact completeP_keepsInv h rd (padd_keepsOk (h.points _) (h.points _))
  | pmul rd ra rb => exact completeP_keepsInv h rd (pmul_keepsOk (h.points _) _)

theorem sequencerTurn_keepsInv : ∃ t, sequencerTurn s = .next t ∧ t.Inv := by
  obtain ⟨-, hidle⟩ | ⟨-, -, hturn⟩ := sequencerTurn_cases s
  · exact ⟨s, hidle, h⟩
  · obtain ⟨i, -, hi⟩ | ⟨-, hillegal⟩ := completeStep_cases s
    · rw [hturn, hi]
      exact exec_keepsInv h i
    · exact ⟨_, hturn.trans hillegal, h.fail _⟩

theorem readEffect_keepsInv (ix : WordIndex) : (s.readEffect ix).Inv := by
  obtain e | e | e := readEffect_cases s ix <;> rw [e]
  · exact h
  · exact h.setSticky rfl
  · exact h.setSticky rfl

theorem writeEffect_keepsInv (ix : WordIndex) (v : Word) : (s.writeEffect ix v).Inv := by
  obtain e | e | e | ⟨e, -⟩ | e | ⟨-, e⟩ | ⟨-, i, r, e⟩ := writeEffect_cases s ix v <;> rw [e]
  · exact h
  · exact h.setSticky rfl
  · exact h.setSticky rfl
  · exact resetBlock_inv s
  · exact h.clearSticky v
  · exact h.accept v
  · exact h.setK i r

theorem hostRead_keepsInv (ix : WordIndex) : (s.hostRead ix).Inv := by
  unfold State.hostRead
  split
  · exact h.setPort _ _
  · exact (readEffect_keepsInv h ix).setPort _ _

theorem hostWrite_keepsInv (ix : WordIndex) (v : Word) : (s.hostWrite ix v).Inv := by
  unfold State.hostWrite
  split
  · exact h.setPort _ _
  · exact (writeEffect_keepsInv h ix v).setPort _ _

theorem performEvent_keepsInv (e : Event) : ∃ t, performEvent e s = .next t ∧ t.Inv := by
  cases e with
  | read ix => exact ⟨_, rfl, hostRead_keepsInv h ix⟩
  | write ix v => exact ⟨_, rfl, hostWrite_keepsInv h ix v⟩
  | sequencer => exact sequencerTurn_keepsInv h
  | assertReset => exact ⟨_, rfl, (assertHardReset_resetValues s).inv⟩
  | releaseReset => exact ⟨_, rfl, (releaseHardReset_resetValues s).inv⟩

end

/-- Settles O60: the next event, or the sequencer's turn when none is left, keeps the invariant. -/
theorem stepKeepsInvariant : Obligations.StepKeepsInvariant := by
  unfold Obligations.StepKeepsInvariant
  intro s h
  cases hp : s.port with
  | nil => rw [step_of_nil hp]; exact sequencerTurn_keepsInv h
  | cons e rest => rw [step_of_cons hp]; exact performEvent_keepsInv (h.setPort rest s.reply) e

end Sys2Proof.Machine
end

section
/-! SUPPORT. The sequencer's turn runs the decoded command (R47, R106), and the frame of every completion (R316,
R318). -/

namespace Sys2Proof.Machine

theorem sequencerTurn_of_command {s : State} {i : Instr} (hb : s.busy = true) (hh : s.hreset = false)
    (hd : decode s.cur = .command i) : sequencerTurn s = exec i s := by
  simp [sequencerTurn, completeStep, hb, hh, hd]

/-- Settles O7: with the port empty or the sequencer's event next, the step is the sequencer's turn. -/
theorem stepRunsDecodedCommand : Obligations.StepRunsDecodedCommand := by
  unfold Obligations.StepRunsDecodedCommand
  intro s i hb hh hd
  constructor
  · intro hp
    exact (step_of_nil hp).trans (sequencerTurn_of_command hb hh hd)
  · intro rest hp
    exact (step_of_cons hp).trans (sequencerTurn_of_command hb hh hd)

theorem ErrorKind.code_ne_zero (e : ErrorKind) : e.code ≠ 0#4 := by cases e <;> decide

namespace Completion

variable {i : Instr} {s t : State} (h : Completion i s t)
include h

/-- A field register that changed is the destination of a success. -/
theorem f_ne {j : Fin 16} (hj : t.f[j] ≠ s.f[j]) : t.code = 0#4 ∧ ∃ d, destF i = some d ∧ d.toNat = j.val := by
  cases h with
  | field n v d => exact ⟨rfl, n, d, by_contra fun hne => hj ((succeeds_writeF s n v).others j (Ne.symm hne))⟩
  | _ => exact absurd rfl hj

/-- A point register that changed is the destination of a success. -/
theorem pt_ne {j : Fin 8} (hj : t.pt[j] ≠ s.pt[j]) :
    t.code = 0#4 ∧ ∃ d, destP i = some d ∧ d.toNat % 8 = j.val := by
  cases h with
  | point n Q d => exact ⟨rfl, n, d, by_contra fun hne => hj ((succeeds_writeP s n Q).others j (Ne.symm hne))⟩
  | _ => exact absurd rfl hj

/-- `T` is changed by a successful predicate only. -/
theorem flag_ne (ht : t.t ≠ s.t) : t.code = 0#4 ∧ writesT i = true := by
  cases h with
  | flag b d => exact ⟨rfl, d⟩
  | _ => exact absurd rfl ht

/-- The diagnostics are changed by `NotOnCurve` only. -/
theorem diag_ne (hd : t.diagl ≠ s.diagl ∨ t.diagr ≠ s.diagr) : t.code = 2#4 := by
  cases h with
  | notOnCurve l r d => rfl
  | _ => exact hd.elim (absurd rfl) (absurd rfl)

/-- The sticky record is changed by an error only. -/
theorem esticky_ne (he : t.esticky ≠ s.esticky) : t.code ≠ 0#4 := by
  cases h with
  | error e _ _ => exact e.code_ne_zero
  | notOnCurve l r d => exact ErrorKind.notOnCurve.code_ne_zero
  | _ => exact absurd rfl he

/-- No command writes an integer register (R26). -/
theorem k_eq : t.k = s.k := by cases h <;> rfl

theorem surroundings : SameSurroundings s t := by cases h <;> exact ⟨rfl, rfl, rfl, rfl⟩

/-- Bit `c` is the sticky bit of code `c`, and success has none (R45). -/
theorem esticky_getLsbD (n : ℕ) :
    t.esticky.getLsbD n = (s.esticky.getLsbD n || decide (n = t.code.toNat ∧ t.code ≠ 0#4)) := by
  have hfail (e : ErrorKind) : (s.esticky ||| e.stickyBit).getLsbD n =
      (s.esticky.getLsbD n || decide (n = e.code.toNat ∧ e.code ≠ 0#4)) := by
    rw [BitVec.getLsbD_or, stickyBit_getLsbD]
    simp [e.code_ne_zero]
  cases h with
  | error e _ _ => exact hfail e
  | notOnCurve l r d => exact hfail .notOnCurve
  | _ => simp

end Completion

/-- Settles O44: a register that is no destination did not change, by the five forms of a completion. -/
theorem onlyDestinationsWritten : Obligations.OnlyDestinationsWritten := by
  unfold Obligations.OnlyDestinationsWritten
  intro i s t hexec
  have h := exec_completion hexec
  obtain ⟨hbusy, hdone, hlast⟩ := h.completed
  refine ⟨fun j hj => ?_, fun j hj => ?_, h.k_eq, fun hT => ?_, h.surroundings, hlast, hbusy, hdone, fun hcode => ?_⟩
  · by_contra hne
    obtain ⟨-, d, hd, hdj⟩ := h.f_ne hne
    exact hj d hd hdj
  · by_contra hne
    obtain ⟨-, d, hd, hdj⟩ := h.pt_ne hne
    exact hj d hd hdj
  · by_contra hne
    exact absurd ((h.flag_ne hne).2.symm.trans hT) (by decide)
  · have hdiag : ¬(t.diagl ≠ s.diagl ∨ t.diagr ≠ s.diagr) := fun hd => by
      rw [h.diag_ne hd] at hcode
      exact absurd hcode (by decide)
    exact ⟨by_contra fun hne => h.esticky_ne hne hcode, by_contra fun hl => hdiag (.inl hl),
      by_contra fun hr => hdiag (.inr hr)⟩

end Sys2Proof.Machine
end

section
/-! SUPPORT. Along a step that is no reset, each register changes by its writers only (R22, R24, R26, R44 to R48): the
inversion of the step by what it can write. -/

namespace Sys2Proof.Machine

/-- The registers that only a completion or a reset writes. -/
structure KeepsRegisters (s t : State) : Prop where
  f : t.f = s.f
  pt : t.pt = s.pt
  flag : t.t = s.t
  code : t.code = s.code
  lastcmd : t.lastcmd = s.lastcmd
  diagl : t.diagl = s.diagl
  diagr : t.diagr = s.diagr

/-- The step is the sequencer's turn: its event is next, or no event is left (R13, log 1). -/
def State.SequencerNext (s : State) : Prop := s.port = [] ∨ ∃ rest, s.port = .sequencer :: rest

/-- The next event writes a word of the integer registers' part of the window, while `BUSY = 0` (R69, R74). -/
def State.WritesK (s : State) : Prop :=
  s.busy = false ∧ ∃ ix v rest, s.port = .write ix v :: rest ∧ 0x100 ≤ ix.off ∧ ix.off < 0x200

/-- The next event is a transaction of the host (R18). -/
def State.AccessNext (s : State) : Prop :=
  (∃ ix rest, s.port = .read ix :: rest) ∨ ∃ ix v rest, s.port = .write ix v :: rest

/-- What a step is, by what it can write: a completion at the sequencer's turn, a reset, or anything else, which is an
idle turn or a host access. -/
inductive StepKind (s t : State) : Prop where
  | command (i : Instr) (port : List Event) (busy : s.busy = true) (turn : s.SequencerNext)
      (decoded : decode s.cur = .command i) (completion : Completion i { s with port := port } t)
  | illegal (port : List Event) (busy : s.busy = true) (turn : s.SequencerNext)
      (fails : t = ({ s with port := port } : State).fail .illegalCommand)
  | reset (values : ResetValues t)
  | other (kept : KeepsRegisters s t) (k : t.k ≠ s.k → s.WritesK) (esticky : t.esticky ≠ s.esticky → s.AccessNext)

theorem KeepsRegisters.refl (s : State) : KeepsRegisters s s := ⟨rfl, rfl, rfl, rfl, rfl, rfl, rfl⟩

theorem KeepsRegisters.setPort {s t : State} (h : KeepsRegisters s t) (port : List Event) (reply : Reply) :
    KeepsRegisters s { t with port := port, reply := reply } := { h with }

theorem keepsRegisters_setSticky (s : State) (bits : Word) : KeepsRegisters s (s.setSticky bits) :=
  ⟨rfl, rfl, rfl, rfl, rfl, rfl, rfl⟩

theorem readEffect_keepsRegisters (s : State) (ix : WordIndex) : KeepsRegisters s (s.readEffect ix) := by
  obtain e | e | e := readEffect_cases s ix <;> rw [e]
  · exact .refl s
  · exact keepsRegisters_setSticky s _
  · exact keepsRegisters_setSticky s _

theorem readEffect_k (s : State) (ix : WordIndex) : (s.readEffect ix).k = s.k := by
  obtain e | e | e := readEffect_cases s ix <;> rw [e] <;> rfl

theorem writeEffect_keepsRegisters (s : State) (ix : WordIndex) (v : Word) :
    ResetValues (s.writeEffect ix v) ∨ KeepsRegisters s (s.writeEffect ix v) := by
  obtain e | e | e | ⟨e, -⟩ | e | ⟨-, e⟩ | ⟨-, i, r, e⟩ := writeEffect_cases s ix v <;> rw [e]
  · exact .inr (.refl s)
  · exact .inr (keepsRegisters_setSticky s _)
  · exact .inr (keepsRegisters_setSticky s _)
  · exact .inl (resetBlock_resetValues s)
  all_goals exact .inr ⟨rfl, rfl, rfl, rfl, rfl, rfl, rfl⟩

/-- The part of the window that holds the integer registers (R62). -/
theorem off_of_locate_k : ∀ (ix : WordIndex) (i : Fin 4), (locate ix = .kSign i ∨ ∃ j, locate ix = .kMag i j) →
    0x100 ≤ ix.off ∧ ix.off < 0x200 := by decide +kernel

/-- Outside the control block no access is performed while `BUSY = 1` (R74). -/
theorem busy_of_not_refuses {s : State} {ix : WordIndex} (h : s.refuses ix = false) (hoff : 0x020 ≤ ix.off) :
    s.busy = false := by
  simpa [State.refuses, hoff] using h

theorem writeCtrl_of_set {s : State} {v : Word} (hv : v.getLsbD 0 = true) : s.writeCtrl v = s.softReset := if_pos hv

theorem writeCtrl_of_clear {s : State} {v : Word} (hv : v.getLsbD 0 = false) : s.writeCtrl v = s :=
  if_neg (by rw [hv]; exact Bool.false_ne_true)

theorem writeCmd_of_busy {s : State} (v : Word) (hb : s.busy = true) : s.writeCmd v = s.setSticky busyAccBit :=
  if_pos hb

theorem writeCmd_of_idle {s : State} (v : Word) (hb : s.busy = false) : s.writeCmd v = s.accept v :=
  if_neg (by rw [hb]; exact Bool.false_ne_true)

theorem writeCmd_k (s : State) (v : Word) : (s.writeCmd v).k = s.k := by
  cases hb : s.busy with
  | true => rw [writeCmd_of_busy v hb, State.setSticky_k]
  | false => rw [writeCmd_of_idle v hb, State.accept_k]

/-- Only the locations of the integer registers are written, or everything is reset. -/
theorem writeLocation_k_ne {s : State} {v : Word} {l : Location} (h : (s.writeLocation v l).k ≠ s.k) :
    ResetValues (s.writeLocation v l) ∨ ∃ i, l = .kSign i ∨ ∃ j, l = .kMag i j := by
  cases l with
  | kMag i j => exact .inr ⟨i, .inr ⟨j, rfl⟩⟩
  | kSign i => exact .inr ⟨i, .inl rfl⟩
  | ctrl =>
    rw [State.writeLocation] at h ⊢
    cases hv : v.getLsbD 0 with
    | true => exact .inl (writeCtrl_of_set (s := s) hv ▸ resetBlock_resetValues s)
    | false => exact absurd (congrArg State.k (writeCtrl_of_clear hv)) h
  | cmd => exact absurd (writeCmd_k s v) h
  | _ => exact absurd rfl h

/-- A write changes an integer register only in their part of the window and while `BUSY = 0`, or by a reset. -/
theorem writeEffect_k_ne {s : State} {ix : WordIndex} {v : Word} (h : (s.writeEffect ix v).k ≠ s.k) :
    ResetValues (s.writeEffect ix v) ∨ (s.busy = false ∧ 0x100 ≤ ix.off ∧ ix.off < 0x200) := by
  unfold State.writeEffect at h ⊢
  split at h
  · exact absurd rfl h
  · next hr =>
    rw [if_neg hr]
    obtain hreset | ⟨i, hl⟩ := writeLocation_k_ne h
    · exact .inl hreset
    · obtain ⟨hlo, hhi⟩ := off_of_locate_k ix i hl
      exact .inr ⟨busy_of_not_refuses (Bool.not_eq_true _ ▸ hr) (by omega), hlo, hhi⟩

theorem hostRead_kind {s : State} {ix : WordIndex} {rest : List Event} (hp : s.port = .read ix :: rest) :
    StepKind s (({ s with port := rest } : State).hostRead ix) := by
  have haccess : s.AccessNext := .inl ⟨ix, rest, hp⟩
  unfold State.hostRead
  split
  · exact .other ((KeepsRegisters.refl s).setPort rest .silent) (absurd rfl) fun _ => haccess
  · have hkept := readEffect_keepsRegisters { s with port := rest } ix
    have hk := readEffect_k { s with port := rest } ix
    exact .other ⟨hkept.f, hkept.pt, hkept.flag, hkept.code, hkept.lastcmd, hkept.diagl, hkept.diagr⟩
      (absurd hk) fun _ => haccess

theorem hostWrite_kind {s : State} {ix : WordIndex} {v : Word} {rest : List Event}
    (hp : s.port = .write ix v :: rest) : StepKind s (({ s with port := rest } : State).hostWrite ix v) := by
  have haccess : s.AccessNext := .inr ⟨ix, v, rest, hp⟩
  unfold State.hostWrite
  split
  · exact .other ((KeepsRegisters.refl s).setPort rest .silent) (absurd rfl) fun _ => haccess
  · obtain hreset | hkept := writeEffect_keepsRegisters { s with port := rest } ix v
    · exact .reset { hreset with }
    · by_cases hk : (({ s with port := rest } : State).writeEffect ix v).k = s.k
      · exact .other { hkept with } (absurd hk) fun _ => haccess
      · obtain hreset | ⟨hbusy, hoff⟩ := writeEffect_k_ne hk
        · exact .reset { hreset with }
        · exact .other { hkept with } (fun _ => ⟨hbusy, ix, v, rest, hp, hoff⟩) fun _ => haccess

theorem sequencerTurn_kind {s t : State} (port : List Event) (turn : s.SequencerNext)
    (h : sequencerTurn { s with port := port } = .next t) : StepKind s t := by
  obtain ⟨-, hidle⟩ | ⟨hbusy, -, hturn⟩ := sequencerTurn_cases { s with port := port }
  · obtain rfl := Host.Outcome.next.inj (hidle.symm.trans h)
    exact .other { KeepsRegisters.refl s with } (absurd rfl) (absurd rfl)
  · obtain ⟨i, hdecode, hi⟩ | ⟨-, hillegal⟩ := completeStep_cases { s with port := port }
    · exact .command i port hbusy turn hdecode (exec_completion (hi.symm.trans (hturn.symm.trans h)))
    · exact .illegal port hbusy turn (Host.Outcome.next.inj (hillegal.symm.trans (hturn.symm.trans h))).symm

/-- The inversion of `step` by what it can write. -/
theorem step_kind {s t : State} (h : step s = .next t) : StepKind s t := by
  obtain ⟨hp, hturn⟩ | ⟨e, rest, hp, he⟩ := step_cases h
  · exact sequencerTurn_kind s.port (.inl hp) hturn
  · cases e with
    | read ix => exact Host.Outcome.next.inj he ▸ hostRead_kind hp
    | write ix v => exact Host.Outcome.next.inj he ▸ hostWrite_kind hp
    | sequencer => exact sequencerTurn_kind rest (.inr ⟨rest, hp⟩) he
    | assertReset => exact .reset (Host.Outcome.next.inj he ▸ assertHardReset_resetValues _)
    | releaseReset => exact .reset (Host.Outcome.next.inj he ▸ releaseHardReset_resetValues _)

section
variable {s t : State} (h : StepKind s t) (hreset : ¬ResetValues t)
include h hreset

theorem StepKind.f_ne {j : Fin 16} (hj : t.f[j] ≠ s.f[j]) :
    s.busy = true ∧ t.code = 0#4 ∧ t.lastcmd = s.cur ∧
      ∃ i d, decode s.cur = .command i ∧ destF i = some d ∧ d.toNat = j.val := by
  cases h with
  | command i port busy turn decoded completion =>
    obtain ⟨hcode, d, hd, hdj⟩ := completion.f_ne hj
    exact ⟨busy, hcode, completion.completed.lastcmd, i, d, decoded, hd, hdj⟩
  | illegal port busy turn fails => exact absurd (by rw [fails, State.fail_f]) hj
  | reset values => exact absurd values hreset
  | other kept k esticky => exact absurd (by rw [kept.f]) hj

theorem StepKind.pt_ne {j : Fin 8} (hj : t.pt[j] ≠ s.pt[j]) :
    s.busy = true ∧ t.code = 0#4 ∧ t.lastcmd = s.cur ∧
      ∃ i d, decode s.cur = .command i ∧ destP i = some d ∧ d.toNat % 8 = j.val := by
  cases h with
  | command i port busy turn decoded completion =>
    obtain ⟨hcode, d, hd, hdj⟩ := completion.pt_ne hj
    exact ⟨busy, hcode, completion.completed.lastcmd, i, d, decoded, hd, hdj⟩
  | illegal port busy turn fails => exact absurd (by rw [fails, State.fail_pt]) hj
  | reset values => exact absurd values hreset
  | other kept k esticky => exact absurd (by rw [kept.pt]) hj

theorem StepKind.flag_ne (ht : t.t ≠ s.t) :
    ∃ i, decode s.cur = .command i ∧ writesT i = true ∧ s.busy = true ∧ t.code = 0#4 ∧ t.lastcmd = s.cur := by
  cases h with
  | command i port busy turn decoded completion =>
    obtain ⟨hcode, hT⟩ := completion.flag_ne ht
    exact ⟨i, decoded, hT, busy, hcode, completion.completed.lastcmd⟩
  | illegal port busy turn fails => exact absurd (by rw [fails, State.fail_t]) ht
  | reset values => exact absurd values hreset
  | other kept k esticky => exact absurd kept.flag ht

theorem StepKind.k_ne (hk : t.k ≠ s.k) : s.WritesK := by
  cases h with
  | command i port busy turn decoded completion => exact absurd completion.k_eq hk
  | illegal port busy turn fails => exact absurd (by rw [fails, State.fail_k]) hk
  | reset values => exact absurd values hreset
  | other kept k esticky => exact k hk

theorem StepKind.diag_ne (hd : t.diagl ≠ s.diagl ∨ t.diagr ≠ s.diagr) :
    s.busy = true ∧ t.code = 2#4 ∧ t.lastcmd = s.cur ∧ t.done = true := by
  cases h with
  | command i port busy turn decoded completion =>
    exact ⟨busy, completion.diag_ne hd, completion.completed.lastcmd, completion.completed.done⟩
  | illegal port busy turn fails => subst fails; exact (hd.elim (absurd rfl) (absurd rfl))
  | reset values => exact absurd values hreset
  | other kept k esticky => exact hd.elim (absurd kept.diagl) (absurd kept.diagr)

theorem StepKind.status_ne (hs : t.code ≠ s.code ∨ t.lastcmd ≠ s.lastcmd) :
    s.busy = true ∧ t.lastcmd = s.cur ∧ t.busy = false ∧ t.done = true ∧ s.SequencerNext := by
  cases h with
  | command i port busy turn decoded completion =>
    obtain ⟨hbusy, hdone, hlast⟩ := completion.completed
    exact ⟨busy, hlast, hbusy, hdone, turn⟩
  | illegal port busy turn fails => exact fails ▸ ⟨busy, rfl, rfl, rfl, turn⟩
  | reset values => exact absurd values hreset
  | other kept k esticky => exact hs.elim (absurd kept.code) (absurd kept.lastcmd)

theorem StepKind.esticky_ne (he : t.esticky ≠ s.esticky) :
    (s.busy = true ∧ t.code ≠ 0#4 ∧ t.lastcmd = s.cur ∧ t.busy = false ∧ t.done = true) ∨ s.AccessNext := by
  cases h with
  | command i port busy turn decoded completion =>
    obtain ⟨hbusy, hdone, hlast⟩ := completion.completed
    exact .inl ⟨busy, completion.esticky_ne he, hlast, hbusy, hdone⟩
  | illegal port busy turn fails => exact .inl (fails ▸ ⟨busy, ErrorKind.illegalCommand.code_ne_zero, rfl, rfl, rfl⟩)
  | reset values => exact absurd values hreset
  | other kept k esticky => exact .inr (esticky he)

end

/-- Settles O45, by the inversion of the step. -/
theorem registersChangeByTheirWritersOnly : Obligations.RegistersChangeByTheirWritersOnly := by
  unfold Obligations.RegistersChangeByTheirWritersOnly
  intro s t hstep hreset
  have h := step_kind hstep
  exact ⟨fun _ => h.f_ne hreset, fun _ => h.pt_ne hreset, h.k_ne hreset, h.diag_ne hreset, h.status_ne hreset,
    h.esticky_ne hreset⟩

end Sys2Proof.Machine
end

section
/-! SUPPORT. The flag `T` (R29): the predicates write it, no command reads it, and `STATUS` shows it. -/

namespace Sys2Proof.Machine

theorem fieldsEqual_eq (a b : W256) : fieldsEqual a b = decide (a = b) := rfl

theorem isInfinity_eq (P : Point) : isInfinity P = decide (P = .infinity) := by cases P <;> rfl

theorem pointsEqual_eq (P Q : Point) : pointsEqual P Q = decide (P = Q) := by
  cases P <;> cases Q <;> simp [pointsEqual, fieldsEqual_eq]

theorem completeF_writeT (s : State) (n : Nibble) (r : Except ErrorKind W256) (b : Bool) :
    (s.writeT b).completeF n r = (s.completeF n r).writeT b := by cases r <;> rfl

theorem completeP_writeT {s t : State} {n : Nibble} {r : Except ErrorKind Point} (b : Bool)
    (h : s.completeP n r = .next t) : (s.writeT b).completeP n r = .next (t.writeT b) := by
  obtain ⟨Q, rfl, rfl⟩ := completeP_next h
  rfl

/-- PNEW of two coordinates is decided by the curve test (R233). -/
theorem execPnew_coordinates (rd ra rb : Nibble) (s : State) :
    execPnew rd ra rb true true s =
      if onCurve (s.readF ra) (s.readF rb) then s.completeP rd (.ok (.coordinates (s.readF ra) (s.readF rb)))
      else .next (s.failNotOnCurve (lhs (s.readF rb)) (rhs (s.readF ra))) := rfl

theorem execPnew_writeT {rd ra rb : Nibble} {hx hy : Bool} {s t : State} (b : Bool)
    (h : execPnew rd ra rb hx hy s = .next t) : execPnew rd ra rb hx hy (s.writeT b) = .next (t.writeT b) := by
  cases hx <;> cases hy
  · exact completeP_writeT (r := .ok .infinity) b h
  · cases h; rfl
  · cases h; rfl
  · rw [execPnew_coordinates] at h ⊢
    split at h
    · next hcurve => exact (if_pos hcurve).trans (completeP_writeT b h)
    · next hcurve => cases h; exact if_neg hcurve

/-- No command reads `T` (R29): with another value of it, a predicate answers the same and any other command keeps that
value. -/
theorem exec_writeT {i : Instr} {s t : State} (b : Bool) (h : exec i s = .next t) :
    exec i (s.writeT b) = .next (if writesT i then t else t.writeT b) := by
  have hF {n : Nibble} {r : Except ErrorKind W256} (ht : s.completeF n r = t) :
      (.next ((s.writeT b).completeF n r) : Host.Outcome State Fault Refusal) = .next (t.writeT b) :=
    ht ▸ congrArg _ (completeF_writeT s n r b)
  cases i with
  | feq ra rb => exact h
  | pisinf ra => exact h
  | peq ra rb => exact h
  | pnew rd ra rb hx hy => exact execPnew_writeT b h
  | pldg rd => exact completeP_writeT (r := .ok generator) b h
  | pmov rd ra => exact completeP_writeT (r := .ok (s.readP ra)) b h
  | pdbl rd ra => exact completeP_writeT b h
  | padd rd ra rb => exact completeP_writeT b h
  | pmul rd ra rb => exact completeP_writeT b h
  | _ => exact hF (Host.Outcome.next.inj h)

theorem bitWord_getLsbD (b : Bool) (n : ℕ) : (bitWord b).getLsbD n = (decide (n = 0) && b) := by
  cases b <;> cases n <;> simp [bitWord]

/-- `STATUS` bit by bit (R43). -/
theorem statusWord_getLsbD (s : State) (n : ℕ) : s.statusWord.getLsbD n =
    match n with
    | 0 => s.busy
    | 1 => s.done
    | 2 => decide (s.code ≠ 0#4)
    | 3 => s.t
    | _ => false := by
  simp only [State.statusWord, BitVec.getLsbD_or, BitVec.getLsbD_shiftLeft, bitWord_getLsbD]
  match n with
  | 0 => simp
  | 1 => simp
  | 2 => simp [bne, beq_eq_decide]
  | 3 => simp
  | n + 4 => simp

/-- Settles O46: the three predicates, the inversion of the step, and `exec_writeT`. -/
theorem flagIsWrittenByPredicatesOnly : Obligations.FlagIsWrittenByPredicatesOnly := by
  unfold Obligations.FlagIsWrittenByPredicatesOnly
  refine ⟨fun s t ra rb => ⟨fun h => ?_, fun h => ?_, fun h => ?_⟩, fun s t hstep ht => ?_, fun i s t b h => ?_,
    fun s => statusWord_getLsbD s 3, rfl⟩
  · cases h; exact fieldsEqual_eq _ _
  · cases h; exact pointsEqual_eq _ _
  · cases h; exact isInfinity_eq _
  · by_cases hreset : ResetValues t
    · exact .inr hreset
    · exact .inl ((step_kind hstep).flag_ne hreset ht)
  · exact exec_writeT b h

end Sys2Proof.Machine
end

section
/-! SUPPORT. The control block (R40 to R47): its accesses are performed at any `BUSY`, and what each of them answers
and does. -/

namespace Sys2Proof.Machine

/-! ### Accesses of the control block -/

theorem refuses_control (s : State) {ix : WordIndex} (h : ix.off < 0x020) : s.refuses ix = false := by
  simp [State.refuses, Nat.not_le.mpr h]

theorem readsAs_control (s : State) {off : ℕ} (h : (indexOf off).off < 0x020) :
    ReadsAs off (s.readLocation (locate (indexOf off))) s := by
  intro rest hh hp
  have hmapped : locate (indexOf off) ≠ .unmapped := fun hu => by simpa [hu] using locate_control _ h
  rw [step_of_read hh hp, State.readWord, State.readEffect, refuses_control _ h, if_neg Bool.false_ne_true,
    if_neg Bool.false_ne_true, if_neg hmapped]
  cases locate (indexOf off) <;> rfl

theorem writeEffect_control (s : State) {ix : WordIndex} (v : Word) (h : ix.off < 0x020) :
    s.writeEffect ix v = s.writeLocation v (locate ix) := by
  rw [State.writeEffect, refuses_control s h, if_neg Bool.false_ne_true]

/-- A write to an offset of the control block performs the write to its location. -/
theorem step_of_write_control {s : State} {off : ℕ} {l : Location} {v : Word} {rest : List Event}
    (h : (indexOf off).off < 0x020) (hl : locate (indexOf off) = l) (hh : s.hreset = false)
    (hp : s.port = .write (indexOf off) v :: rest) :
    step s = .next { ({ s with port := rest } : State).writeLocation v l with reply := .written } := by
  rw [step_of_write hh hp, writeEffect_control _ v h, hl]

theorem SameBlock.refl (s : State) : SameBlock s s :=
  ⟨rfl, rfl, rfl, rfl, rfl, rfl, rfl, rfl, rfl, rfl, rfl, rfl, rfl⟩

theorem SameBlock.setPort {s t : State} (h : SameBlock s t) (port : List Event) (reply : Reply) :
    SameBlock s { t with port := port, reply := reply } := { h with }

/-! ### `CTRL` and `CMD` -/

theorem ctrl_read (s : State) : ReadsAs 0x008 0#32 s := readsAs_control s (off := 0x008) (by decide)

/-- A write to `CTRL` with bit 0 set puts every register to its reset value, at any `BUSY` (R352). -/
theorem ctrl_write_resets (s : State) {v : Word} (hv : v.getLsbD 0 = true) :
    WriteDoes 0x008 v s fun t => ResetValues t ∧ t.hreset = false := by
  intro rest hh hp
  have hstep := step_of_write_control (l := .ctrl) (by decide) (by decide) hh hp
  rw [State.writeLocation, writeCtrl_of_set hv] at hstep
  exact ⟨_, hstep, rfl, rfl, { resetBlock_resetValues s with }, rfl⟩

theorem ctrl_write_does_nothing (s : State) {v : Word} (hv : v.getLsbD 0 = false) :
    WriteDoes 0x008 v s fun t => SameBlock s t := by
  intro rest hh hp
  have hstep := step_of_write_control (l := .ctrl) (by decide) (by decide) hh hp
  rw [State.writeLocation, writeCtrl_of_clear hv] at hstep
  exact ⟨_, hstep, rfl, rfl, (SameBlock.refl s).setPort _ _⟩

/-- Settles O57: the three accesses of `CTRL`. -/
theorem softReset : Obligations.SoftReset := by
  unfold Obligations.SoftReset
  intro s v
  exact ⟨ctrl_write_resets s, ctrl_write_does_nothing s, ctrl_read s⟩

/-- A write to `CMD` while nothing is in flight is the acceptance of the word (R47). -/
theorem cmd_write_accepted {s : State} (w : Word) (hb : s.busy = false) :
    WriteDoes 0x01C w s fun t => SameBlock { s with cur := w, busy := true, done := false } t := by
  intro rest hh hp
  have hstep := step_of_write_control (l := .cmd) (by decide) (by decide) hh hp
  rw [State.writeLocation, writeCmd_of_idle (s := { s with port := rest }) w hb] at hstep
  exact ⟨_, hstep, rfl, rfl, (SameBlock.refl (s.accept w)).setPort _ _⟩

theorem cmd_write_dropped {s : State} (w : Word) (hb : s.busy = true) : WriteDropped 0x01C w 0x100#32 s := by
  intro rest hh hp
  rw [step_of_write_control (l := .cmd) (by decide) (by decide) hh hp, State.writeLocation,
    writeCmd_of_busy (s := { s with port := rest }) w hb]
  rfl

/-- Settles O48: the three accesses of `CMD`. -/
theorem cmdAcceptance : Obligations.CmdAcceptance := by
  unfold Obligations.CmdAcceptance
  intro s w
  exact ⟨cmd_write_accepted w, cmd_write_dropped w, readsAs_control s (off := 0x01C) (by decide)⟩

/-! ### What the registers read as -/

/-- Settles O50: each offset is a location of the control block, and `STATUS` and `RESULT` are what R43 and R44 say. -/
theorem controlBlockReads : Obligations.ControlBlockReads := by
  unfold Obligations.ControlBlockReads
  intro s
  have hcode : (s.code.setWidth 32).toNat = s.code.toNat := BitVec.toNat_setWidth_of_le (by decide)
  have hhigh (n : ℕ) (hn : 4 ≤ n) : s.statusWord.getLsbD n = false := by
    obtain ⟨m, rfl⟩ := Nat.exists_eq_add_of_le' hn
    exact statusWord_getLsbD s (m + 4)
  exact ⟨readsAs_control s (off := 0x000) (by decide), readsAs_control s (off := 0x004) (by decide), ctrl_read s,
    ⟨s.statusWord, readsAs_control s (off := 0x00C) (by decide), statusWord_getLsbD s 0, statusWord_getLsbD s 1,
      statusWord_getLsbD s 2, statusWord_getLsbD s 3, hhigh⟩,
    ⟨_, readsAs_control s (off := 0x010) (by decide), hcode⟩, readsAs_control s (off := 0x018) (by decide)⟩

/-! ### The sticky record -/

theorem clearSticky_getLsbD (s : State) (v : Word) (n : ℕ) : (s.clearSticky v).esticky.getLsbD n =
    (s.esticky.getLsbD n && !(v.getLsbD n && decide (n ∈ [1, 2, 3, 4, 5, 6, 8, 9]))) := by
  rw [State.clearSticky_esticky, BitVec.getLsbD_and, BitVec.getLsbD_not, BitVec.getLsbD_and, stickyMask_getLsbD]
  by_cases h : n < 32
  · rw [decide_eq_true h, Bool.true_and]
  · rw [BitVec.getLsbD_of_ge s.esticky n (by omega), Bool.false_and, Bool.false_and]

/-- A write to `ESTICKY` clears the named bits that are 1 in the word and does nothing else, at any `BUSY` (R45). -/
theorem esticky_write (s : State) (v : Word) : WriteDoes 0x014 v s fun t =>
    (∀ n, t.esticky.getLsbD n =
      (s.esticky.getLsbD n && !(v.getLsbD n && decide (n ∈ [1, 2, 3, 4, 5, 6, 8, 9])))) ∧
    SameBlock { s with esticky := t.esticky } t := by
  intro rest hh hp
  have hstep := step_of_write_control (l := .esticky) (by decide) (by decide) hh hp
  exact ⟨_, hstep, rfl, rfl, clearSticky_getLsbD s v, (SameBlock.refl (s.clearSticky v)).setPort _ _⟩

/-- Settles O47: every completion, the write and the read of `ESTICKY`, and the invariant's clause. -/
theorem stickyRecord : Obligations.StickyRecord := by
  unfold Obligations.StickyRecord
  exact ⟨fun i s t hexec => (exec_completion hexec).esticky_getLsbD, esticky_write,
    fun s => readsAs_control s (off := 0x014) (by decide), fun s hinv => onlyNamedBits_iff.mp hinv.sticky⟩

end Sys2Proof.Machine
end

section
/-! SUPPORT. The hard reset (R350, R351) and the idle block (R335): nothing runs until a command is accepted. -/

namespace Sys2Proof.Machine

/-- An idle block, or one under the asserted reset line, does nothing at the sequencer's turn (R335, R351). -/
theorem sequencerTurn_of_idle {s : State} (h : s.busy = false ∨ s.hreset = true) : sequencerTurn s = .next s := by
  obtain ⟨-, hidle⟩ | ⟨hbusy, hline, -⟩ := sequencerTurn_cases s
  · exact hidle
  · simp [hbusy, hline] at h

/-- Under the asserted line a transaction is dropped without an answer (R351, log 5). -/
theorem step_of_access_under_reset {s : State} {rest : List Event} {ix : WordIndex} {v : Word} (hh : s.hreset = true)
    (hp : s.port = .read ix :: rest ∨ s.port = .write ix v :: rest) :
    step s = .next { s with port := rest, reply := .silent } := by
  obtain hp | hp := hp
  · rw [step_of_cons hp, performEvent, State.hostRead, if_pos hh]
  · rw [step_of_cons hp, performEvent, State.hostWrite, if_pos hh]

theorem hostRead_busy (s : State) (ix : WordIndex) : (s.hostRead ix).busy = s.busy := by
  unfold State.hostRead
  split
  · rfl
  · exact readEffect_busy s ix

theorem hostWrite_busy {s : State} {ix : WordIndex} (v : Word) (hb : s.busy = false) (hix : ix ≠ indexOf 0x01C) :
    (s.hostWrite ix v).busy = false := by
  unfold State.hostWrite
  split
  · exact hb
  · exact writeEffect_busy hb hix

/-- Nothing but a write to `CMD` puts a command in flight (R47, R351). -/
theorem performEvent_keepsIdle {s : State} (hb : s.busy = false) {e : Event} (he : ∀ w, e ≠ .write (indexOf 0x01C) w) :
    ∃ t, performEvent e s = .next t ∧ t.busy = false := by
  cases e with
  | read ix => exact ⟨_, rfl, (hostRead_busy s ix).trans hb⟩
  | write ix v => exact ⟨_, rfl, hostWrite_busy v hb fun hix => he v (hix ▸ rfl)⟩
  | sequencer => exact ⟨s, sequencerTurn_of_idle (.inl hb), hb⟩
  | assertReset => exact ⟨_, rfl, rfl⟩
  | releaseReset => exact ⟨_, rfl, rfl⟩

theorem step_keepsIdle {s : State} (hb : s.busy = false)
    (hcmd : ∀ w rest, s.port ≠ .write (indexOf 0x01C) w :: rest) : ∃ t, step s = .next t ∧ t.busy = false := by
  cases hp : s.port with
  | nil => exact ⟨s, (step_of_nil hp).trans (sequencerTurn_of_idle (.inl hb)), hb⟩
  | cons e rest =>
    rw [step_of_cons hp]
    exact performEvent_keepsIdle (s := { s with port := rest }) hb fun w he => hcmd w rest (he ▸ hp)

/-- Settles O58, clause by clause: the reset values, the edges of the line, the silence under it, idling, and the
acceptance of a command after reset. -/
theorem hardReset : Obligations.HardReset := by
  unfold Obligations.HardReset
  refine ⟨resetBlock_resetValues State.reset, fun s v hv rest hh hp => ?_, fun s rest hp => ?_, fun s rest hp => ?_,
    fun s rest ix v hh hp => step_of_access_under_reset hh hp, fun s hidle => ⟨fun hp => ?_, fun rest hp => ?_⟩,
    fun s hb hcmd => step_keepsIdle hb hcmd, fun s hs _ w => cmd_write_accepted w hs.busy⟩
  · obtain ⟨t, hstep, hport, hreply, hvalues, -⟩ := ctrl_write_resets s hv rest hh hp
    exact ⟨t, hstep, hport, hreply, hvalues⟩
  · exact ⟨_, step_of_cons hp, releaseHardReset_resetValues _, rfl, rfl⟩
  · exact ⟨_, step_of_cons hp, rfl, rfl, rfl⟩
  · exact (step_of_nil hp).trans (sequencerTurn_of_idle hidle)
  · exact (step_of_cons hp).trans (sequencerTurn_of_idle hidle)

end Sys2Proof.Machine
end

section
/-! SUPPORT. The accesses of the window (R62, R74, R75): which locations a write changes, which accesses are refused,
and what a served one answers and does. -/

namespace Sys2Proof.Machine

/-- The locations whose write the model performs; a write to any other is dropped with `BADACC` (R75). -/
def Location.isWritable : Location → Bool
  | .ctrl => true
  | .esticky => true
  | .cmd => true
  | .kMag _ _ => true
  | .kSign _ => true
  | _ => false

theorem writeLocation_of_not_writable (s : State) (v : Word) {l : Location} (h : l.isWritable = false) :
    s.writeLocation v l = s.setSticky badAccBit := by
  cases l with
  | ctrl => cases h
  | esticky => cases h
  | cmd => cases h
  | kMag i j => cases h
  | kSign i => cases h
  | _ => rfl

/-! ### The offsets of the map -/

theorem off_indexOf {n : ℕ} (h : n < 1024) : (indexOf (4 * n)).off = 4 * n := by
  simp [WordIndex.off, indexOf, Nat.mod_eq_of_lt h]

theorem not_writable_of_isReadOnly : ∀ ix : WordIndex, isReadOnly ix.off = true → (locate ix).isWritable = false := by
  decide +kernel

theorem locate_eq_unmapped : ∀ ix : WordIndex, isUnmapped ix.off = true → locate ix = .unmapped := by decide +kernel

/-! ### Served and refused accesses -/

theorem refuses_setPort (s : State) (port : List Event) (ix : WordIndex) :
    ({ s with port := port } : State).refuses ix = s.refuses ix := rfl

theorem refuses_of_idle {s : State} (hb : s.busy = false) (ix : WordIndex) : s.refuses ix = false := by
  rw [State.refuses, hb, Bool.false_and]

theorem refuses_of_busy {s : State} {ix : WordIndex} (hb : s.busy = true) (h : 0x020 ≤ ix.off) :
    s.refuses ix = true := by
  rw [State.refuses, hb, decide_eq_true h, Bool.and_self]

section
variable {s : State} {off : ℕ}

/-- A read that is not refused, of a mapped location, returns what the location reads as and changes nothing. -/
theorem readsAs_location {l : Location} (hr : s.refuses (indexOf off) = false) (hl : locate (indexOf off) = l)
    (hm : l ≠ .unmapped) : ReadsAs off (s.readLocation l) s := by
  intro rest hh hp
  rw [step_of_read hh hp, State.readWord, State.readEffect, refuses_setPort, hr, if_neg Bool.false_ne_true,
    if_neg Bool.false_ne_true, hl, if_neg hm]
  cases l <;> rfl

theorem readRefused_of_unmapped (hr : s.refuses (indexOf off) = false) (hl : locate (indexOf off) = .unmapped) :
    ReadRefused off 0x200#32 s := by
  intro rest hh hp
  rw [step_of_read hh hp, State.readWord, State.readEffect, refuses_setPort, hr, if_neg Bool.false_ne_true,
    if_neg Bool.false_ne_true, hl, if_pos rfl]
  rfl

theorem readRefused_of_refuses (hr : s.refuses (indexOf off) = true) : ReadRefused off 0x100#32 s := by
  intro rest hh hp
  rw [step_of_read hh hp, State.readWord, State.readEffect, refuses_setPort, if_pos hr, if_pos hr]
  rfl

theorem writeDropped_of_refuses (v : Word) (hr : s.refuses (indexOf off) = true) : WriteDropped off v 0x100#32 s := by
  intro rest hh hp
  rw [step_of_write hh hp, State.writeEffect, refuses_setPort, if_pos hr]
  rfl

/-- A write that is not refused performs the write to its location. -/
theorem step_of_write_location {l : Location} {v : Word} {rest : List Event} (hr : s.refuses (indexOf off) = false)
    (hl : locate (indexOf off) = l) (hh : s.hreset = false) (hp : s.port = .write (indexOf off) v :: rest) :
    step s = .next { ({ s with port := rest } : State).writeLocation v l with reply := .written } := by
  rw [step_of_write hh hp, State.writeEffect, refuses_setPort, hr, if_neg Bool.false_ne_true, hl]

theorem writeDropped_of_not_writable (v : Word) (hr : s.refuses (indexOf off) = false)
    (hl : (locate (indexOf off)).isWritable = false) : WriteDropped off v 0x200#32 s := by
  intro rest hh hp
  rw [step_of_write_location hr rfl hh hp, writeLocation_of_not_writable _ v hl]
  rfl

end

/-- Settles O54: an offset below `0x020` is served, one at or above it is refused. -/
theorem busyRefusesTheWindow : Obligations.BusyRefusesTheWindow := by
  unfold Obligations.BusyRefusesTheWindow
  intro s n v hb hn
  have hoff := off_indexOf hn
  refine ⟨fun hlt => readsAs_control s (hoff.symm ▸ hlt), fun hle => ?_, cmd_write_dropped v hb, fun hv => ?_, ?_⟩
  · have hr := refuses_of_busy hb (hoff.symm ▸ hle)
    exact ⟨readRefused_of_refuses hr, writeDropped_of_refuses v hr⟩
  · intro rest hh hp
    obtain ⟨t, hstep, hport, hreply, hvalues, -⟩ := ctrl_write_resets s hv rest hh hp
    exact ⟨t, hstep, hport, hreply, hvalues⟩
  · intro rest hh hp
    exact ⟨_, step_of_write_control (l := .esticky) (by decide) (by decide) hh hp, rfl, rfl, rfl⟩

/-- Settles O56: what is read-only or unmapped is not writable, and both kinds of transaction have an answer. -/
theorem refusedAccesses : Obligations.RefusedAccesses := by
  unfold Obligations.RefusedAccesses
  intro s n v hn hserved
  have hoff := off_indexOf hn
  have hr : s.refuses (indexOf (4 * n)) = false :=
    hserved.elim (fun hb => refuses_of_idle hb _) fun hlt => refuses_control s (hoff.symm ▸ hlt)
  refine ⟨fun hro => ?_, fun hun => ?_, ?_, fun rest hh => ⟨fun hp => ?_, fun hp => ?_⟩⟩
  · exact writeDropped_of_not_writable v hr (not_writable_of_isReadOnly _ (hoff.symm ▸ hro))
  · have hl := locate_eq_unmapped _ (hoff.symm ▸ hun)
    exact ⟨readRefused_of_unmapped hr hl, writeDropped_of_not_writable v hr (hl ▸ rfl)⟩
  · rintro (h | h) <;> rw [h]
    · exact ctrl_read s
    · exact readsAs_control s (off := 0x01C) (by decide)
  · exact ⟨_, _, step_of_read hh hp, rfl⟩
  · exact ⟨_, step_of_write hh hp, rfl⟩

end Sys2Proof.Machine
end

section
/-! SUPPORT. The 256-bit values of the window (R63, R70 to R73): the eight words a value is read by make it up. -/

namespace Sys2Proof.Machine

open Sys2Proof.Config (p N)

/-! ### The words of a value -/

theorem wordOf_eq_ofNat (v : W256) (j : Fin 8) : wordOf v j = BitVec.ofNat 32 (v.toNat / 2 ^ (32 * j.val)) :=
  BitVec.eq_of_toNat_eq (by rw [wordOf_toNat, BitVec.toNat_ofNat])

/-- The lowest `n` digits of a number in base `2 ^ 32` make up its remainder. -/
theorem sum_digits (a n : ℕ) :
    ((List.range n).map fun j => a / 2 ^ (32 * j) % 2 ^ 32 * 2 ^ (32 * j)).sum = a % 2 ^ (32 * n) := by
  induction n with
  | zero => simp [Nat.mod_one]
  | succ n ih =>
    rw [List.range_succ, List.map_append, List.sum_append, ih, List.map_singleton, List.sum_singleton,
      Nat.mul_succ, Nat.pow_add, Nat.mod_mul, Nat.mul_comm (2 ^ (32 * n))]

theorem sum_words (v : W256) :
    ((List.range 8).map fun j => v.toNat / 2 ^ (32 * j) % 2 ^ 32 * 2 ^ (32 * j)).sum = v.toNat := by
  rw [sum_digits]
  exact Nat.mod_eq_of_lt v.isLt

/-- A 256-bit value is determined by its words. -/
theorem eq_of_wordOf_eq {v w : W256} (h : ∀ j, wordOf v j = wordOf w j) : v = w := by
  apply BitVec.eq_of_toNat_eq
  rw [← sum_words v, ← sum_words w]
  refine congrArg List.sum (List.map_congr_left fun j hj => ?_)
  have hword := congrArg BitVec.toNat (h ⟨j, List.mem_range.mp hj⟩)
  rw [wordOf_toNat, wordOf_toNat] at hword
  rw [hword]

/-! ### Values in the window -/

/-- The eight locations from offset `base` on are mapped and read as the words of `v` (R63). -/
def State.Shows (s : State) (base : ℕ) (v : W256) : Prop :=
  ∀ j : Fin 8, ∃ l, locate (indexOf (base + 4 * j.val)) = l ∧ l ≠ .unmapped ∧ s.readLocation l = wordOf v j

section
variable {s : State} {base : ℕ} {v : W256} (h : s.Shows base v) (hb : s.busy = false)
include h hb

theorem State.Shows.readsAs_wordOf (j : Fin 8) : ReadsAs (base + 4 * j.val) (wordOf v j) s := by
  obtain ⟨l, hl, hm, hread⟩ := h j
  exact hread ▸ readsAs_location (refuses_of_idle hb _) hl hm

theorem State.Shows.readsAs (j : Fin 8) :
    ReadsAs (base + 4 * j.val) (BitVec.ofNat 32 (v.toNat / 2 ^ (32 * j.val))) s :=
  wordOf_eq_ofNat v j ▸ h.readsAs_wordOf hb j

theorem State.Shows.w256At : s.w256At base = v.toNat := by
  rw [State.w256At, ← sum_words v]
  refine congrArg List.sum (List.map_congr_left fun j hj => ?_)
  obtain ⟨l, hl, -, hread⟩ := h ⟨j, List.mem_range.mp hj⟩
  rw [State.readWord, refuses_of_idle hb, if_neg Bool.false_ne_true, hl, hread, wordOf_toNat]

end

theorem shows_k (s : State) (i : Fin 4) : s.Shows (0x100 + 0x40 * i.val) s.k[i].mag :=
  fun j => ⟨_, locate_kMag i j, Location.noConfusion, rfl⟩

theorem shows_f (s : State) (i : Fin 16) : s.Shows (0x200 + 0x20 * i.val) s.f[i] :=
  fun j => ⟨_, locate_fWord i j, Location.noConfusion, rfl⟩

theorem shows_pX (s : State) (i : Fin 8) : s.Shows (0x400 + 0x80 * i.val) s.pt[i].xField :=
  fun j => ⟨_, locate_pX i j, Location.noConfusion, rfl⟩

theorem shows_pY (s : State) (i : Fin 8) : s.Shows (0x400 + 0x80 * i.val + 0x20) s.pt[i].yField :=
  fun j => ⟨_, locate_pY i j, Location.noConfusion, rfl⟩

theorem shows_p (s : State) : s.Shows 0x800 (BitVec.ofNat 256 p) :=
  fun j => ⟨.constP j, by revert j; decide +kernel, Location.noConfusion, rfl⟩

theorem shows_N (s : State) : s.Shows 0x820 (BitVec.ofNat 256 N) :=
  fun j => ⟨.constN j, by revert j; decide +kernel, Location.noConfusion, rfl⟩

theorem shows_Gx (s : State) : s.Shows 0x840 Config.Gx :=
  fun j => ⟨.constGx j, by revert j; decide +kernel, Location.noConfusion, rfl⟩

theorem shows_Gy (s : State) : s.Shows 0x860 Config.Gy :=
  fun j => ⟨.constGy j, by revert j; decide +kernel, Location.noConfusion, rfl⟩

theorem shows_b (s : State) : s.Shows 0x880 Config.b :=
  fun j => ⟨.constB j, by revert j; decide +kernel, Location.noConfusion, rfl⟩

theorem shows_diagl (s : State) : s.Shows 0x8C0 s.diagl :=
  fun j => ⟨.diagL j, by revert j; decide +kernel, Location.noConfusion, rfl⟩

theorem shows_diagr (s : State) : s.Shows 0x8E0 s.diagr :=
  fun j => ⟨.diagR j, by revert j; decide +kernel, Location.noConfusion, rfl⟩

theorem toNat_ofNat_p : (BitVec.ofNat 256 p).toNat = p := (BitVec.toNat_ofNat p 256).trans (Nat.mod_eq_of_lt p_lt)

theorem toNat_ofNat_N : (BitVec.ofNat 256 N).toNat = N := (BitVec.toNat_ofNat N 256).trans (Nat.mod_eq_of_lt N_lt)

theorem wordOf_b : ∀ j : Fin 8, wordOf Config.b j = if j = 0 then 7#32 else 0#32 := by decide +kernel

/-- The offsets of the field registers, the constants and the diagnostics are read-only (R70, R72, R73). -/
theorem isReadOnly_wide {off : ℕ} (h : (0x200 ≤ off ∧ off < 0x400) ∨ (0x800 ≤ off ∧ off < 0x8A0) ∨
    (0x8C0 ≤ off ∧ off < 0x900)) : isReadOnly off = true := by
  rcases h with h | h | h <;> simp [isReadOnly, h]

/-- Settles O52: each value shows its words at its offsets, which are read-only. -/
theorem wideValuesReadByWords : Obligations.WideValuesReadByWords := by
  unfold Obligations.WideValuesReadByWords
  intro s hb
  refine ⟨fun i => (shows_f s i).readsAs hb, fun j => ⟨?_, ?_, (shows_Gx s).readsAs hb j, (shows_Gy s).readsAs hb j,
      wordOf_b j ▸ (shows_b s).readsAs_wordOf hb j, (shows_diagl s).readsAs hb j, (shows_diagr s).readsAs hb j⟩,
    fun i => (shows_f s i).w256At hb, fun i => (shows_k s i).w256At hb, fun i x y hi => ⟨?_, ?_⟩,
    ((shows_p s).w256At hb).trans toNat_ofNat_p, ((shows_N s).w256At hb).trans toNat_ofNat_N, (shows_Gx s).w256At hb,
    (shows_Gy s).w256At hb, (shows_b s).w256At hb, (shows_diagl s).w256At hb, (shows_diagr s).w256At hb,
    fun n v hn => ?_⟩
  · exact toNat_ofNat_p ▸ (shows_p s).readsAs hb j
  · exact toNat_ofNat_N ▸ (shows_N s).readsAs hb j
  · rw [(shows_pX s i).w256At hb, hi]; rfl
  · rw [show 0x420 + 0x80 * i.val = 0x400 + 0x80 * i.val + 0x20 by omega, (shows_pY s i).w256At hb, hi]; rfl
  · have hoff : (indexOf (4 * n)).off = 4 * n := off_indexOf (by omega)
    exact writeDropped_of_not_writable v (refuses_of_idle hb _)
      (not_writable_of_isReadOnly _ (hoff.symm ▸ isReadOnly_wide hn))

theorem readsAs_pTag {s : State} (hb : s.busy = false) (i : Fin 8) :
    ReadsAs (0x400 + 0x80 * i.val + 0x40) (bitWord s.pt[i].tag) s :=
  readsAs_location (refuses_of_idle hb _) (locate_pTag i) Location.noConfusion

/-- Settles O53: the fields and the tag of the two forms of a point. -/
theorem pointsReadByWords : Obligations.PointsReadByWords := by
  unfold Obligations.PointsReadByWords
  intro s i j hb
  have hx := (shows_pX s i).readsAs hb j
  have hy := (shows_pY s i).readsAs hb j
  have htag := readsAs_pTag hb i
  refine ⟨fun x y hi => ?_, fun hi => ?_, fun v => ⟨?_, ?_, ?_⟩⟩
  · rw [hi] at hx hy htag
    exact ⟨hx, hy, htag⟩
  · rw [hi] at hx hy htag
    simp only [Point.xField, Point.yField, BitVec.toNat_zero, Nat.zero_div] at hx hy
    exact ⟨hx, hy, htag⟩
  · exact writeDropped_of_not_writable v (refuses_of_idle hb _) (locate_pX i j ▸ rfl)
  · exact writeDropped_of_not_writable v (refuses_of_idle hb _) (locate_pY i j ▸ rfl)
  · exact writeDropped_of_not_writable v (refuses_of_idle hb _) (locate_pTag i ▸ rfl)

end Sys2Proof.Machine
end

section
/-! SUPPORT. The writes to the integer registers (R69), and the host action SETK made of them (R117). -/

namespace Sys2Proof.Machine

/-- From `s` to `t` the block changed in integer register `i` at most. -/
structure ChangedK (i : Fin 4) (s t : State) : Prop where
  others : ∀ m : Fin 4, m ≠ i → t.k[m] = s.k[m]
  block : SameBlock { s with k := t.k } t

theorem ChangedK.refl (i : Fin 4) (s : State) : ChangedK i s s := ⟨fun _ _ => rfl, SameBlock.refl s⟩

theorem ChangedK.trans {i : Fin 4} {s t u : State} (hst : ChangedK i s t) (htu : ChangedK i t u) : ChangedK i s u where
  others m hm := (htu.others m hm).trans (hst.others m hm)
  block :=
    { f := htu.block.f.trans hst.block.f
      pt := htu.block.pt.trans hst.block.pt
      k := rfl
      flag := htu.block.flag.trans hst.block.flag
      busy := htu.block.busy.trans hst.block.busy
      done := htu.block.done.trans hst.block.done
      code := htu.block.code.trans hst.block.code
      esticky := htu.block.esticky.trans hst.block.esticky
      lastcmd := htu.block.lastcmd.trans hst.block.lastcmd
      cur := htu.block.cur.trans hst.block.cur
      diagl := htu.block.diagl.trans hst.block.diagl
      diagr := htu.block.diagr.trans hst.block.diagr
      hreset := htu.block.hreset.trans hst.block.hreset }

theorem setK_changedK (s : State) (i : Fin 4) (r : IntReg) (port : List Event) (reply : Reply) :
    ChangedK i s { s.setK i r with port := port, reply := reply } where
  others m hm := (setK_get s i r m).trans (if_neg hm)
  block := (SameBlock.refl (s.setK i r)).setPort port reply

theorem setK_get_same (s : State) (i : Fin 4) (r : IntReg) : (s.setK i r).k[i] = r :=
  (setK_get s i r i).trans (if_pos rfl)

/-- A write to a magnitude word replaces that word of that register (R69). -/
theorem kMag_write {s : State} (i : Fin 4) (j : Fin 8) (v : Word) (hb : s.busy = false) :
    WriteDoes (0x100 + 0x40 * i.val + 4 * j.val) v s fun t =>
      (∀ n, wordOf t.k[i].mag n = if n = j then v else wordOf s.k[i].mag n) ∧ t.k[i].sign = s.k[i].sign ∧
        ChangedK i s t := by
  intro rest hh hp
  refine ⟨_, step_of_write_location (refuses_of_idle hb _) (locate_kMag i j) hh hp, rfl, rfl, fun n => ?_, ?_,
    setK_changedK s i _ rest .written⟩
  · simp only [State.writeLocation, setK_get_same, wordOf_setWordOf]
  · simp only [State.writeLocation, setK_get_same]

/-- A write to the sign word takes bit 0 of the word (R69). -/
theorem kSign_write {s : State} (i : Fin 4) (v : Word) (hb : s.busy = false) :
    WriteDoes (0x100 + 0x40 * i.val + 0x20) v s fun t => t.k[i] = ⟨v.getLsbD 0, s.k[i].mag⟩ ∧ ChangedK i s t := by
  intro rest hh hp
  exact ⟨_, step_of_write_location (refuses_of_idle hb _) (locate_kSign i) hh hp, rfl, rfl, setK_get_same _ i _,
    setK_changedK s i _ rest .written⟩

theorem readsAs_kSign {s : State} (hb : s.busy = false) (i : Fin 4) :
    ReadsAs (0x100 + 0x40 * i.val + 0x20) (bitWord s.k[i].sign) s :=
  readsAs_location (refuses_of_idle hb _) (locate_kSign i) Location.noConfusion

theorem bitWord_eq_ite (b : Bool) : bitWord b = if b then 1#32 else 0#32 := by cases b <;> rfl

/-- Writes to magnitude words of one register, one after the other, leave the words that were not written. -/
theorem run_kMag_writes (i : Fin 4) (w : Fin 8 → Word) (js : List (Fin 8)) (k : ℕ) {s : State} {rest : List Event}
    (hb : s.busy = false) (hh : s.hreset = false)
    (hp : s.port = js.map (fun j => wr (0x100 + 0x40 * i.val + 4 * j.val) (w j)) ++ rest) :
    ∃ t, Host.Core.run core (js.length + k) s = Host.Core.run core k t ∧ t.port = rest ∧
      (∀ n, wordOf t.k[i].mag n = if n ∈ js then w n else wordOf s.k[i].mag n) ∧ ChangedK i s t := by
  induction js generalizing s with
  | nil => exact ⟨s, by rw [List.length_nil, Nat.zero_add], hp, fun n => by simp, .refl i s⟩
  | cons j js ih =>
    obtain ⟨t, hstep, hport, -, hwords, -, hst⟩ := kMag_write i j (w j) hb _ hh hp
    obtain ⟨u, hrun, hrest, hwords', htu⟩ := ih (hst.block.busy.trans hb) (hst.block.hreset.trans hh) hport
    refine ⟨u, ?_, hrest, fun n => ?_, hst.trans htu⟩
    · rw [List.length_cons, Nat.add_right_comm, core_run_succ _ hstep, hrun]
    · rw [hwords', hwords]
      by_cases hn : n = j <;> simp [hn]

theorem value_of_sign_natAbs {n : ℤ} (hn : n.natAbs < 2 ^ 256) :
    IntReg.value ⟨decide (n < 0), BitVec.ofNat 256 n.natAbs⟩ = n := by
  rw [IntReg.value, BitVec.toNat_ofNat, Nat.mod_eq_of_lt hn]
  split
  · next h => have := of_decide_eq_true h; omega
  · next h => have := mt decide_eq_true h; omega

/-- The nine writes of SETK load the integer: eight words of its magnitude, then its sign (R117). -/
theorem run_setKEvents {s : State} {i : Fin 4} {n : ℤ} {rest : List Event} (hn : n.natAbs < 2 ^ 256)
    (hb : s.busy = false) (hh : s.hreset = false) (hp : s.port = setKEvents i n ++ rest) :
    ∃ t, Host.Core.run core 9 s = .next t ∧ t.port = rest ∧ t.k[i].value = n ∧ ChangedK i s t := by
  rw [setKEvents, List.append_assoc] at hp
  obtain ⟨t, hrun, hport, hwords, hst⟩ := run_kMag_writes i _ (List.finRange 8) 1 hb hh hp
  obtain ⟨u, hstep, hrest, -, hk, htu⟩ :=
    kSign_write i _ (hst.block.busy.trans hb) rest (hst.block.hreset.trans hh) hport
  have hmag : t.k[i].mag = BitVec.ofNat 256 n.natAbs :=
    eq_of_wordOf_eq fun j => (hwords j).trans (if_pos (List.mem_finRange j))
  refine ⟨u, hrun.trans (core_run_succ 0 hstep), hrest, ?_, hst.trans htu⟩
  rw [hk, hmag, bitWord_getLsbD]
  exact value_of_sign_natAbs hn

/-- Settles O51: the two kinds of words, written and read, and the run of SETK. -/
theorem integerRegisterAccess : Obligations.IntegerRegisterAccess := by
  unfold Obligations.IntegerRegisterAccess
  refine ⟨fun s i j v hb => ⟨fun rest hh hp => ?_, fun rest hh hp => ?_, (shows_k s i).readsAs hb j,
    bitWord_eq_ite s.k[i].sign ▸ readsAs_kSign hb i⟩, fun s i n rest hn hb hh hp => ?_⟩
  · obtain ⟨t, hstep, hport, hreply, hwords, hsign, hst⟩ := kMag_write i j v hb rest hh hp
    refine ⟨t, hstep, hport, hreply, fun n => ?_, hsign, hst.others, hst.block⟩
    rw [← wordOf_toNat, ← wordOf_toNat, hwords, apply_ite BitVec.toNat]
  · obtain ⟨t, hstep, hport, hreply, hk, hst⟩ := kSign_write i v hb rest hh hp
    exact ⟨t, hstep, hport, hreply, hk, hst.others, hst.block⟩
  · obtain ⟨t, hrun, hport, hvalue, hst⟩ := run_setKEvents hn hb hh hp
    exact ⟨t, hrun, hport, hvalue, hst.others, hst.block⟩

end Sys2Proof.Machine
end

section
/-! SUPPORT. Host accesses while a command is in flight (R74, R79): they act on `ESTICKY` alone, by a function of
`ESTICKY`, and no command reads `ESTICKY`. -/

namespace Sys2Proof.Machine

/-! ### What an access sees and does while `BUSY = 1` -/

/-- The parts of the state the control block shows (R43 to R46). -/
structure SameStatus (s s' : State) : Prop where
  busy : s'.busy = s.busy
  done : s'.done = s.done
  code : s'.code = s.code
  flag : s'.t = s.t
  esticky : s'.esticky = s.esticky
  lastcmd : s'.lastcmd = s.lastcmd

/-- The locations of the control block, as `locate_control` lists them. -/
def controlLocations : List Location := [.id, .version, .ctrl, .status, .result, .esticky, .lastcmd, .cmd]

theorem SameStatus.readLocation {s s' : State} (h : SameStatus s s') {l : Location} (hl : l ∈ controlLocations) :
    s'.readLocation l = s.readLocation l := by
  simp only [controlLocations, List.mem_cons, List.not_mem_nil, or_false] at hl
  rcases hl with rfl | rfl | rfl | rfl | rfl | rfl | rfl | rfl <;>
    simp only [State.readLocation, State.statusWord, h.busy, h.done, h.code, h.flag, h.esticky, h.lastcmd]

/-- While `BUSY = 1` a read returns what the control block shows, or 0 outside it (R74). -/
theorem SameStatus.readWord {s s' : State} (h : SameStatus s s') (hb : s.busy = true) (ix : WordIndex) :
    s'.readWord ix = s.readWord ix := by
  rw [State.readWord, State.readWord]
  by_cases hoff : 0x020 ≤ ix.off
  · rw [if_pos (refuses_of_busy hb hoff), if_pos (refuses_of_busy (h.busy.trans hb) hoff)]
  · rw [refuses_control s (not_le.mp hoff), refuses_control s' (not_le.mp hoff), if_neg Bool.false_ne_true,
      if_neg Bool.false_ne_true]
    exact h.readLocation (locate_control ix (not_le.mp hoff))

/-- A read while `BUSY = 1` acts on the sticky record alone, by a function of the record. -/
theorem readEffect_of_busy (ix : WordIndex) :
    ∃ g : Word → Word, ∀ s : State, s.busy = true → s.readEffect ix = { s with esticky := g s.esticky } := by
  by_cases hoff : 0x020 ≤ ix.off
  · exact ⟨(· ||| busyAccBit), fun s hb => if_pos (refuses_of_busy hb hoff)⟩
  · have hmapped : locate ix ≠ .unmapped := fun hu => by simpa [hu] using locate_control ix (not_le.mp hoff)
    refine ⟨id, fun s _ => ?_⟩
    rw [State.readEffect, refuses_control s (not_le.mp hoff), if_neg Bool.false_ne_true, if_neg hmapped]
    rfl

/-- A write of the control block while `BUSY = 1`, no soft reset, acts on the sticky record alone. -/
theorem writeLocation_of_busy {v : Word} {l : Location} (hl : l ∈ controlLocations)
    (hv : l = .ctrl → v.getLsbD 0 = false) :
    ∃ g : Word → Word, ∀ s : State, s.busy = true → s.writeLocation v l = { s with esticky := g s.esticky } := by
  cases hw : l.isWritable with
  | false => exact ⟨(· ||| badAccBit), fun s _ => writeLocation_of_not_writable s v hw⟩
  | true =>
    cases l with
    | ctrl => exact ⟨id, fun s _ => writeCtrl_of_clear (hv rfl)⟩
    | esticky => exact ⟨(· &&& ~~~(v &&& stickyMask)), fun s _ => rfl⟩
    | cmd => exact ⟨(· ||| busyAccBit), fun s hb => writeCmd_of_busy v hb⟩
    | kMag i j => simp [controlLocations] at hl
    | kSign i => simp [controlLocations] at hl
    | _ => cases hw

theorem writeEffect_of_busy {ix : WordIndex} {v : Word} (hv : ix = indexOf 0x008 → v.getLsbD 0 = false) :
    ∃ g : Word → Word, ∀ s : State, s.busy = true → s.writeEffect ix v = { s with esticky := g s.esticky } := by
  by_cases hoff : 0x020 ≤ ix.off
  · exact ⟨(· ||| busyAccBit), fun s hb => if_pos (refuses_of_busy hb hoff)⟩
  · obtain ⟨g, hg⟩ := writeLocation_of_busy (locate_control ix (not_le.mp hoff)) fun hl => hv (locate_ctrl ix hl)
    exact ⟨g, fun s hb => (writeEffect_control s v (not_le.mp hoff)).trans (hg s hb)⟩

/-- The state with another sticky record and another answer of the port, the parts of it an access while `BUSY = 1`
can change. -/
def State.withSticky (s : State) (bits : Word) (reply : Reply) : State := { s with esticky := bits, reply := reply }

/-- An access while `BUSY = 1`, no soft reset: the new sticky record is a function of the old one, and the answer one of
the parts the control block shows. -/
theorem performEvent_of_busy {e : Event} (he : e.IsAccessButReset) :
    ∃ (g : Word → Word) (answer : State → Reply),
      (∀ s, s.busy = true → s.hreset = false → performEvent e s = .next (s.withSticky (g s.esticky) (answer s))) ∧
      ∀ s s', s.busy = true → SameStatus s s' → answer s' = answer s := by
  obtain ⟨ix, rfl⟩ | ⟨ix, v, rfl, hv⟩ := he
  · obtain ⟨g, hg⟩ := readEffect_of_busy ix
    refine ⟨g, fun s => .data (s.readWord ix), fun s hb hh => ?_, fun s s' hb h => ?_⟩
    · rw [performEvent, State.hostRead, hh, if_neg Bool.false_ne_true, hg s hb]
      rfl
    · exact congrArg Reply.data (h.readWord hb ix)
  · obtain ⟨g, hg⟩ := writeEffect_of_busy hv
    refine ⟨g, fun _ => .written, fun s hb hh => ?_, fun _ _ _ _ => rfl⟩
    rw [performEvent, State.hostWrite, hh, if_neg Bool.false_ne_true, hg s hb]
    rfl

/-! ### No completion reads the sticky record -/

theorem withSticky_sameBlock (s : State) (bits : Word) (reply : Reply) :
    SameBlock { s with esticky := bits } (s.withSticky bits reply) := { SameBlock.refl s with esticky := rfl }

section
variable (bits : Word) (reply : Reply)

theorem fail_withSticky (s : State) (e : ErrorKind) :
    (s.withSticky bits reply).fail e = (s.fail e).withSticky (bits ||| e.stickyBit) reply := rfl

theorem completeF_withSticky (s : State) (n : Nibble) (r : Except ErrorKind W256) :
    ∃ b, (s.withSticky bits reply).completeF n r = (s.completeF n r).withSticky b reply := by
  cases r with
  | ok v => exact ⟨bits, rfl⟩
  | error e => exact ⟨_, fail_withSticky bits reply s e⟩

variable {s t : State}

theorem completeP_withSticky {n : Nibble} {r : Except ErrorKind Point} (h : s.completeP n r = .next t) :
    ∃ b, (s.withSticky bits reply).completeP n r = .next (t.withSticky b reply) := by
  obtain ⟨Q, rfl, rfl⟩ := completeP_next h
  exact ⟨bits, rfl⟩

theorem execPnew_withSticky {rd ra rb : Nibble} {hx hy : Bool} (h : execPnew rd ra rb hx hy s = .next t) :
    ∃ b, execPnew rd ra rb hx hy (s.withSticky bits reply) = .next (t.withSticky b reply) := by
  cases hx <;> cases hy
  · exact completeP_withSticky bits reply (r := .ok .infinity) h
  · cases h; exact ⟨_, congrArg _ (fail_withSticky bits reply s .mismatchedCoordinates)⟩
  · cases h; exact ⟨_, congrArg _ (fail_withSticky bits reply s .mismatchedCoordinates)⟩
  · rw [execPnew_coordinates] at h ⊢
    split at h
    · next hcurve =>
      obtain ⟨b, hb⟩ := completeP_withSticky bits reply h
      exact ⟨b, (if_pos hcurve).trans hb⟩
    · next hcurve => cases h; exact ⟨_, if_neg hcurve⟩

/-- No command reads the sticky record or the port's answer: with others of them it completes alike. -/
theorem exec_withSticky {i : Instr} (h : exec i s = .next t) :
    ∃ b, exec i (s.withSticky bits reply) = .next (t.withSticky b reply) := by
  have hF {n : Nibble} {r : Except ErrorKind W256} (ht : s.completeF n r = t) :
      ∃ b, (.next ((s.withSticky bits reply).completeF n r) : Host.Outcome State Fault Refusal) =
        .next (t.withSticky b reply) := by
    obtain ⟨b, hb⟩ := completeF_withSticky bits reply s n r
    exact ⟨b, congrArg _ (hb.trans (ht ▸ rfl))⟩
  cases i with
  | feq ra rb => cases h; exact ⟨bits, rfl⟩
  | pisinf ra => cases h; exact ⟨bits, rfl⟩
  | peq ra rb => cases h; exact ⟨bits, rfl⟩
  | pnew rd ra rb hx hy => exact execPnew_withSticky bits reply h
  | pldg rd => exact completeP_withSticky bits reply (r := .ok generator) h
  | pmov rd ra => exact completeP_withSticky bits reply (r := .ok (s.readP ra)) h
  | pdbl rd ra => exact completeP_withSticky bits reply h
  | padd rd ra rb => exact completeP_withSticky bits reply h
  | pmul rd ra rb => exact completeP_withSticky bits reply h
  | _ => exact hF (Host.Outcome.next.inj h)

theorem completeStep_withSticky (h : completeStep s = .next t) :
    ∃ b, completeStep (s.withSticky bits reply) = .next (t.withSticky b reply) := by
  unfold completeStep at h ⊢
  rw [show (s.withSticky bits reply).cur = s.cur from rfl]
  cases hd : decode s.cur with
  | command i =>
    rw [hd] at h
    exact exec_withSticky bits reply h
  | illegal =>
    rw [hd] at h
    cases h
    exact ⟨_, congrArg _ (fail_withSticky bits reply s .illegalCommand)⟩

end

/-- Settles O55: the access leaves the state with another sticky record, which no completion reads, and is itself
decided by what the control block shows. -/
theorem flightIsUndisturbed : Obligations.FlightIsUndisturbed := by
  unfold Obligations.FlightIsUndisturbed
  refine ⟨fun s t e hb hh he ht => ?_, fun s s' e hb hb' hh hh' hflag hdone hcode hsticky hlast he => ?_⟩
  · obtain ⟨g, answer, hevent, -⟩ := performEvent_of_busy he
    obtain rfl := Host.Outcome.next.inj ((hevent s hb hh).symm.trans ht)
    refine ⟨withSticky_sameBlock s _ _, fun u hu => ?_⟩
    obtain ⟨b, hcomplete⟩ := completeStep_withSticky (g s.esticky) (answer s) hu
    exact ⟨_, hcomplete, withSticky_sameBlock u b _⟩
  · obtain ⟨g, answer, hevent, hanswer⟩ := performEvent_of_busy he
    have hstatus : SameStatus s s' := ⟨hb'.trans hb.symm, hdone, hcode, hflag, hsticky, hlast⟩
    exact ⟨_, _, hevent s hb hh, hevent s' hb' hh', hanswer s s' hb hstatus, congrArg g hsticky⟩

end Sys2Proof.Machine
end

section
/-! SUPPORT. The command encoding (R101 to R106, R110). A word is its seven fields; a row's mask test is a condition on
each of them; it holds exactly for the words of the well-formed commands of the row. So the decoder inverts the encoder,
and what is illegal is read off the words the encoder gives. -/

namespace Sys2Proof

/-! ### The fields of a word -/

/-- Bits 11:2 of a command word (R101). -/
def reservedOf (w : Word) : BitVec 10 := w.extractLsb' 2 10

section
variable (w v : Word)

theorem extractLsb'_toNat_div (start len : ℕ) :
    (w.extractLsb' start len).toNat = w.toNat / 2 ^ start % 2 ^ len := by
  rw [BitVec.extractLsb'_toNat, Nat.shiftRight_eq_div_pow]

theorem opcodeOf_toNat : (opcodeOf w).toNat = w.toNat / 2 ^ 24 := by
  rw [opcodeOf, extractLsb'_toNat_div]; omega

theorem rdOf_toNat : (rdOf w).toNat = w.toNat / 2 ^ 20 % 2 ^ 4 := extractLsb'_toNat_div w 20 4

theorem raOf_toNat : (raOf w).toNat = w.toNat / 2 ^ 16 % 2 ^ 4 := extractLsb'_toNat_div w 16 4

theorem rbOf_toNat : (rbOf w).toNat = w.toNat / 2 ^ 12 % 2 ^ 4 := extractLsb'_toNat_div w 12 4

theorem reservedOf_toNat : (reservedOf w).toNat = w.toNat / 4 % 2 ^ 10 := extractLsb'_toNat_div w 2 10

theorem hxOf_toNat : (hxOf w).toNat = w.toNat / 2 % 2 := Nat.toNat_testBit w.toNat 1

theorem hyOf_toNat : (hyOf w).toNat = w.toNat % 2 := by
  rw [hyOf, BitVec.getLsbD, Nat.toNat_testBit, pow_zero, Nat.div_one]

theorem opcodeOf_and : opcodeOf (w &&& v) = opcodeOf w &&& opcodeOf v := BitVec.extractLsb'_and

theorem rdOf_and : rdOf (w &&& v) = rdOf w &&& rdOf v := BitVec.extractLsb'_and

theorem raOf_and : raOf (w &&& v) = raOf w &&& raOf v := BitVec.extractLsb'_and

theorem rbOf_and : rbOf (w &&& v) = rbOf w &&& rbOf v := BitVec.extractLsb'_and

theorem reservedOf_and : reservedOf (w &&& v) = reservedOf w &&& reservedOf v := BitVec.extractLsb'_and

theorem hxOf_and : hxOf (w &&& v) = (hxOf w && hxOf v) := BitVec.getLsbD_and

theorem hyOf_and : hyOf (w &&& v) = (hyOf w && hyOf v) := BitVec.getLsbD_and

end

/-- A word is its seven fields (R101). -/
theorem word_ext_iff {w v : Word} : w = v ↔ opcodeOf w = opcodeOf v ∧ rdOf w = rdOf v ∧ raOf w = raOf v ∧
    rbOf w = rbOf v ∧ reservedOf w = reservedOf v ∧ hxOf w = hxOf v ∧ hyOf w = hyOf v := by
  refine ⟨fun h => h ▸ ⟨rfl, rfl, rfl, rfl, rfl, rfl, rfl⟩, fun ⟨hop, hrd, hra, hrb, hres, hhx, hhy⟩ => ?_⟩
  have hhx := congrArg Bool.toNat hhx
  have hhy := congrArg Bool.toNat hhy
  rw [BitVec.toNat_eq] at hop hrd hra hrb hres ⊢
  simp only [opcodeOf_toNat, rdOf_toNat, raOf_toNat, rbOf_toNat, reservedOf_toNat, hxOf_toNat, hyOf_toNat]
    at hop hrd hra hrb hres hhx hhy
  omega

/-! ### The nibbles of a mask

A mask nibble is `0` where every register may stand, `8` for a P register, `12` for a K register, `15` where the format
has no register. -/

theorem isPNibble_iff_and (n : Nibble) : isPNibble n = true ↔ n &&& 8#4 = 0#4 := by decide +revert

theorem isKNibble_iff_and (n : Nibble) : isKNibble n = true ↔ n &&& 12#4 = 0#4 := by decide +revert

theorem nibble_and_fifteen (n : Nibble) : n &&& 15#4 = n := BitVec.and_allOnes

/-! ### The rows of the opcode map -/

/-- Each row tests the whole opcode and bits 11:2, and asks the other bits it tests to be zero (R104). -/
theorem rowTest_iff_fields {r : Row} (hr : r ∈ rows) (w : Word) : w &&& r.mask = r.pattern ↔
    opcodeOf w = opcodeOf r.pattern ∧ rdOf w &&& rdOf r.mask = 0#4 ∧ raOf w &&& raOf r.mask = 0#4 ∧
      rbOf w &&& rbOf r.mask = 0#4 ∧ reservedOf w = 0#10 ∧ (hxOf w && hxOf r.mask) = false ∧
      (hyOf w && hyOf r.mask) = false := by
  have hmask : ∀ r ∈ rows, opcodeOf r.mask = BitVec.allOnes 8 ∧ reservedOf r.mask = BitVec.allOnes 10 := by decide
  have hpattern : ∀ r ∈ rows, rdOf r.pattern = 0#4 ∧ raOf r.pattern = 0#4 ∧ rbOf r.pattern = 0#4 ∧
      reservedOf r.pattern = 0#10 ∧ hxOf r.pattern = false ∧ hyOf r.pattern = false := by decide
  obtain ⟨hop, hres⟩ := hmask r hr
  obtain ⟨hrd, hra, hrb, hres', hhx, hhy⟩ := hpattern r hr
  rw [word_ext_iff, opcodeOf_and, rdOf_and, raOf_and, rbOf_and, reservedOf_and, hxOf_and, hyOf_and, hop, hres,
    BitVec.and_allOnes, BitVec.and_allOnes, hrd, hra, hrb, hres', hhx, hhy]

theorem opcodeOf_eq_of_rowTest {r : Row} (hr : r ∈ rows) {w : Word} (h : w &&& r.mask = r.pattern) :
    opcodeOf w = opcodeOf r.pattern :=
  ((rowTest_iff_fields hr w).mp h).1

theorem nodup_opcodes : (rows.map fun r => opcodeOf r.pattern).Nodup := by decide

theorem row_eq_of_opcode {r r' : Row} (hr : r ∈ rows) (hr' : r' ∈ rows)
    (h : opcodeOf r.pattern = opcodeOf r'.pattern) : r = r' :=
  List.inj_on_of_nodup_map nodup_opcodes hr hr' h

/-- A row matches exactly the words of its well-formed commands: row by row, both sides ask the same of the fields. -/
theorem rowTest_iff_encode {r : Row} (hr : r ∈ rows) (w : Word) :
    w &&& r.mask = r.pattern ↔ (r.build w).wellFormed = true ∧ w = encode (r.build w) := by
  rw [rowTest_iff_fields hr, word_ext_iff (w := w)]
  revert r
  simp only [rows, rowsFieldConstruct, rowsFieldUnits, rowsPoint, List.cons_append, List.nil_append,
    List.forall_mem_cons, Instr.wellFormed, Bool.and_eq_true, isPNibble_iff_and, isKNibble_iff_and, encode,
    opcodeOf_assemble, rdOf_assemble, raOf_assemble, rbOf_assemble, hxOf_assemble, hyOf_assemble, reservedOf,
    reserved_assemble]
  and_intros
  all_goals simp [opcodeOf, rdOf, raOf, rbOf, hxOf, hyOf, nibble_and_fifteen]
  all_goals tauto

/-- Every command is what a row with its opcode builds from its word. -/
theorem exists_row (i : Instr) : ∃ r ∈ rows, opcodeOf r.pattern = opcodeByte i ∧ r.build (encode i) = i := by
  cases i <;>
    simp [rows, rowsFieldConstruct, rowsFieldUnits, rowsPoint, opcodeByte, opcodeOf, encode, rdOf_assemble,
      raOf_assemble, rbOf_assemble, hxOf_assemble, hyOf_assemble]

/-! ### The words of commands -/

theorem rowOpcode (i : Instr) : Laws.RowOpcode.Statement i := by
  cases i <;> exact rowOpcode_of_assemble rfl

/-- Bits 1 and 0 are the presence bits of PNEW and zero in every other command (R101). -/
theorem encode_toNat_mod_four {i : Instr} (h : opcodeByte i ≠ 0x40#8) : (encode i).toNat % 4 = 0 := by
  obtain ⟨hhx, hhy⟩ : hxOf (encode i) = false ∧ hyOf (encode i) = false := by
    cases i with
    | pnew => exact absurd rfl h
    | _ => exact ⟨hxOf_assemble .., hyOf_assemble ..⟩
  have hx := hxOf_toNat (encode i)
  have hy := hyOf_toNat (encode i)
  rw [hhx, Bool.toNat_false] at hx
  rw [hhy, Bool.toNat_false] at hy
  omega

/-- Different commands have different words, ill-formed ones included (R102). -/
theorem encode_injective {i j : Instr} (h : encode i = encode j) : i = j := by
  obtain ⟨r, hr, hop, hi⟩ := exists_row i
  obtain ⟨r', hr', hop', hj⟩ := exists_row j
  have hbyte : opcodeByte i = opcodeByte j := by rw [← (rowOpcode i).1, h, (rowOpcode j).1]
  obtain rfl := row_eq_of_opcode hr hr' (hop.trans (hbyte.trans hop'.symm))
  rw [← hi, h, hj]

/-! ### The decoder -/

/-- The inversion of the decoder's search. -/
theorem decodeRows_cases (rs : List Row) (w : Word) :
    (∃ r ∈ rs, w &&& r.mask = r.pattern ∧ decodeRows rs w = .command (r.build w)) ∨
      ((∀ r ∈ rs, w &&& r.mask ≠ r.pattern) ∧ decodeRows rs w = .illegal) := by
  induction rs with
  | nil => exact .inr ⟨nofun, rfl⟩
  | cons r rs ih =>
    by_cases h : w &&& r.mask = r.pattern
    · exact .inl ⟨r, List.mem_cons_self, h, if_pos h⟩
    · rw [show decodeRows (r :: rs) w = decodeRows rs w from if_neg h]
      rcases ih with ⟨r', hr', hih⟩ | ⟨hnone, hill⟩
      · exact .inl ⟨r', List.mem_cons_of_mem _ hr', hih⟩
      · exact .inr ⟨List.forall_mem_cons.mpr ⟨h, hnone⟩, hill⟩

/-- A row that matches decides the word: no other row matches it (R105). -/
theorem decode_of_rowTest {r : Row} (hr : r ∈ rows) {w : Word} (h : w &&& r.mask = r.pattern) :
    decode w = .command (r.build w) := by
  rcases decodeRows_cases rows w with ⟨r', hr', h', hd⟩ | ⟨hnone, -⟩
  · obtain rfl := row_eq_of_opcode hr hr'
      ((opcodeOf_eq_of_rowTest hr h).symm.trans (opcodeOf_eq_of_rowTest hr' h'))
    exact hd
  · exact absurd h (hnone r hr)

/-- The words that decode are the words of the well-formed commands. -/
theorem decode_eq_command_iff {w : Word} {i : Instr} :
    decode w = .command i ↔ i.wellFormed = true ∧ encode i = w := by
  constructor
  · intro h
    rcases decodeRows_cases rows w with ⟨r, hr, htest, hd⟩ | ⟨-, hd⟩
    · obtain rfl : r.build w = i := Decoded.command.inj (hd.symm.trans h)
      obtain ⟨hwf, hw⟩ := (rowTest_iff_encode hr w).mp htest
      exact ⟨hwf, hw.symm⟩
    · cases hd.symm.trans h
  · rintro ⟨hwf, rfl⟩
    obtain ⟨r, hr, -, hi⟩ := exists_row i
    have htest := (rowTest_iff_encode hr (encode i)).mpr (by rw [hi]; exact ⟨hwf, rfl⟩)
    rw [decode_of_rowTest hr htest, hi]

/-- A word that is no well-formed command's is illegal (R106, R110). -/
theorem decode_eq_illegal {w : Word} (h : ∀ i : Instr, i.wellFormed = true → encode i ≠ w) : decode w = .illegal := by
  cases hd : decode w with
  | illegal => rfl
  | command i =>
    obtain ⟨hwf, hw⟩ := decode_eq_command_iff.mp hd
    exact absurd hw (h i hwf)

/-! ### The statements -/

/-- Settles O1: the words that decode are the words of the well-formed commands. -/
theorem decodeOfEncode : Obligations.DecodeOfEncode := fun _ h => decode_eq_command_iff.mpr ⟨h, rfl⟩

/-- Settles O2: the other half of `decode_eq_command_iff`. -/
theorem encodeOfDecode : Obligations.EncodeOfDecode := fun _ _ => decode_eq_command_iff.mp

/-- Settles O3: a nibble's low bits are its remainder, and the encoder gives the word of an ill-formed command to no
other command. -/
theorem outOfRangeIndexIsIllegal : Obligations.OutOfRangeIndexIsIllegal := by
  unfold Obligations.OutOfRangeIndexIsIllegal
  refine ⟨by decide, by decide, fun i hi => decode_eq_illegal fun j hj h => ?_⟩
  obtain rfl := encode_injective h
  cases hi.symm.trans hj

/-- Settles O4: a row tests the opcode, and no two rows have the same. -/
theorem rowsAreDisjoint : Obligations.RowsAreDisjoint := by
  refine ⟨rfl, (List.pairwise_map.mp nodup_opcodes).imp_of_mem fun hr hr' hne w ⟨h, h'⟩ => hne ?_⟩
  rw [← opcodeOf_eq_of_rowTest hr h, ← opcodeOf_eq_of_rowTest hr' h']

/-- Settles O5, by evaluation. -/
theorem specWordsDecode : Obligations.SpecWordsDecode := by
  unfold Obligations.SpecWordsDecode
  decide

/-- Settles O6: no command's word has such an opcode or such bits. -/
theorem reservedEncodingsAreIllegal : Obligations.ReservedEncodingsAreIllegal := by
  unfold Obligations.ReservedEncodingsAreIllegal
  refine fun w => ⟨fun hop => decode_eq_illegal ?_, fun hres => decode_eq_illegal ?_,
    fun hbits hop => decode_eq_illegal ?_⟩ <;> rintro i - rfl
  · rw [← opcodeOf_toNat, (rowOpcode i).1] at hop
    cases i <;> simp [opcodeByte] at hop
  · exact hres ((reservedOf_toNat _).symm.trans (congrArg BitVec.toNat (rowOpcode i).2))
  · rw [← opcodeOf_toNat, (rowOpcode i).1] at hop
    exact hbits (encode_toNat_mod_four fun h => hop (congrArg BitVec.toNat h))

end Sys2Proof
end

section
/-! SUPPORT. Field construction, copy and comparison (R141 to R145). The words of a command are those of its row (R104),
with the operands read as numbers; a command that answers a result completes by the shared operation, and the test of
FNEW is a test of the integer (R25). -/

namespace Sys2Proof.Machine

open Sys2Proof.Config (p)

/-! ### The words of a command (R101, R104) -/

theorem bitsRd_eq (w : Word) : bitsRd w = rdOf w := by
  rw [BitVec.toNat_eq, BitVec.toNat_ofNat, rdOf_toNat]

theorem bitsRa_eq (w : Word) : bitsRa w = raOf w := by
  rw [BitVec.toNat_eq, BitVec.toNat_ofNat, raOf_toNat]

theorem bitsRb_eq (w : Word) : bitsRb w = rbOf w := by
  rw [BitVec.toNat_eq, BitVec.toNat_ofNat, rbOf_toNat]

/-- The words that match a row are those that decode to what the row builds (R104, R106). -/
theorem encodedBy_of_mem_rows {pattern mask : Word} {build : Word → Instr}
    (hr : ⟨pattern, mask, build⟩ ∈ rows) : EncodedBy pattern mask build := by
  refine fun w => ⟨decode_of_rowTest hr, fun hd => (rowTest_iff_encode hr w).mpr ?_⟩
  obtain ⟨hwf, hw⟩ := decode_eq_command_iff.mp hd
  exact ⟨hwf, hw.symm⟩

/-! ### The completions of a command that writes a field register or `T` (R29, R316, R318) -/

section
variable {i : Instr} {s : State} {n : Nibble} {r : Except ErrorKind W256}

theorem completesF_of_exec {v : W256} (h : exec i s = .next (s.completeF n r)) (hr : r = .ok v) :
    CompletesF i n v s := by
  subst hr
  exact ⟨_, h, succeeds_writeF s n v⟩

theorem completesFailing_of_exec {e : ErrorKind} (h : exec i s = .next (s.completeF n r)) (hr : r = .error e) :
    CompletesFailing i e.code.toNat s := by
  subst hr
  exact ⟨_, h, fail_fails s e⟩

theorem completesT_of_exec {b : Bool} (h : exec i s = .next (s.completeT b)) : CompletesT i b s :=
  ⟨_, h, succeeds_writeT s b⟩

end

/-! ### FNEW (R141) -/

/-- The sign bit makes an integer negative unless its magnitude is zero (R25). -/
theorem IntReg.value_neg_iff {k : IntReg} : k.value < 0 ↔ k.sign = true ∧ k.mag ≠ 0#256 := by
  have hmag : k.mag ≠ 0#256 ↔ 0 < k.mag.toNat := by simp [BitVec.toNat_eq, Nat.pos_iff_ne_zero]
  rw [hmag, IntReg.value]
  cases k.sign <;> simp

theorem IntReg.mag_toNat_eq_value {k : IntReg} (h : 0 ≤ k.value) : (k.mag.toNat : Int) = k.value := by
  cases hsign : k.sign with
  | false => simp [IntReg.value, hsign]
  | true =>
    rw [IntReg.value, if_pos hsign] at h ⊢
    omega

/-- `new(num)` decides by the integer alone, so that `sign = 1, mag = 0` is accepted (R141). -/
theorem fieldNew_eq (k : IntReg) :
    fieldNew k = if 0 ≤ k.value ∧ k.value < p then .ok k.mag else .error .outOfRange := by
  simp only [fieldNew, ← IntReg.value_neg_iff]
  by_cases hneg : k.value < 0
  · rw [if_pos hneg, if_neg (by omega)]
  · have hvalue := IntReg.mag_toNat_eq_value (not_lt.mp hneg)
    rw [if_neg hneg]
    by_cases hp : p ≤ k.mag.toNat
    · rw [if_pos hp, if_neg (by omega)]
    · rw [if_neg hp, if_pos (by omega)]

/-- Settles O9: the row of FNEW, and the two branches of `fieldNew_eq`. -/
theorem fnewChecksRange : Obligations.FnewChecksRange := by
  unfold Obligations.FnewChecksRange
  simp only [bitsRd_eq, bitsRa_eq]
  refine ⟨encodedBy_of_mem_rows (by simp [rows, rowsFieldConstruct]),
    fun s rd ra => ⟨fun h => ?_, fun h => ?_⟩⟩
  · exact ⟨_, IntReg.mag_toNat_eq_value h.1, completesF_of_exec rfl ((fieldNew_eq _).trans (if_pos h))⟩
  · exact completesFailing_of_exec rfl ((fieldNew_eq _).trans (if_neg h))

/-- Settles O10: the rows of the three commands, each of which completes with a value in every state. -/
theorem fzeroFoneFmovWrite : Obligations.FzeroFoneFmovWrite := by
  unfold Obligations.FzeroFoneFmovWrite
  simp only [bitsRd_eq, bitsRa_eq]
  refine ⟨?fzero, ?fone, ?fmov,
    fun s rd ra => ⟨completesF_of_exec rfl rfl, completesF_of_exec rfl rfl, completesF_of_exec rfl rfl⟩⟩
  all_goals exact encodedBy_of_mem_rows (by simp [rows, rowsFieldConstruct])

/-- Settles O11: the row of FEQ; two values are equal exactly when they are the same integer. -/
theorem feqComparesIntegers : Obligations.FeqComparesIntegers := by
  unfold Obligations.FeqComparesIntegers
  simp only [bitsRa_eq, bitsRb_eq, ← BitVec.toNat_eq, ← fieldsEqual_eq]
  exact ⟨encodedBy_of_mem_rows (by simp [rows, rowsFieldConstruct]),
    fun s ra rb => completesT_of_exec rfl⟩

end Sys2Proof.Machine
end

section
/-! SUPPORT. The modular adder: FADD, FSUB and FNEG (R161 to R168), and the laws of the field operations (R168, R190),
each read off the field of residues. -/

namespace Sys2Proof.Machine

open Sys2Proof.Config (p)

/-! ### The adder's results as integers -/

/-- `fsub` is the floored difference modulo `p` (R162). -/
theorem fsub_toInt {a b : W256} (ha : Canonical a) (hb : Canonical b) :
    ((fsub a b).toNat : Int) = ((a.toNat : Int) - b.toNat) % (p : Int) := by
  have hle : b.toNat ≤ p := Nat.le_of_lt hb
  calc ((fsub a b).toNat : Int)
      = ((a.toNat : Int) + ((p : Int) - b.toNat)) % (p : Int) := by
        rw [fsub_toNat ha hb, Int.natCast_emod, Int.natCast_add, Int.natCast_sub hle]
    _ = ((a.toNat : Int) - b.toNat + p) % (p : Int) := by congr 1; ring
    _ = ((a.toNat : Int) - b.toNat) % (p : Int) := Int.add_emod_right _ _

/-- A canonical value is determined by its residue: an identity of canonical values is one of the field. -/
theorem eq_of_toField_eq {a b : W256} (ha : Canonical a) (hb : Canonical b) (h : toField a = toField b) : a = b :=
  (toField_inj ha hb).mp h

@[simp] theorem toField_one : toField 1#256 = 1 := by simp [toField]

theorem fneg_eq_fsub_zero {a : W256} (ha : Canonical a) : fneg a = fsub 0#256 a :=
  eq_of_toField_eq (canonical_fneg ha) (canonical_fsub canonical_zero ha) (by
    rw [toField_fneg ha, toField_fsub canonical_zero ha, toField_zero, zero_sub])

theorem fneg_fneg {a : W256} (ha : Canonical a) : fneg (fneg a) = a :=
  eq_of_toField_eq (canonical_fneg (canonical_fneg ha)) ha (by
    rw [toField_fneg (canonical_fneg ha), toField_fneg ha, neg_neg])

/-! ### The laws of addition and multiplication -/

theorem fadd_comm {a b : W256} (ha : Canonical a) (hb : Canonical b) : fadd a b = fadd b a :=
  eq_of_toField_eq (canonical_fadd ha hb) (canonical_fadd hb ha) (by
    rw [toField_fadd ha hb, toField_fadd hb ha, add_comm])

theorem fadd_assoc {a b c : W256} (ha : Canonical a) (hb : Canonical b) (hc : Canonical c) :
    fadd (fadd a b) c = fadd a (fadd b c) :=
  have hab := canonical_fadd ha hb
  have hbc := canonical_fadd hb hc
  eq_of_toField_eq (canonical_fadd hab hc) (canonical_fadd ha hbc) (by
    rw [toField_fadd hab hc, toField_fadd ha hb, toField_fadd ha hbc, toField_fadd hb hc, add_assoc])

theorem fadd_zero {a : W256} (ha : Canonical a) : fadd a 0#256 = a :=
  eq_of_toField_eq (canonical_fadd ha canonical_zero) ha (by
    rw [toField_fadd ha canonical_zero, toField_zero, add_zero])

theorem fsub_self {a : W256} (ha : Canonical a) : fsub a a = 0#256 :=
  eq_of_toField_eq (canonical_fsub ha ha) canonical_zero (by
    rw [toField_fsub ha ha, sub_self, toField_zero])

theorem fmul_comm (a b : W256) : fmul a b = fmul b a := by rw [fmul, fmul, Nat.mul_comm]

theorem fmul_assoc (a b c : W256) : fmul (fmul a b) c = fmul a (fmul b c) :=
  eq_of_toField_eq (canonical_fmul _ _) (canonical_fmul _ _) (by simp only [toField_fmul, mul_assoc])

theorem fmul_one {a : W256} (ha : Canonical a) : fmul a 1#256 = a :=
  eq_of_toField_eq (canonical_fmul _ _) ha (by rw [toField_fmul, toField_one, mul_one])

/-! ### The obligations -/

/-- Settles O12: the row of FADD, and `fadd` is the sum modulo `p`. -/
theorem faddIsModularSum : Obligations.FaddIsModularSum := by
  unfold Obligations.FaddIsModularSum
  simp only [bitsRd_eq, bitsRa_eq, bitsRb_eq]
  exact ⟨encodedBy_of_mem_rows (by simp [rows, rowsFieldUnits]), fun s rd ra rb ha hb =>
    ⟨_, fadd_toNat ha hb, canonical_fadd ha hb, completesF_of_exec rfl rfl⟩⟩

/-- Settles O13: the row of FSUB, and `fsub` is the floored difference modulo `p`. -/
theorem fsubIsModularDifference : Obligations.FsubIsModularDifference := by
  unfold Obligations.FsubIsModularDifference
  simp only [bitsRd_eq, bitsRa_eq, bitsRb_eq]
  exact ⟨encodedBy_of_mem_rows (by simp [rows, rowsFieldUnits]), fun s rd ra rb ha hb =>
    ⟨_, fsub_toInt ha hb, canonical_fsub ha hb, completesF_of_exec rfl rfl⟩⟩

/-- Settles O14: the row of FNEG; in the field of residues `fneg` is the negation. -/
theorem fnegIsModularNegation : Obligations.FnegIsModularNegation := by
  unfold Obligations.FnegIsModularNegation
  simp only [bitsRd_eq, bitsRa_eq]
  exact ⟨encodedBy_of_mem_rows (by simp [rows, rowsFieldUnits]),
    fun s rd ra ha => ⟨_, fneg_toNat ha, completesF_of_exec rfl rfl⟩,
    fun a ha => ⟨fneg_eq_fsub_zero ha, fneg_fneg ha⟩⟩

/-- Settles O15: each law is the law of the field of residues, as every result is canonical. -/
theorem fieldLaws : Obligations.FieldLaws := by
  unfold Obligations.FieldLaws
  exact fun a b c ha hb hc => ⟨fadd_comm ha hb, fadd_assoc ha hb hc, fadd_zero ha, fsub_self ha,
    fmul_comm a b, fmul_assoc a b c, fmul_one ha⟩

end Sys2Proof.Machine
end

section
/-! SUPPORT. The modular multiplier: FMUL and FSMUL (R181 to R184), and the reference reductions (R187 to R189). A
reduction keeps the residue modulo `p`, bounds what it reaches, and ends with subtractions of `p`. -/

namespace Sys2Proof.Machine

open Sys2Proof.Config (p)

/-! ### The multiplication by an integer (R182) -/

theorem toField_ofNat_emod (k : ℤ) : toField (BitVec.ofNat 256 (k % (p : ℤ)).toNat) = k := by
  have hp : (0 : ℤ) < p := by exact_mod_cast p_pos
  have hnonneg := Int.emod_nonneg k hp.ne'
  have hlt := Int.emod_lt_of_pos k hp
  have hcast : (((k % (p : ℤ)).toNat : ℤ) : ZMod p) = k := by rw [Int.toNat_of_nonneg hnonneg, ZMod.intCast_mod]
  rw [toField, toNat_ofNat_of_lt_p (by omega), ← Int.cast_natCast, hcast]

theorem fsmul_neg_one {a : W256} (ha : Canonical a) : fsmul (-1) a = fneg a :=
  eq_of_toField_eq (canonical_fsmul _ _) (canonical_fneg ha) (by
    rw [toField_fsmul, toField_fneg ha, Int.cast_neg, Int.cast_one, neg_one_mul])

theorem fsmul_eq_fmul (k : ℤ) (a : W256) : fsmul k a = fmul (BitVec.ofNat 256 (k % (p : ℤ)).toNat) a :=
  eq_of_toField_eq (canonical_fsmul _ _) (canonical_fmul _ _) (by
    rw [toField_fsmul, toField_fmul, toField_ofNat_emod])

/-! ### The last subtractions of a reduction

The conditional subtraction that ends `reduce_fold` and `mont` is one turn of the loop that ends `reduce_barrett`. -/

/-- Subtracting `p` while it fits gives the remainder, when the loop has a turn for every multiple of `p`. -/
theorem subtractLoop_eq_mod (fuel : ℕ) {r : ℕ} (h : r < (fuel + 1) * p) : subtractLoop fuel r = r % p := by
  induction fuel generalizing r with
  | zero => exact (Nat.mod_eq_of_lt (by rwa [zero_add, one_mul] at h)).symm
  | succ fuel ih =>
    unfold subtractLoop
    by_cases hp : p ≤ r
    · rw [if_pos hp, Nat.mod_eq_sub_mod hp]
      exact ih (by rw [Nat.succ_mul] at h; omega)
    · rw [if_neg hp, Nat.mod_eq_of_lt (not_le.mp hp)]

/-! ### `reduce_fold` (R187) -/

/-- One turn of the loop of `reduce_fold`: the high half comes down multiplied by `c`. -/
def foldTurn (t : ℕ) : ℕ := t / 2 ^ 256 * foldConst + t % 2 ^ 256

theorem reduceFold_eq (t : ℕ) : reduceFold t = subtractLoop 1 (foldLoop 3 t) := rfl

theorem foldLoop_succ (fuel t : ℕ) :
    foldLoop (fuel + 1) t = if 2 ^ 256 ≤ t then foldLoop fuel (foldTurn t) else t := rfl

theorem p_add_foldConst : p + foldConst = 2 ^ 256 := by decide +kernel

/-- A turn subtracts a multiple of `p`, as `2^256 = p + c`. -/
theorem foldTurn_modEq (t : ℕ) : foldTurn t ≡ t [MOD p] := by
  have h : foldTurn t + p * (t / 2 ^ 256) = t := by
    calc foldTurn t + p * (t / 2 ^ 256) = (p + foldConst) * (t / 2 ^ 256) + t % 2 ^ 256 := by rw [foldTurn]; ring
      _ = t := by rw [p_add_foldConst, Nat.div_add_mod]
  conv_rhs => rw [← h]
  exact (Nat.add_mul_mod_self_left _ _ _).symm

theorem foldLoop_modEq (fuel t : ℕ) : foldLoop fuel t ≡ t [MOD p] := by
  induction fuel generalizing t with
  | zero => rfl
  | succ fuel ih =>
    rw [foldLoop_succ]
    split
    · exact (ih _).trans (foldTurn_modEq t)
    · rfl

/-- `reach` is a bound from which `fuel` turns bring every value below `2^256`. -/
theorem foldLoop_succ_lt {fuel bound reach : ℕ} (ih : ∀ t < bound, foldLoop fuel t < 2 ^ 256)
    (hturn : ∀ t < reach, foldTurn t < bound) : ∀ t < reach, foldLoop (fuel + 1) t < 2 ^ 256 := by
  intro t ht
  rw [foldLoop_succ]
  split
  · exact ih _ (hturn t ht)
  · omega

/-- Three turns suffice: the value falls below `2^256 * (c + 1)`, then `2^256 + c^2`, then `2^256`. -/
theorem foldLoop_three_lt : ∀ t < 2 ^ 512, foldLoop 3 t < 2 ^ 256 := by
  have h0 : ∀ t < 2 ^ 256, foldLoop 0 t < 2 ^ 256 := fun _ => id
  have h1 := foldLoop_succ_lt (reach := 2 ^ 256 + foldConst ^ 2) h0 fun t ht => by
    simp only [foldTurn, foldConst] at ht ⊢; omega
  have h2 := foldLoop_succ_lt (reach := 2 ^ 256 * (foldConst + 1)) h1 fun t ht => by
    simp only [foldTurn, foldConst] at ht ⊢; omega
  exact foldLoop_succ_lt h2 fun t ht => by
    simp only [foldTurn, foldConst] at ht ⊢; omega

theorem reduceFold_eq_mod {t : ℕ} (ht : t < 2 ^ 512) : reduceFold t = t % p := by
  rw [reduceFold_eq, subtractLoop_eq_mod 1 ((foldLoop_three_lt t ht).trans two_p_gt)]
  exact foldLoop_modEq 3 t

/-! ### `reduce_barrett` (R188) -/

/-- The estimate of the quotient in `reduce_barrett`. -/
def barrettQuotient (t : ℕ) : ℕ := t / 2 ^ 255 * barrettMu / 2 ^ 257

theorem reduceBarrett_eq (t : ℕ) : reduceBarrett t = subtractLoop 2 (t - barrettQuotient t * p) := rfl

/-- The estimate is never too great and at most two too small: the two divisions are linear bounds on the quotient,
and `mu * p` lies just below `2^512`. -/
theorem barrettQuotient_bounds {t : ℕ} (ht : t < 2 ^ 512) :
    barrettQuotient t * p ≤ t ∧ t < barrettQuotient t * p + 3 * p := by
  unfold barrettQuotient barrettMu p
  omega

theorem reduceBarrett_eq_mod {t : ℕ} (ht : t < 2 ^ 512) : reduceBarrett t = t % p := by
  obtain ⟨hle, hlt⟩ := barrettQuotient_bounds ht
  rw [reduceBarrett_eq, subtractLoop_eq_mod 2 (by omega)]
  rw [Nat.mul_comm] at hle ⊢
  exact Nat.sub_mul_mod hle

/-! ### `mont` (R189) -/

theorem montPrime_mul_p : 2 ^ 256 ∣ montPrime * p + 1 := by decide +kernel

theorem montSquare_modEq : montSquare ≡ 2 ^ 256 * 2 ^ 256 [MOD p] := by decide +kernel

theorem montSquare_lt : montSquare < p := by decide +kernel

theorem coprime_p_radix : Nat.Coprime p (2 ^ 256) := by decide +kernel

/-- The multiple of `p` that `mont` adds to the product to make it divisible by `2^256`. -/
def montFactor (T : ℕ) : ℕ := T % 2 ^ 256 * montPrime % 2 ^ 256

theorem montFactor_lt (T : ℕ) : montFactor T < 2 ^ 256 := Nat.mod_lt _ (by norm_num)

theorem radix_dvd_add_montFactor_mul (T : ℕ) : 2 ^ 256 ∣ T + montFactor T * p := by
  have hm : montFactor T ≡ T * montPrime [MOD 2 ^ 256] :=
    (Nat.mod_modEq _ _).trans ((Nat.mod_modEq T _).mul_right _)
  have hsum : T + T * montPrime * p = T * (montPrime * p + 1) := by ring
  rw [Nat.ModEq.dvd_iff ((hm.mul_right p).add_left T) dvd_rfl, hsum]
  exact montPrime_mul_p.mul_left T

theorem mont_eq (a b : ℕ) : mont a b = subtractLoop 1 ((a * b + montFactor (a * b) * p) / 2 ^ 256) := rfl

section
variable {a b : ℕ} (ha : a < p) (hb : b < p)
include ha hb

theorem mont_eq_mod : mont a b = (a * b + montFactor (a * b) * p) / 2 ^ 256 % p := by
  have hT : a * b < 2 ^ 256 * p := Nat.mul_lt_mul'' (ha.trans p_lt) hb
  have hm : montFactor (a * b) * p ≤ 2 ^ 256 * p := Nat.mul_le_mul_right p (montFactor_lt _).le
  exact (mont_eq a b).trans (subtractLoop_eq_mod 1 (Nat.div_lt_of_lt_mul (by omega)))

theorem mont_lt : mont a b < p := mont_eq_mod ha hb ▸ Nat.mod_lt _ p_pos

/-- `mont a b` is `a * b * R^-1` modulo `p`, written without the inverse. -/
theorem mont_mul_radix_modEq : mont a b * 2 ^ 256 ≡ a * b [MOD p] := by
  rw [mont_eq_mod ha hb]
  refine ((Nat.mod_modEq _ p).mul_right _).trans ?_
  rw [Nat.div_mul_cancel (radix_dvd_add_montFactor_mul _)]
  exact Nat.add_mul_mod_self_right _ _ _

/-- The second product, with `R^2`, takes back the factor `R^-1` of the first and its own. -/
theorem mont_mont_montSquare : mont (mont a b) montSquare = a * b % p := by
  have hab := mont_lt ha hb
  have h : mont (mont a b) montSquare * 2 ^ 256 ≡ a * b * 2 ^ 256 [MOD p] :=
    calc mont (mont a b) montSquare * 2 ^ 256
        ≡ mont a b * montSquare [MOD p] := mont_mul_radix_modEq hab montSquare_lt
      _ ≡ mont a b * (2 ^ 256 * 2 ^ 256) [MOD p] := montSquare_modEq.mul_left _
      _ = mont a b * 2 ^ 256 * 2 ^ 256 := (mul_assoc _ _ _).symm
      _ ≡ a * b * 2 ^ 256 [MOD p] := (mont_mul_radix_modEq ha hb).mul_right _
  have hmod := Nat.ModEq.cancel_right_of_coprime coprime_p_radix h
  rwa [Nat.ModEq, Nat.mod_eq_of_lt (mont_lt hab montSquare_lt)] at hmod

end

/-! ### `fmul` by a reduction method (R186) -/

theorem fmulBy_eq_fmul (method : Config.Reduction) {a b : W256} (ha : Canonical a) (hb : Canonical b) :
    fmulBy method a b = fmul a b := by
  have ht : a.toNat * b.toNat < 2 ^ 512 := by
    rw [show 512 = 256 + 256 from rfl, pow_add]
    exact Nat.mul_lt_mul'' a.isLt b.isLt
  refine congrArg (BitVec.ofNat 256) ?_
  cases method with
  | fold => exact reduceFold_eq_mod ht
  | barrett => exact reduceBarrett_eq_mod ht
  | montgomery => exact mont_mont_montSquare ha hb

/-! ### The obligations -/

/-- Settles O16: the row of FMUL, and `fmul` is the product modulo `p`. -/
theorem fmulIsModularProduct : Obligations.FmulIsModularProduct := by
  unfold Obligations.FmulIsModularProduct
  simp only [bitsRd_eq, bitsRa_eq, bitsRb_eq]
  exact ⟨encodedBy_of_mem_rows (by simp [rows, rowsFieldUnits]), fun s rd ra rb =>
    ⟨_, fmul_toNat _ _, completesF_of_exec rfl rfl⟩⟩

/-- Settles O17: the row of FSMUL, and `fsmul` is the floored product modulo `p`; its two identities are read off the
field of residues. -/
theorem fsmulIsFlooredProduct : Obligations.FsmulIsFlooredProduct := by
  unfold Obligations.FsmulIsFlooredProduct
  simp only [bitsRd_eq, bitsRa_eq, bitsRb_eq]
  exact ⟨encodedBy_of_mem_rows (by simp [rows, rowsFieldUnits]),
    fun s rd ra rb => ⟨_, fsmul_toInt _ _, completesF_of_exec rfl rfl⟩,
    fun k a ha => ⟨fsmul_neg_one ha, fsmul_eq_fmul k a⟩⟩

/-- Settles O18: each reduction keeps the residue and ends below `p`. -/
theorem reductionMethodsAgree : Obligations.ReductionMethodsAgree := by
  unfold Obligations.ReductionMethodsAgree
  exact ⟨fun t ht => ⟨reduceFold_eq_mod ht, reduceBarrett_eq_mod ht⟩,
    fun a b ha hb => mont_mont_montSquare ha hb,
    fun method a b ha hb => fmulBy_eq_fmul method ha hb⟩

end Sys2Proof.Machine
end

section
/-! SUPPORT. The Fermat inverter: FINV, FPOW and FDIV (R201 to R208). By Fermat's theorem the power `p - 2` is the
inverse, and an exponent counts only modulo `p - 1`, as long as the base is not zero. -/

namespace Sys2Proof.Machine

open Sys2Proof.Config (p)

/-! ### The inverse (R201) -/

theorem ne_zero_of_toNat {a : W256} (h : a.toNat ≠ 0) : a ≠ 0#256 := fun h0 => h (congrArg BitVec.toNat h0)

theorem finv_of_toNat_eq_zero {a : W256} (h : a.toNat = 0) : finv a = .error .divisionByZero :=
  if_pos (BitVec.eq_of_toNat_eq h)

/-- Fermat's theorem for a canonical value that is not zero. -/
theorem toField_pow_p_sub_one {a : W256} (ha : Canonical a) (h : a ≠ 0#256) : toField a ^ (p - 1) = 1 :=
  haveI : Fact p.Prime := ⟨p_prime⟩
  ZMod.pow_card_sub_one_eq_one (toField_ne_zero ha h)

/-- `finv` answers with an inverse. -/
theorem fmul_finv {a i : W256} (ha : Canonical a) (h : a ≠ 0#256) (hi : finv a = .ok i) : fmul a i = 1#256 := by
  obtain rfl : (modPow a (p - 2)).val = i := Except.ok.inj ((finv_of_ne_zero h).symm.trans hi)
  refine eq_of_toField_eq (canonical_fmul _ _) canonical_one ?_
  calc toField (fmul a (modPow a (p - 2)).val)
      = toField a ^ (p - 2 + 1) := by rw [toField_fmul, toField_modPow, pow_succ']
    _ = toField a ^ (p - 1) := by rw [show p - 2 + 1 = p - 1 by decide +kernel]
    _ = toField 1#256 := by rw [toField_pow_p_sub_one ha h, toField_one]

theorem fmul_eq_one_iff {a b : W256} : fmul a b = 1#256 ↔ a.toNat * b.toNat % p = 1 := by
  rw [← BitVec.toNat_inj, fmul_toNat]
  rfl

/-- Inverses are unique in `[0, p)`: both values are the product of the two inverses and `a`. -/
theorem eq_of_mul_mod_eq_one {a u v : ℕ} (hu : u < p) (hv : v < p) (hau : a * u % p = 1) (hav : a * v % p = 1) :
    u = v :=
  calc u = a * v % p * u % p := by rw [hav, one_mul, Nat.mod_eq_of_lt hu]
    _ = a * u % p * v % p := by rw [Nat.mod_mul_mod, Nat.mod_mul_mod, Nat.mul_right_comm]
    _ = v := by rw [hau, one_mul, Nat.mod_eq_of_lt hv]

/-! ### The quotient (R203) -/

theorem fdiv_of_toNat_eq_zero (a : W256) {b : W256} (h : b.toNat = 0) : fdiv a b = .error .divisionByZero := by
  rw [fdiv, finv_of_toNat_eq_zero h]

theorem fdiv_of_finv (a : W256) {b i : W256} (hi : finv b = .ok i) : fdiv a b = .ok (fmul a i) := by rw [fdiv, hi]

/-- The quotient times the divisor is the dividend. -/
theorem fmul_fmul_finv {a b i : W256} (ha : Canonical a) (hb : Canonical b) (h : b ≠ 0#256) (hi : finv b = .ok i) :
    fmul (fmul a i) b = a := by
  rw [fmul_assoc, fmul_comm i b, fmul_finv hb h hi, fmul_one ha]

/-! ### The power (R202) -/

theorem fpowNonneg_toNat (a : W256) (n : ℕ) :
    (fpowNonneg a n).toNat = if n % (p - 1) = 0 then 1 else a.toNat ^ (n % (p - 1)) % p := by
  unfold fpowNonneg
  by_cases h : n % (p - 1) = 0
  · simp only [if_pos h]
    rfl
  · simp only [if_neg h]
    exact (modPow a _).property

theorem fpowNonneg_mod (a : W256) (n : ℕ) : fpowNonneg a (n % (p - 1)) = fpowNonneg a n :=
  BitVec.eq_of_toNat_eq (by rw [fpowNonneg_toNat, fpowNonneg_toNat, Nat.mod_mod])

theorem fpowNonneg_one {a : W256} (ha : Canonical a) : fpowNonneg a 1 = a := by
  refine BitVec.eq_of_toNat_eq ?_
  rw [fpowNonneg_toNat, show 1 % (p - 1) = 1 by decide +kernel, if_neg one_ne_zero, pow_one, Nat.mod_eq_of_lt ha]

/-- For base zero a reduced exponent other than 0 gives 0 (C8). -/
theorem fpowNonneg_zero {n : ℕ} (h : n % (p - 1) ≠ 0) : fpowNonneg 0#256 n = 0#256 := by
  refine BitVec.eq_of_toNat_eq ?_
  rw [fpowNonneg_toNat, if_neg h, BitVec.toNat_zero, zero_pow h, Nat.zero_mod]

/-- For a base other than zero the reduction of the exponent does not show (R204). -/
theorem fpowNonneg_toNat_of_ne_zero {a : W256} (ha : Canonical a) (h : a ≠ 0#256) (n : ℕ) :
    (fpowNonneg a n).toNat = a.toNat ^ n % p := by
  have hreduce : a.toNat ^ n % p = a.toNat ^ (n % (p - 1)) % p := by
    refine (ZMod.natCast_eq_natCast_iff' _ _ p).mp ?_
    rw [Nat.cast_pow, Nat.cast_pow]
    exact pow_eq_pow_mod n (toField_pow_p_sub_one ha h)
  rw [fpowNonneg_toNat, hreduce]
  split
  · next hzero => rw [hzero, pow_zero, Nat.mod_eq_of_lt p_prime.one_lt]
  · rfl

theorem fpow_of_nonneg (a : W256) {e : ℤ} (he : 0 ≤ e) : fpow a e = .ok (fpowNonneg a e.toNat) := if_pos he

/-- The reduced exponent 0 gives 1 for every base, zero included (C8). -/
theorem fpow_of_mod_eq_zero (a : W256) {e : ℤ} (he : 0 ≤ e) (h : e.toNat % (p - 1) = 0) : fpow a e = .ok 1#256 :=
  (fpow_of_nonneg a he).trans (congrArg _ (if_pos h))

theorem fpow_of_neg {a i : W256} {e : ℤ} (he : e < 0) (hi : finv a = .ok i) :
    fpow a e = .ok (fpowNonneg i e.natAbs) := by
  rw [fpow, if_neg (not_le.mpr he), hi, ← fpowNonneg_mod]

theorem fpow_of_neg_of_toNat_eq_zero {a : W256} {e : ℤ} (he : e < 0) (h : a.toNat = 0) :
    fpow a e = .error .divisionByZero := by
  rw [fpow, if_neg (not_le.mpr he), finv_of_toNat_eq_zero h]

/-! ### The obligations -/

/-- Settles O19: the row of FINV, and the two branches of `finv`. -/
theorem finvIsInverse : Obligations.FinvIsInverse := by
  unfold Obligations.FinvIsInverse
  simp only [bitsRd_eq, bitsRa_eq]
  refine ⟨encodedBy_of_mem_rows (by simp [rows, rowsFieldUnits]), fun s rd ra ha => ⟨fun h => ?_, fun h => ?_⟩⟩
  · exact completesFailing_of_exec rfl (finv_of_toNat_eq_zero h)
  · have hne := ne_zero_of_toNat h
    have hi := finv_of_ne_zero hne
    have hone := fmul_eq_one_iff.mp (fmul_finv ha hne hi)
    exact ⟨_, (modPow _ (p - 2)).property, hone,
      fun u hu hu1 => eq_of_mul_mod_eq_one hu (canonical_modPow _ _) hu1 hone, completesF_of_exec rfl hi⟩

/-- Settles O20: the row of FPOW, and the branches of `fpow` by the sign of the exponent and the base. -/
theorem fpowReducesExponentFirst : Obligations.FpowReducesExponentFirst := by
  unfold Obligations.FpowReducesExponentFirst
  simp only [bitsRd_eq, bitsRa_eq, bitsRb_eq]
  refine ⟨encodedBy_of_mem_rows (by simp [rows, rowsFieldUnits]),
    fun s rd ra rb ha => ⟨fun he => ?_, fun he h => ?_, fun he h => ?_⟩⟩
  · exact ⟨_, fpowNonneg_toNat _ _, completesF_of_exec rfl (fpow_of_nonneg _ he)⟩
  · exact completesFailing_of_exec rfl (fpow_of_neg_of_toNat_eq_zero he h)
  · have hne := ne_zero_of_toNat h
    have hi := finv_of_ne_zero hne
    exact ⟨_, _, canonical_of_finv hi, fmul_eq_one_iff.mp (fmul_finv ha hne hi), fpowNonneg_toNat _ _,
      completesF_of_exec rfl (fpow_of_neg he hi)⟩

/-- Settles O21: the row of FDIV, and the two branches of `finv` of the divisor. -/
theorem fdivIsFieldQuotient : Obligations.FdivIsFieldQuotient := by
  unfold Obligations.FdivIsFieldQuotient
  simp only [bitsRd_eq, bitsRa_eq, bitsRb_eq]
  refine ⟨encodedBy_of_mem_rows (by simp [rows, rowsFieldUnits]),
    fun s rd ra rb ha hb => ⟨fun h => ?_, fun h => ?_⟩⟩
  · exact completesFailing_of_exec rfl (fdiv_of_toNat_eq_zero _ h)
  · have hne := ne_zero_of_toNat h
    have hi := finv_of_ne_zero hne
    have hquotient := congrArg BitVec.toNat (fmul_fmul_finv ha hb hne hi)
    exact ⟨_, _, hi, rfl, canonical_fmul _ _, (fmul_toNat _ _).symm.trans hquotient,
      completesF_of_exec rfl (fdiv_of_finv _ hi)⟩

/-- Settles O22: the exponents 0 and `p - 1` reduce to 0, and `-1` gives the inverse. -/
theorem fermatLaws : Obligations.FermatLaws := by
  unfold Obligations.FermatLaws
  refine fun a ha => ⟨fdiv_of_toNat_eq_zero a rfl, fpow_of_mod_eq_zero a le_rfl (Nat.zero_mod _), fun h => ?_⟩
  have hi := finv_of_ne_zero h
  have hinverse := fmul_finv ha h hi
  refine ⟨?self, ?fermat, _, ?inverse, (fmul_comm _ _).trans hinverse⟩
  case self => exact (fdiv_of_finv a hi).trans (congrArg _ hinverse)
  case fermat => exact fpow_of_mod_eq_zero a (by decide +kernel) (by decide +kernel)
  case inverse =>
    exact (fpow_of_neg (by decide) hi).trans (congrArg _ (fpowNonneg_one (canonical_of_finv hi)))

/-- Settles O23: Fermat's theorem for a base other than zero, and the two reduced exponents of base zero. -/
theorem fpowAgreesWithIntegerPower : Obligations.FpowAgreesWithIntegerPower := by
  unfold Obligations.FpowAgreesWithIntegerPower
  have hn (n : ℕ) : (0 : ℤ) ≤ n := Int.natCast_nonneg n
  exact ⟨fun a n ha h => ⟨_, fpow_of_nonneg a (hn n), fpowNonneg_toNat_of_ne_zero ha h n⟩,
    fun n => ⟨fpow_of_mod_eq_zero 0 (hn n),
      fun h => (fpow_of_nonneg 0 (hn n)).trans (congrArg _ (fpowNonneg_zero h))⟩⟩

end Sys2Proof.Machine
end

section
/-! SUPPORT. Point construction, copy, access and comparison (R230 to R243). PNEW is decided by its presence bits and
the curve test; a point register that is read out into two field registers is read back by the rules of the register
files; and in the field of residues a point and its negative have the same `y^2`, which is not zero. -/

namespace Sys2Proof.Machine

open Sys2Proof.Config (p)

/-! ### The presence bits of PNEW (R101) -/

theorem decide_bit_one_eq (w : Word) : decide (w.toNat / 2 % 2 = 1) = hxOf w := by
  rw [← hxOf_toNat]
  cases hxOf w <;> rfl

theorem decide_bit_zero_eq (w : Word) : decide (w.toNat % 2 = 1) = hyOf w := by
  rw [← hyOf_toNat]
  cases hyOf w <;> rfl

/-! ### Reading after writing the register files (R17, R20) -/

section
variable (s : State) (n : Nibble)

@[simp] theorem readF_writeF_same (v : W256) : (s.writeF n v).readF n = v := (writeF_get s n v _).trans (if_pos rfl)

theorem readF_writeF_of_ne {m : Nibble} (v : W256) (h : m ≠ n) : (s.writeF n v).readF m = s.readF m :=
  (writeF_get s n v _).trans (if_neg fun hidx => h (BitVec.toFin_inj.mp hidx))

@[simp] theorem readP_writeP_same (Q : Point) : (s.writeP n Q).readP n = Q := (writeP_get s n Q _).trans (if_pos rfl)

@[simp] theorem readP_writeF (m : Nibble) (v : W256) : (s.writeF m v).readP n = s.readP n := rfl

@[simp] theorem readF_succeed : s.succeed.readF n = s.readF n := rfl

@[simp] theorem readP_succeed : s.succeed.readP n = s.readP n := rfl

end

/-! ### The completions of a command that writes a point register (R318) -/

theorem completesP_of_exec {i : Instr} {s : State} {n : Nibble} {Q : Point} (h : exec i s = s.completeP n (.ok Q)) :
    CompletesP i n Q s :=
  ⟨_, h, succeeds_writeP s n Q⟩

/-! ### PNEW, PGETX and PGETY by their case (R233, R239, R240) -/

section
variable {s : State} {ra rb : Nibble} (rd : Nibble) {x y : W256}

theorem exec_pnew_of_onCurve (hx : s.readF ra = x) (hy : s.readF rb = y) (h : onCurve x y = true) :
    exec (.pnew rd ra rb true true) s = s.completeP rd (.ok (.coordinates x y)) := by
  subst hx hy
  exact (execPnew_coordinates rd ra rb s).trans (if_pos h)

theorem exec_pnew_of_not_onCurve (hx : s.readF ra = x) (hy : s.readF rb = y) (h : ¬onCurve x y = true) :
    exec (.pnew rd ra rb true true) s = .next (s.failNotOnCurve (lhs y) (rhs x)) := by
  subst hx hy
  exact (execPnew_coordinates rd ra rb s).trans (if_neg h)

theorem exec_pgetx_of_coordinates (h : s.readP ra = .coordinates x y) :
    exec (.pgetx rd ra) s = .next (s.writeF rd x).succeed :=
  congrArg (fun P => Host.Outcome.next (s.completeF rd (pointX P))) h

theorem exec_pgety_of_coordinates (h : s.readP ra = .coordinates x y) :
    exec (.pgety rd ra) s = .next (s.writeF rd y).succeed :=
  congrArg (fun P => Host.Outcome.next (s.completeF rd (pointY P))) h

end

/-! ### The curve equation on points and their negatives (R230, R242, R268) -/

theorem ok_coordinates_iff {x y : W256} :
    (Point.coordinates x y).Ok ↔ Canonical x ∧ Canonical y ∧ onCurve x y = true := by
  rw [onCurve_iff]
  rfl

theorem lhs_fneg {y : W256} (hy : Canonical y) : lhs (fneg y) = lhs y :=
  eq_of_toField_eq (canonical_lhs _) (canonical_lhs _) (by
    rw [lhs, lhs, toField_fmul, toField_fmul, toField_fneg hy, neg_mul_neg])

theorem onCurve_fneg (x : W256) {y : W256} (hy : Canonical y) : onCurve x (fneg y) = onCurve x y := by
  rw [onCurve, onCurve, lhs_fneg hy]

theorem Point.Ok.toField_y_ne_zero {x y : W256} (h : (Point.coordinates x y).Ok) : toField y ≠ 0 := by
  have : Fact p.Prime := ⟨p_prime⟩
  obtain ⟨-, -, hequation⟩ := h
  exact curve_y_ne_zero ((curve_equation_iff x y).mpr hequation)

/-- Modulo an odd `p` only 0 is its own negative, and no point has `y = 0`. -/
theorem Point.Ok.fneg_y_ne {x y : W256} (h : (Point.coordinates x y).Ok) : fneg y ≠ y := fun heq =>
  ZMod.ne_neg_self (Nat.odd_iff.mpr p_odd) h.toField_y_ne_zero (by rw [← toField_fneg h.canonical.2, heq])

theorem Point.Ok.fneg {x y : W256} (h : (Point.coordinates x y).Ok) : (Point.coordinates x (fneg y)).Ok := by
  obtain ⟨hx, hy, hcurve⟩ := ok_coordinates_iff.mp h
  exact ok_of_onCurve hx (canonical_fneg hy) ((onCurve_fneg x hy).trans hcurve)

/-! ### Taking a point apart and constructing it again (R243) -/

/-- PGETX and PGETY leave the two coordinates in two different registers and the point as it was, so that PNEW finds
them on the curve. -/
theorem pgetx_pgety_pnew {s : State} {a d fx fy : Nibble} {x y : W256} (hne : fx ≠ fy)
    (hread : s.readP a = .coordinates x y) (hcurve : onCurve x y = true) :
    ∃ t u v, exec (.pgetx fx a) s = .next t ∧ exec (.pgety fy a) t = .next u ∧
      exec (.pnew d fx fy true true) u = .next v ∧ v.code = 0#4 ∧ v.readP d = .coordinates x y := by
  refine ⟨_, _, _, exec_pgetx_of_coordinates fx hread, exec_pgety_of_coordinates fy (x := x) (y := y) ?read,
    exec_pnew_of_onCurve d ?x ?y hcurve, rfl, readP_writeP_same ..⟩
  case read => simpa using hread
  case x => simp [readF_writeF_of_ne _ _ _ hne]
  case y => simp

/-! ### The obligations -/

/-- Settles O25: the row of PNEW, its four cases of presence, and the two branches of the curve test. -/
theorem pnewOutcomes : Obligations.PnewOutcomes := by
  unfold Obligations.PnewOutcomes
  simp only [bitsRd_eq, bitsRa_eq, bitsRb_eq, decide_bit_one_eq, decide_bit_zero_eq]
  refine ⟨encodedBy_of_mem_rows (by simp [rows, rowsPoint]), ?_⟩
  rintro s rd ra rb _ _ rfl rfl
  refine ⟨?absent, ?onlyX, ?onlyY, ?onCurve, ?notOnCurve⟩
  case absent => exact completesP_of_exec rfl
  case onlyX => exact ⟨_, rfl, fail_fails s .mismatchedCoordinates⟩
  case onlyY => exact ⟨_, rfl, fail_fails s .mismatchedCoordinates⟩
  case onCurve => exact fun h => completesP_of_exec (exec_pnew_of_onCurve rd rfl rfl ((onCurve_iff _ _).mpr h))
  case notOnCurve =>
    exact fun h => ⟨_, exec_pnew_of_not_onCurve rd rfl rfl (mt (onCurve_iff _ _).mp h), failNotOnCurve_fails s _ _,
      lhs_toNat _, rhs_toNat _⟩

/-- Settles O26: the rows of the two commands, each of which completes with a point in every state. -/
theorem pldgPmovWrite : Obligations.PldgPmovWrite := by
  unfold Obligations.PldgPmovWrite
  simp only [bitsRd_eq, bitsRa_eq]
  refine ⟨?pldg, ?pmov, fun s rd ra => ⟨completesP_of_exec rfl, completesP_of_exec rfl⟩⟩
  all_goals exact encodedBy_of_mem_rows (by simp [rows, rowsPoint])

/-- Settles O27: the rows of the two predicates, which decide equality of tagged values. -/
theorem pisinfPeqTest : Obligations.PisinfPeqTest := by
  unfold Obligations.PisinfPeqTest
  simp only [bitsRa_eq, bitsRb_eq]
  refine ⟨?pisinf, ?peq, fun s ra rb => ⟨?infinity, ?equal⟩⟩
  case infinity => exact isInfinity_eq (s.readP ra) ▸ completesT_of_exec rfl
  case equal => exact pointsEqual_eq (s.readP ra) (s.readP rb) ▸ completesT_of_exec rfl
  all_goals exact encodedBy_of_mem_rows (by simp [rows, rowsPoint])

/-- Settles O28: the rows of the two commands, each with a coordinate on one variant of a point and the error on the
other. -/
theorem pgetxPgetyCopy : Obligations.PgetxPgetyCopy := by
  unfold Obligations.PgetxPgetyCopy
  simp only [bitsRd_eq, bitsRa_eq]
  refine ⟨?pgetx, ?pgety, fun s rd ra => ⟨fun h => ⟨?_, ?_⟩, fun x y h => ⟨?_, ?_⟩⟩⟩
  case pgetx => exact encodedBy_of_mem_rows (by simp [rows, rowsPoint])
  case pgety => exact encodedBy_of_mem_rows (by simp [rows, rowsPoint])
  · exact completesFailing_of_exec (e := .noCoordinates) rfl (congrArg pointX h)
  · exact completesFailing_of_exec (e := .noCoordinates) rfl (congrArg pointY h)
  · exact ⟨_, exec_pgetx_of_coordinates rd h, succeeds_writeF s rd x⟩
  · exact ⟨_, exec_pgety_of_coordinates rd h, succeeds_writeF s rd y⟩

/-- Settles O30: a point of the invariant that is not `Infinity` has two coordinates on the curve. -/
theorem pointRoundTrip : Obligations.PointRoundTrip := by
  unfold Obligations.PointRoundTrip
  refine ⟨ok_generator, by decide +kernel, fun s a d fx fy hne hok hinf => ?_⟩
  cases hread : s.readP a with
  | infinity => exact absurd hread hinf
  | coordinates x y =>
    obtain ⟨-, -, hcurve⟩ := ok_coordinates_iff.mp (hread ▸ hok)
    exact pgetx_pgety_pnew hne hread hcurve

/-- Settles O31: the negative has the same `y^2`, and `-7` is no cube modulo `p`, so that `y` is never 0. -/
theorem negationOfPoints : Obligations.NegationOfPoints := by
  unfold Obligations.NegationOfPoints
  exact ⟨fun x _ _ hy => ⟨onCurve_fneg x hy, fun h => ⟨h.fneg, h.fneg_y_ne⟩⟩,
    fun _ h => h.toField_y_ne_zero toField_zero⟩

end Sys2Proof.Machine
end

section
/-! SUPPORT. The point doubler and the point adder (R261 to R273). The tangent and the chord give one law for the
coordinates of the result, in the slope of the line; and the Jacobian forms give the coordinates of that law times
powers of the new `Z`, so that dividing by them leaves the affine result. -/

namespace Sys2Proof.Machine

open Sys2Proof.Config (p)

/-! ### The law of the line through two points (R261, R262) -/

theorem toField_eq_zero {a : W256} (ha : Canonical a) : toField a = 0 ↔ a = 0#256 := by
  rw [← toField_zero, toField_inj ha canonical_zero]

/-- `(x₃, y₃)` are the coordinates R261 and R262 make of the slope `m` of the line through `(x₁, y₁)` and a point with
first coordinate `x₂`, which is `x₁` for the tangent. -/
structure LineLaw (m x₁ y₁ x₂ x₃ y₃ : W256) : Prop where
  canonical_m : Canonical m
  canonical_x : Canonical x₃
  canonical_y : Canonical y₃
  x : toField x₃ = toField m ^ 2 - toField x₁ - toField x₂
  y : toField y₃ = toField m * (toField x₁ - toField x₃) - toField y₁

section
variable {m x₁ y₁ x₂ x₃ y₃ : W256} (h : LineLaw m x₁ y₁ x₂ x₃ y₃)
include h

theorem LineLaw.dvd_x : (p : ℤ) ∣ x₃.toNat - (m.toNat * m.toNat - x₁.toNat - x₂.toNat : ℤ) := by
  rw [← ZMod.intCast_eq_intCast_iff_dvd_sub, ← pow_two]
  push_cast
  exact h.x.symm

theorem LineLaw.dvd_y : (p : ℤ) ∣ y₃.toNat - (m.toNat * (x₁.toNat - x₃.toNat) - y₁.toNat : ℤ) := by
  rw [← ZMod.intCast_eq_intCast_iff_dvd_sub]
  push_cast
  exact h.y.symm

end

theorem lineLaw_chord {m x₁ y₁ x₂ x₃ : W256} (cm : Canonical m) (cx₁ : Canonical x₁) (cy₁ : Canonical y₁)
    (cx₃ : Canonical x₃) (hx₃ : toField x₃ = toField m ^ 2 - toField x₁ - toField x₂) :
    LineLaw m x₁ y₁ x₂ x₃ (fsub (fmul m (fsub x₁ x₃)) y₁) where
  canonical_m := cm
  canonical_x := cx₃
  canonical_y := canonical_fsub (canonical_fmul _ _) cy₁
  x := hx₃
  y := by rw [toField_fsub (canonical_fmul _ _) cy₁, toField_fmul, toField_fsub cx₁ cx₃]

theorem fdiv_mul_cancel {a b : W256} (hb : Canonical b) (h : b ≠ 0#256) :
    ∃ q, fdiv a b = .ok q ∧ Canonical q ∧ toField q * toField b = toField a := by
  have : Fact p.Prime := ⟨p_prime⟩
  obtain ⟨q, hq, hfield⟩ := toField_fdiv (a := a) hb h
  exact ⟨q, hq, canonical_of_fdiv hq, by rw [hfield, div_mul_cancel₀ _ (toField_ne_zero hb h)]⟩

/-- The tangent case of R261. -/
theorem pdbl_tangent {x y : W256} (cx : Canonical x) (cy : Canonical y) (hy : y ≠ 0#256) :
    ∃ m x₃ y₃, pdbl (.coordinates x y) = .ok (.coordinates x₃ y₃) ∧
      toField m * (2 * toField y) = 3 * toField x ^ 2 ∧ LineLaw m x y x x₃ y₃ := by
  obtain ⟨m, hm, cm, hslope⟩ := fdiv_mul_cancel (a := fsmul 3 (fmul x x)) (canonical_fsmul 2 y)
    (fsmul_two_ne_zero cy hy)
  simp only [toField_fsmul, toField_fmul, ← pow_two, Int.cast_ofNat] at hslope
  refine ⟨m, _, _, ?result, hslope,
    lineLaw_chord cm cx cy (canonical_fsub (canonical_fmul m m) (canonical_fsmul 2 x)) ?x⟩
  case result => rw [pdbl_coordinates, if_neg hy, hm]; rfl
  case x =>
    rw [toField_fsub (canonical_fmul _ _) (canonical_fsmul _ _), toField_fmul, toField_fsmul, Int.cast_ofNat]
    ring

/-- The chord case of R262. -/
theorem padd_chord {x₁ y₁ x₂ y₂ : W256} (cx₁ : Canonical x₁) (cy₁ : Canonical y₁) (cx₂ : Canonical x₂)
    (cy₂ : Canonical y₂) (hx : x₁ ≠ x₂) :
    ∃ m x₃ y₃, padd (.coordinates x₁ y₁) (.coordinates x₂ y₂) = .ok (.coordinates x₃ y₃) ∧
      toField m * (toField x₂ - toField x₁) = toField y₂ - toField y₁ ∧ LineLaw m x₁ y₁ x₂ x₃ y₃ := by
  obtain ⟨m, hm, cm, hslope⟩ := fdiv_mul_cancel (a := fsub y₂ y₁) (canonical_fsub cx₂ cx₁)
    (fsub_ne_zero cx₂ cx₁ hx.symm)
  rw [toField_fsub cx₂ cx₁, toField_fsub cy₂ cy₁] at hslope
  have cmx := canonical_fsub (canonical_fmul m m) cx₁
  refine ⟨m, _, _, ?result, hslope, lineLaw_chord cm cx₁ cy₁ (canonical_fsub cmx cx₂) ?x⟩
  case result => rw [padd_coordinates, if_neg hx, hm]; rfl
  case x => rw [toField_fsub cmx cx₂, toField_fsub (canonical_fmul _ _) cx₁, toField_fmul, pow_two]

/-! ### The other cases of the group law -/

theorem pdbl_y_zero (x : W256) : pdbl (.coordinates x 0#256) = .ok .infinity :=
  (pdbl_coordinates x _).trans (if_pos rfl)

theorem padd_infinity (P : Point) : padd P .infinity = .ok P := by cases P <;> rfl

/-- Points with the same `x` are opposite, a point with `y = 0` to itself, or equal. -/
theorem padd_opposite {x y₁ y₂ : W256} (h : y₁ ≠ y₂ ∨ y₁ = 0#256) :
    padd (.coordinates x y₁) (.coordinates x y₂) = .ok .infinity := by
  rw [padd_coordinates, if_pos rfl]
  split
  · next heq => exact if_neg (not_not.mpr (h.resolve_left (not_not.mpr heq)))
  · rfl

theorem padd_self (P : Point) : padd P P = pdbl P := by
  cases P with
  | infinity => rfl
  | coordinates x y =>
    by_cases hy : y = 0#256
    · rw [padd_opposite (.inr hy), hy, pdbl_y_zero]
    · rw [padd_coordinates, if_pos rfl, if_pos rfl, if_pos hy]

/-- Addition of points on the curve is commutative because that of the group they represent is. -/
theorem padd_comm {P Q : Point} (hP : P.Ok) (hQ : Q.Ok) : padd P Q = padd Q P := by
  have : Fact p.Prime := ⟨p_prime⟩
  obtain ⟨A, hA⟩ := Point.ok_iff_represents.mp hP
  obtain ⟨B, hB⟩ := Point.ok_iff_represents.mp hQ
  obtain ⟨R, hR, rR⟩ := hA.padd hB
  obtain ⟨R', hR', rR'⟩ := hB.padd hA
  rw [add_comm] at rR'
  rw [hR, hR', rR.unique rR']

/-! ### The coefficients 2 and 3 (R261) -/

theorem fsmul_two_eq_fmul (v : W256) : fsmul 2 v = fmul 2#256 v := by
  rw [fsmul_eq_fmul, show (2 % (p : ℤ)).toNat = 2 by decide +kernel]

theorem fsmul_three_eq_fmul (v : W256) : fsmul 3 v = fmul 3#256 v := by
  rw [fsmul_eq_fmul, show (3 % (p : ℤ)).toNat = 3 by decide +kernel]

theorem fsmul_two_eq_fadd {v : W256} (hv : Canonical v) : fsmul 2 v = fadd v v :=
  eq_of_toField_eq (canonical_fsmul _ _) (canonical_fadd hv hv) (by
    rw [toField_fsmul, toField_fadd hv hv, Int.cast_ofNat, two_mul])

/-! ### PDBL and PADD (R263, R264) -/

/-- A command that answers the result of the group law completes with the point of that result. -/
theorem completesP_of_result {i : Instr} {s : State} {n : Nibble} {r : Except ErrorKind Point} {Q : Point}
    (h : exec i s = s.completeP n r) (hr : r = .ok Q) : CompletesP i n Q s :=
  completesP_of_exec (h.trans (congrArg _ hr))

theorem CompletesP.code {i : Instr} {s : State} {n : Nibble} {Q : Point} (h : CompletesP i n Q s) :
    ∃ t, exec i s = .next t ∧ t.code = 0#4 := by
  obtain ⟨t, ht, hwrote⟩ := h
  exact ⟨t, ht, hwrote.status.code⟩

theorem completesP_pdbl {s : State} {rd ra : Nibble} {P R : Point} (hP : s.readP ra = P) (hR : pdbl P = .ok R) :
    CompletesP (.pdbl rd ra) rd R s := completesP_of_result rfl (hP ▸ hR)

theorem completesP_padd {s : State} {rd ra rb : Nibble} {P Q R : Point} (hP : s.readP ra = P) (hQ : s.readP rb = Q)
    (hR : padd P Q = .ok R) : CompletesP (.padd rd ra rb) rd R s := completesP_of_result rfl (hP ▸ hQ ▸ hR)

/-! ### The affine image of a Jacobian triple (R271) -/

/-- `(x, y)` is `(X / Z^2, Y / Z^3)`, without the divisions. -/
structure AffineImage (j : Jacobian) (x y : W256) : Prop where
  canonical_x : Canonical x
  canonical_y : Canonical y
  x : toField x * toField j.Z ^ 2 = toField j.X
  y : toField y * toField j.Z ^ 3 = toField j.Y

theorem toAffine_jInfinity : toAffine jInfinity = .ok .infinity := rfl

theorem eq_infinity_of_toAffine {j : Jacobian} {P : Point} (hZ : j.Z = 0#256) (h : toAffine j = .ok P) :
    P = .infinity := Except.ok.inj (h.symm.trans (if_pos hZ))

theorem toAffine_of_finv {j : Jacobian} {i : W256} (hZ : j.Z ≠ 0#256) (hi : finv j.Z = .ok i) :
    toAffine j = .ok (.coordinates (fmul j.X (fmul i i)) (fmul j.Y (fmul (fmul i i) i))) := by
  rw [toAffine, if_neg hZ, hi]

theorem affineImage_of_finv {j : Jacobian} {i : W256} (cZ : Canonical j.Z) (hZ : j.Z ≠ 0#256)
    (hi : finv j.Z = .ok i) : AffineImage j (fmul j.X (fmul i i)) (fmul j.Y (fmul (fmul i i) i)) := by
  have hinv := congrArg toField (fmul_finv cZ hZ hi)
  rw [toField_fmul, toField_one] at hinv
  refine ⟨canonical_fmul _ _, canonical_fmul _ _, ?x, ?y⟩
  all_goals simp only [toField_fmul]
  case x =>
    calc _ = toField j.X * (toField j.Z * toField i) ^ 2 := by ring
      _ = toField j.X := by rw [hinv, one_pow, mul_one]
  case y =>
    calc _ = toField j.Y * (toField j.Z * toField i) ^ 3 := by ring
      _ = toField j.Y := by rw [hinv, one_pow, mul_one]

theorem affineImage_of_toAffine {j : Jacobian} {P : Point} (cZ : Canonical j.Z) (hZ : j.Z ≠ 0#256)
    (h : toAffine j = .ok P) : ∃ x y, P = .coordinates x y ∧ AffineImage j x y := by
  have hi := finv_of_ne_zero hZ
  exact ⟨_, _, Except.ok.inj (h.symm.trans (toAffine_of_finv hZ hi)), affineImage_of_finv cZ hZ hi⟩

theorem AffineImage.toAffine_eq {j : Jacobian} {x y : W256} (h : AffineImage j x y) (cZ : Canonical j.Z)
    (hZ : toField j.Z ≠ 0) : toAffine j = .ok (.coordinates x y) := by
  have : Fact p.Prime := ⟨p_prime⟩
  have hZ' := (toField_eq_zero cZ).not.mp hZ
  have hi := finv_of_ne_zero hZ'
  have h' := affineImage_of_finv cZ hZ' hi
  have hx := mul_right_cancel₀ (pow_ne_zero 2 hZ) (h'.x.trans h.x.symm)
  have hy := mul_right_cancel₀ (pow_ne_zero 3 hZ) (h'.y.trans h.y.symm)
  rw [toAffine_of_finv hZ' hi, eq_of_toField_eq h'.canonical_x h.canonical_x hx,
    eq_of_toField_eq h'.canonical_y h.canonical_y hy]

theorem AffineImage.Y_eq_zero_iff {j : Jacobian} {x y : W256} (h : AffineImage j x y) (cY : Canonical j.Y)
    (hZ : toField j.Z ≠ 0) : j.Y = 0#256 ↔ y = 0#256 := by
  have : Fact p.Prime := ⟨p_prime⟩
  rw [← toField_eq_zero cY, ← toField_eq_zero h.canonical_y, ← h.y, mul_eq_zero_iff_right (pow_ne_zero 3 hZ)]

/-- Coordinates with `Z = 1` are their own affine image. -/
theorem affineImage_one {x y : W256} (cx : Canonical x) (cy : Canonical y) : AffineImage ⟨x, y, 1#256⟩ x y :=
  ⟨cx, cy, by simp, by simp⟩

theorem toAffine_one {x y : W256} (cx : Canonical x) (cy : Canonical y) :
    toAffine ⟨x, y, 1#256⟩ = .ok (.coordinates x y) :=
  (affineImage_one cx cy).toAffine_eq canonical_one (toField_ne_zero canonical_one (show 1#256 ≠ 0#256 by decide))

theorem canonical_toJacobian {P : Point} (h : P.Canonical) :
    Canonical (toJacobian P).X ∧ Canonical (toJacobian P).Y ∧ Canonical (toJacobian P).Z := by
  cases P with
  | infinity => exact ⟨canonical_one, canonical_one, canonical_zero⟩
  | coordinates x y => exact ⟨h.1, h.2, canonical_one⟩

theorem toAffine_toJacobian {P : Point} (h : P.Canonical) : toAffine (toJacobian P) = .ok P := by
  cases P with
  | infinity => rfl
  | coordinates x y => exact toAffine_one h.1 h.2

/-! ### Jacobian doubling (R272) -/

section
variable {j : Jacobian}

theorem jdbl_of_zero (h : j.Z = 0#256 ∨ j.Y = 0#256) : jdbl j = jInfinity := if_pos h

/-- The coordinates of `jdbl`, as polynomials in those of the triple. -/
theorem toField_jdbl (cX : Canonical j.X) (hZ : j.Z ≠ 0#256) (hY : j.Y ≠ 0#256) :
    toField (jdbl j).X = 9 * toField j.X ^ 4 - 8 * toField j.X * toField j.Y ^ 2 ∧
      toField (jdbl j).Y =
        3 * toField j.X ^ 2 * (4 * toField j.X * toField j.Y ^ 2 - toField (jdbl j).X) - 8 * toField j.Y ^ 4 ∧
      toField (jdbl j).Z = 2 * (toField j.Y * toField j.Z) ∧ Canonical (jdbl j).Z := by
  rw [jdbl, if_neg (not_or.mpr ⟨hZ, hY⟩)]
  simp only [toField_fsub, toField_fadd, toField_fmul, toField_fsmul, canonical_fsub, canonical_fmul,
    canonical_fsmul, cX]
  push_cast
  exact ⟨by ring, by ring, rfl, trivial⟩

/-- With `Z` and `Y` not zero, `jdbl` is the tangent law times powers of `2YZ`. -/
theorem affineImage_jdbl {x y m x₃ y₃ : W256} (hj : AffineImage j x y) (cX : Canonical j.X) (hZ : j.Z ≠ 0#256)
    (hY : j.Y ≠ 0#256) (hslope : toField m * (2 * toField y) = 3 * toField x ^ 2) (hline : LineLaw m x y x x₃ y₃) :
    AffineImage (jdbl j) x₃ y₃ := by
  obtain ⟨hX₃, hY₃, hZ₃, -⟩ := toField_jdbl cX hZ hY
  have hx₃ : toField x₃ * toField (jdbl j).Z ^ 2 = toField (jdbl j).X := by
    rw [hX₃, hZ₃, hline.x, ← hj.x, ← hj.y]
    linear_combination toField j.Z ^ 8 * (toField m * (2 * toField y) + 3 * toField x ^ 2) * hslope
  refine ⟨hline.canonical_x, hline.canonical_y, hx₃, ?_⟩
  rw [hY₃, ← hx₃, hZ₃, hline.y, ← hj.x, ← hj.y]
  linear_combination 4 * toField y ^ 2 * toField j.Z ^ 12 * (toField x - toField x₃) * hslope

/-- The affine image of `jdbl` is the double of the affine image. -/
theorem toAffine_jdbl {P : Point} (cX : Canonical j.X) (cY : Canonical j.Y) (cZ : Canonical j.Z)
    (hP : toAffine j = .ok P) : toAffine (jdbl j) = pdbl P := by
  have : Fact p.Prime := ⟨p_prime⟩
  by_cases hZ : j.Z = 0#256
  · rw [eq_infinity_of_toAffine hZ hP, jdbl_of_zero (.inl hZ)]
    rfl
  obtain ⟨x, y, rfl, hj⟩ := affineImage_of_toAffine cZ hZ hP
  have hZ' := toField_ne_zero cZ hZ
  have hYy := hj.Y_eq_zero_iff cY hZ'
  by_cases hY : j.Y = 0#256
  · rw [jdbl_of_zero (.inr hY), hYy.mp hY, pdbl_y_zero, toAffine_jInfinity]
  obtain ⟨m, x₃, y₃, hR, hslope, hline⟩ := pdbl_tangent hj.canonical_x hj.canonical_y (mt hYy.mpr hY)
  obtain ⟨-, -, hZ₃, cZ₃⟩ := toField_jdbl cX hZ hY
  rw [hR]
  refine (affineImage_jdbl hj cX hZ hY hslope hline).toAffine_eq cZ₃ ?_
  rw [hZ₃]
  exact mul_ne_zero two_ne_zero_mod_p (mul_ne_zero (toField_ne_zero cY hY) hZ')

end

/-! ### Jacobian mixed addition (R273) -/

/-- `H` of `jmadd`: the difference of the two `x`, times `Z^2`. -/
def jmaddH (j : Jacobian) (x₂ : W256) : W256 := fsub (fmul x₂ (fmul j.Z j.Z)) j.X

/-- `r` of `jmadd`: the difference of the two `y`, times `Z^3`. -/
def jmaddR (j : Jacobian) (y₂ : W256) : W256 := fsub (fmul y₂ (fmul j.Z (fmul j.Z j.Z))) j.Y

/-- The triple `jmadd` makes of a chord, from its `H` and `r`. -/
def jchord (j : Jacobian) (H r : W256) : Jacobian :=
  let HHH := fmul H (fmul H H)
  let V := fmul j.X (fmul H H)
  let X₃ := fsub (fsub (fmul r r) HHH) (fsmul 2 V)
  ⟨X₃, fsub (fmul r (fsub V X₃)) (fmul j.Y HHH), fmul j.Z H⟩

section
variable (j : Jacobian) (H r : W256)

theorem canonical_jchord_X : Canonical (jchord j H r).X :=
  canonical_fsub (canonical_fsub (canonical_fmul _ _) (canonical_fmul _ _)) (canonical_fsmul _ _)

theorem canonical_jchord_Z : Canonical (jchord j H r).Z := canonical_fmul _ _

theorem jchord_Y : (jchord j H r).Y =
    fsub (fmul r (fsub (fmul j.X (fmul H H)) (jchord j H r).X)) (fmul j.Y (fmul H (fmul H H))) := rfl

theorem toField_jchord_X : toField (jchord j H r).X =
    toField r ^ 2 - toField H ^ 3 - 2 * toField j.X * toField H ^ 2 := by
  simp only [jchord, toField_fsub, toField_fmul, toField_fsmul, canonical_fsub, canonical_fmul, canonical_fsmul]
  push_cast
  ring

theorem toField_jchord_Y : toField (jchord j H r).Y =
    toField r * (toField j.X * toField H ^ 2 - toField (jchord j H r).X) - toField j.Y * toField H ^ 3 := by
  simp only [jchord_Y, toField_fsub, toField_fmul, canonical_fmul, canonical_jchord_X]
  ring

theorem toField_jchord_Z : toField (jchord j H r).Z = toField j.Z * toField H := toField_fmul _ _

end

section
variable {j : Jacobian} {x₁ y₁ x₂ y₂ : W256}

theorem canonical_jmaddH (cX : Canonical j.X) : Canonical (jmaddH j x₂) := canonical_fsub (canonical_fmul _ _) cX

theorem canonical_jmaddR (cY : Canonical j.Y) : Canonical (jmaddR j y₂) := canonical_fsub (canonical_fmul _ _) cY

theorem AffineImage.toField_jmaddH (hj : AffineImage j x₁ y₁) (cX : Canonical j.X) :
    toField (jmaddH j x₂) = (toField x₂ - toField x₁) * toField j.Z ^ 2 := by
  rw [jmaddH, toField_fsub (canonical_fmul _ _) cX, toField_fmul, toField_fmul, ← hj.x]
  ring

theorem AffineImage.toField_jmaddR (hj : AffineImage j x₁ y₁) (cY : Canonical j.Y) :
    toField (jmaddR j y₂) = (toField y₂ - toField y₁) * toField j.Z ^ 3 := by
  rw [jmaddR, toField_fsub (canonical_fmul _ _) cY, toField_fmul, toField_fmul, toField_fmul, ← hj.y]
  ring

/-- `H = 0` says that the two points have the same `x`. -/
theorem AffineImage.jmaddH_eq_zero (hj : AffineImage j x₁ y₁) (cX : Canonical j.X) (cx₂ : Canonical x₂)
    (hZ : toField j.Z ≠ 0) : jmaddH j x₂ = 0#256 ↔ x₁ = x₂ := by
  have : Fact p.Prime := ⟨p_prime⟩
  rw [← toField_eq_zero (canonical_jmaddH cX), hj.toField_jmaddH cX, mul_eq_zero_iff_right (pow_ne_zero 2 hZ),
    sub_eq_zero, toField_inj cx₂ hj.canonical_x, eq_comm]

/-- `r = 0` says that the two points have the same `y`. -/
theorem AffineImage.jmaddR_eq_zero (hj : AffineImage j x₁ y₁) (cY : Canonical j.Y) (cy₂ : Canonical y₂)
    (hZ : toField j.Z ≠ 0) : jmaddR j y₂ = 0#256 ↔ y₁ = y₂ := by
  have : Fact p.Prime := ⟨p_prime⟩
  rw [← toField_eq_zero (canonical_jmaddR cY), hj.toField_jmaddR cY, mul_eq_zero_iff_right (pow_ne_zero 3 hZ),
    sub_eq_zero, toField_inj cy₂ hj.canonical_y, eq_comm]

theorem jmadd_of_Z_zero (hZ : j.Z = 0#256) : jmadd j (.coordinates x₂ y₂) = ⟨x₂, y₂, 1#256⟩ := if_pos hZ

theorem jmadd_of_H_zero (hZ : j.Z ≠ 0#256) (hH : jmaddH j x₂ = 0#256) :
    jmadd j (.coordinates x₂ y₂) = if jmaddR j y₂ = 0#256 then jdbl j else jInfinity :=
  (if_neg hZ).trans (if_pos hH)

theorem jmadd_of_H_ne_zero (hZ : j.Z ≠ 0#256) (hH : jmaddH j x₂ ≠ 0#256) :
    jmadd j (.coordinates x₂ y₂) = jchord j (jmaddH j x₂) (jmaddR j y₂) :=
  (if_neg hZ).trans (if_neg hH)

/-- `jchord` is the chord law times powers of `ZH`. -/
theorem affineImage_jchord {m x₃ y₃ : W256} (hj : AffineImage j x₁ y₁) (cX : Canonical j.X) (cY : Canonical j.Y)
    (hslope : toField m * (toField x₂ - toField x₁) = toField y₂ - toField y₁) (hline : LineLaw m x₁ y₁ x₂ x₃ y₃) :
    AffineImage (jchord j (jmaddH j x₂) (jmaddR j y₂)) x₃ y₃ := by
  have hr : toField (jmaddR j y₂) = toField m * toField j.Z * toField (jmaddH j x₂) := by
    rw [hj.toField_jmaddR cY, hj.toField_jmaddH cX, ← hslope]
    ring
  have hx₃ : toField x₃ * toField (jchord j (jmaddH j x₂) (jmaddR j y₂)).Z ^ 2 =
      toField (jchord j (jmaddH j x₂) (jmaddR j y₂)).X := by
    rw [toField_jchord_X, toField_jchord_Z, hline.x, hr, ← hj.x, hj.toField_jmaddH cX]
    ring
  refine ⟨hline.canonical_x, hline.canonical_y, hx₃, ?_⟩
  rw [toField_jchord_Y, ← hx₃, toField_jchord_Z, hline.y, hr, ← hj.x, ← hj.y, hj.toField_jmaddH cX]
  ring

/-- The affine image of `jmadd` is the sum of the affine image and the second point. -/
theorem toAffine_jmadd {P Q : Point} (cX : Canonical j.X) (cY : Canonical j.Y) (cZ : Canonical j.Z) (cQ : Q.Canonical)
    (hP : toAffine j = .ok P) : toAffine (jmadd j Q) = padd P Q := by
  have : Fact p.Prime := ⟨p_prime⟩
  cases Q with
  | infinity => exact hP.trans (padd_infinity P).symm
  | coordinates x₂ y₂ =>
    obtain ⟨cx₂, cy₂⟩ := cQ
    by_cases hZ : j.Z = 0#256
    · rw [eq_infinity_of_toAffine hZ hP, jmadd_of_Z_zero hZ]
      exact toAffine_one cx₂ cy₂
    obtain ⟨x₁, y₁, rfl, hj⟩ := affineImage_of_toAffine cZ hZ hP
    have hZ' := toField_ne_zero cZ hZ
    have hHx := hj.jmaddH_eq_zero cX cx₂ hZ'
    by_cases hx : x₁ = x₂
    · subst hx
      rw [jmadd_of_H_zero hZ (hHx.mpr rfl)]
      have hry := hj.jmaddR_eq_zero cY cy₂ hZ'
      by_cases hy : y₁ = y₂
      · subst hy
        rw [if_pos (hry.mpr rfl), toAffine_jdbl cX cY cZ hP, padd_self]
      · rw [if_neg (mt hry.mp hy), padd_opposite (.inl hy), toAffine_jInfinity]
    have hH := mt hHx.mp hx
    obtain ⟨m, x₃, y₃, hR, hslope, hline⟩ := padd_chord hj.canonical_x hj.canonical_y cx₂ cy₂ hx
    rw [hR, jmadd_of_H_ne_zero hZ hH]
    refine (affineImage_jchord hj cX cY hslope hline).toAffine_eq (canonical_jchord_Z ..) ?_
    rw [toField_jchord_Z]
    exact mul_ne_zero hZ' (toField_ne_zero (canonical_jmaddH cX) hH)

end

/-! ### The obligations -/

/-- Settles O32: the row of PDBL, and the cases of R261. -/
theorem pdblIsTangentLaw : Obligations.PdblIsTangentLaw := by
  unfold Obligations.PdblIsTangentLaw
  simp only [bitsRd_eq, bitsRa_eq]
  refine ⟨encodedBy_of_mem_rows (by simp [rows, rowsPoint]),
    fun s rd ra => ⟨fun h => completesP_pdbl h rfl, fun x y h cx cy => ⟨?vertical, fun hy => ?tangent⟩⟩,
    padd_self, fun v hv => ⟨fsmul_two_eq_fmul v, ?double, fsmul_three_eq_fmul v⟩⟩
  case vertical => rintro rfl; exact completesP_pdbl h (pdbl_y_zero x)
  case tangent =>
    obtain ⟨m, x₃, y₃, hR, hslope, hline⟩ := pdbl_tangent cx cy hy
    refine ⟨m, x₃, y₃, hline.canonical_m, hline.canonical_x, hline.canonical_y, ?slope, ?x, hline.dvd_y,
      completesP_pdbl h hR⟩
    case slope =>
      rw [← ZMod.intCast_eq_intCast_iff_dvd_sub, mul_assoc 3, ← pow_two]
      push_cast
      exact hslope.symm
    case x => rw [two_mul, ← sub_sub]; exact hline.dvd_x
  case double => exact (fsmul_two_eq_fmul v).symm.trans (fsmul_two_eq_fadd hv)

/-- Settles O33: the row of PADD, and the cases of R262. -/
theorem paddIsGroupLaw : Obligations.PaddIsGroupLaw := by
  unfold Obligations.PaddIsGroupLaw
  simp only [bitsRd_eq, bitsRa_eq, bitsRb_eq]
  refine ⟨encodedBy_of_mem_rows (by simp [rows, rowsPoint]), fun s rd ra rb cP cQ =>
    ⟨fun hP => completesP_padd hP rfl rfl, fun _ hQ => completesP_padd rfl hQ (padd_infinity _),
      fun x₁ y₁ x₂ y₂ hP hQ => ⟨?double, ?opposite, fun hx => ?chord⟩⟩⟩
  case double =>
    rintro ⟨rfl, rfl, -⟩
    obtain ⟨R, hR, -⟩ := pdbl_ok cP
    exact ⟨R, hR, completesP_padd rfl (hQ.trans hP.symm) ((padd_self _).trans hR)⟩
  case opposite => rintro ⟨rfl, hy⟩; exact completesP_padd hP hQ (padd_opposite hy)
  case chord =>
    rw [hP] at cP
    rw [hQ] at cQ
    obtain ⟨m, x₃, y₃, hR, hslope, hline⟩ := padd_chord cP.1 cP.2 cQ.1 cQ.2 hx
    refine ⟨m, x₃, y₃, hline.canonical_m, hline.canonical_x, hline.canonical_y, ?slope, hline.dvd_x, hline.dvd_y,
      completesP_padd hP hQ hR⟩
    rw [← ZMod.intCast_eq_intCast_iff_dvd_sub]
    push_cast
    exact hslope.symm

/-- Settles O34: the identities are cases of R262, and commutativity is that of the group of the curve. -/
theorem pointAdditionLaws : Obligations.PointAdditionLaws := by
  unfold Obligations.PointAdditionLaws
  exact ⟨fun P Q hP hQ => ⟨padd_infinity P, rfl, padd_comm hP hQ⟩, rfl,
    fun x y h => padd_opposite (.inl h.fneg_y_ne.symm), pdbl_y_zero, fun P _ => padd_self P⟩

/-- Settles O36: on canonical coordinates each of the three functions has a result, with which its command completes. -/
theorem groupLawNeverRaises : Obligations.GroupLawNeverRaises := by
  unfold Obligations.GroupLawNeverRaises
  refine ⟨fun s rd ra rb hP hQ => ⟨?pdbl, ?padd, ?pmul⟩, fun _ => fsmul_two_ne_zero,
    fun _ _ h₁ h₂ hne => fsub_ne_zero h₂ h₁ hne.symm⟩
  case pdbl =>
    obtain ⟨R, hR, -⟩ := pdbl_ok hP.canonical
    exact (completesP_pdbl rfl hR).code
  case padd =>
    obtain ⟨R, hR, -⟩ := padd_ok hP.canonical hQ.canonical
    exact (completesP_padd rfl rfl hR).code
  case pmul =>
    obtain ⟨R, hR, -⟩ := pmul_ok hP.canonical (s.readK rb).value
    exact (completesP_of_result (i := .pmul rd ra rb) rfl hR).code

/-- Settles O37: an internal form takes the affine image of what it does with the Jacobian form of the first point. -/
theorem jacobianFormsAgree : Obligations.JacobianFormsAgree := by
  unfold Obligations.JacobianFormsAgree
  refine ⟨fun j P Q cX cY cZ cQ hP => ⟨toAffine_jdbl cX cY cZ hP, toAffine_jmadd cX cY cZ cQ hP⟩,
    fun form P Q cP cQ => ?_⟩
  cases form with
  | affine => exact ⟨rfl, rfl⟩
  | jacobian =>
    obtain ⟨cX, cY, cZ⟩ := canonical_toJacobian cP
    have hP := toAffine_toJacobian cP
    exact ⟨toAffine_jdbl cX cY cZ hP, toAffine_jmadd cX cY cZ cQ hP⟩

end Sys2Proof.Machine
end

section
/-! SUPPORT. The scalar multiplier (R291 to R299). With each double of the running point in hand, a turn of the loop of
R292 needs no error branch; and the windowed multiplier of R297 computes in the group of the curve. -/

namespace Sys2Proof.Machine

open Sys2Proof.Config (p N)

/-! ### The loop of double-and-add (R292) -/

@[simp] theorem pmulLoop_zero (fuel : ℕ) (acc run : Point) : pmulLoop fuel 0 acc run = .ok acc := by
  cases fuel <;> rfl

/-- A turn of the loop, when the running point has a double; at scalar 0 it changes nothing. -/
theorem pmulLoop_succ {run run' : Point} (hdouble : padd run run = .ok run') (fuel r : ℕ) (acc : Point) :
    pmulLoop (fuel + 1) r acc run =
      (if r % 2 = 1 then padd acc run else .ok acc) >>= fun acc' => pmulLoop fuel (r / 2) acc' run' := by
  by_cases h0 : r = 0
  · subst h0
    exact (pmulLoop_zero _ _ _).trans (pmulLoop_zero _ _ _).symm
  · rw [pmulLoop, if_neg h0, hdouble]
    cases (if r % 2 = 1 then padd acc run else Except.ok acc) <;> rfl

/-- The running point after `j` turns: `P` doubled `j` times. -/
def doublings (P : Point) (j : ℕ) : Except ErrorKind Point :=
  Nat.repeat (fun q => q >>= fun run => padd run run) j (.ok P)

theorem doublings_succ {P run : Point} {j : ℕ} (hrun : doublings P j = .ok run) :
    doublings P (j + 1) = padd run run :=
  congrArg (· >>= fun run => padd run run) hrun

/-- The loop from bit `j` of `r` on adds the doublings of `P` at the set bits of `r` from there on. -/
theorem pmulLoop_eq_foldlM {P run : Point} {j : ℕ} (hrun : doublings P j = .ok run) (crun : run.Canonical)
    (fuel r : ℕ) (acc : Point) :
    pmulLoop fuel (r / 2 ^ j) acc run =
      ((List.range' j fuel).filter fun i => r.testBit i).foldlM (fun acc i => doublings P i >>= padd acc) acc := by
  induction fuel generalizing j run acc with
  | zero => rfl
  | succ fuel ih =>
    obtain ⟨run', hdouble, crun'⟩ := padd_ok crun crun
    have hturn := ih ((doublings_succ hrun).trans hdouble) crun'
    rw [pmulLoop_succ hdouble, List.range'_succ, Nat.div_div_eq_div_mul, ← pow_succ]
    simp only [hturn]
    by_cases hbit : r.testBit j
    · have hodd : r / 2 ^ j % 2 = 1 := by simpa [Nat.testBit_eq_decide_div_mod_eq] using hbit
      rw [if_pos hodd, List.filter_cons_of_pos hbit, List.foldlM_cons, hrun]
      rfl
    · have heven : r / 2 ^ j % 2 ≠ 1 := by simpa [Nat.testBit_eq_decide_div_mod_eq] using hbit
      rw [if_neg heven, List.filter_cons_of_neg hbit]
      rfl

/-- `pmul` is the sum of the doublings of the point at the set bits of the reduced scalar. -/
theorem pmul_eq_foldlM {P : Point} (h : P.Canonical) (k : ℤ) :
    pmul P k = ((List.range 256).filter fun j => (reduceScalar k).testBit j).foldlM
      (fun acc j => doublings P j >>= padd acc) .infinity := by
  simpa only [pmul, pow_zero, Nat.div_one, ← List.range_eq_range'] using
    pmulLoop_eq_foldlM (j := 0) rfl h 256 (reduceScalar k) .infinity

/-! ### The laws of scalar multiplication (R293, R299) -/

theorem reduceScalar_eq_iff (k k' : ℤ) : reduceScalar k = reduceScalar k' ↔ k % (N : ℤ) = k' % (N : ℤ) := by
  rw [← reduceScalar_eq, ← reduceScalar_eq, Int.natCast_inj]

theorem pmul_congr (P : Point) {k k' : ℤ} (h : k % (N : ℤ) = k' % (N : ℤ)) : pmul P k = pmul P k' := by
  rw [pmul, pmul, (reduceScalar_eq_iff k k').mpr h]

theorem pmul_of_reduceScalar_zero (P : Point) {k : ℤ} (h : reduceScalar k = 0) : pmul P k = .ok .infinity := by
  rw [pmul, h, pmulLoop_zero]

theorem pmul_one {P : Point} (h : P.Canonical) : pmul P 1 = .ok P := by
  obtain ⟨D, hD, -⟩ := padd_ok h h
  rw [pmul, show reduceScalar 1 = 1 by decide +kernel, pmulLoop_succ hD]
  exact pmulLoop_zero _ _ _

theorem pmul_two {P : Point} (h : P.Canonical) : pmul P 2 = padd P P := by
  obtain ⟨D, hD, cD⟩ := padd_ok h h
  obtain ⟨D', hD', -⟩ := padd_ok cD cD
  rw [pmul, show reduceScalar 2 = 2 by decide +kernel, pmulLoop_succ hD, hD]
  exact (pmulLoop_succ hD' 254 1 .infinity).trans (pmulLoop_zero _ _ _)

theorem pmulLoop_infinity_infinity (fuel r : ℕ) : pmulLoop fuel r .infinity .infinity = .ok .infinity := by
  induction fuel generalizing r with
  | zero => rfl
  | succ fuel ih =>
    rw [pmulLoop_succ (run' := .infinity) rfl]
    split <;> exact ih _

/-! ### The Jacobian accumulator of the windowed multiplier (R297) -/

/-- The triple stands for the point of the group that its affine image does. -/
structure JRepresents (j : Jacobian) (A : curve.Point) : Prop where
  canonical_X : Canonical j.X
  canonical_Y : Canonical j.Y
  canonical_Z : Canonical j.Z
  image : ∃ P, toAffine j = .ok P ∧ Represents P A

theorem jRepresents_jInfinity : JRepresents jInfinity 0 :=
  ⟨canonical_one, canonical_one, canonical_zero, _, toAffine_jInfinity, rfl⟩

theorem Represents.canonical {P : Point} {A : curve.Point} (h : Represents P A) : P.Canonical :=
  (Point.ok_iff_represents.mpr ⟨A, h⟩).canonical

theorem canonical_jdbl (j : Jacobian) : Canonical (jdbl j).X ∧ Canonical (jdbl j).Y ∧ Canonical (jdbl j).Z := by
  by_cases h : j.Z = 0#256 ∨ j.Y = 0#256
  · rw [jdbl_of_zero h]
    exact ⟨canonical_one, canonical_one, canonical_zero⟩
  · rw [jdbl, if_neg h]
    exact ⟨canonical_fsub (canonical_fmul _ _) (canonical_fsmul _ _),
      canonical_fsub (canonical_fmul _ _) (canonical_fsmul _ _), canonical_fsmul _ _⟩

theorem canonical_jmadd {j : Jacobian} {Q : Point} (cX : Canonical j.X) (cY : Canonical j.Y) (cZ : Canonical j.Z)
    (cQ : Q.Canonical) : Canonical (jmadd j Q).X ∧ Canonical (jmadd j Q).Y ∧ Canonical (jmadd j Q).Z := by
  cases Q with
  | infinity => exact ⟨cX, cY, cZ⟩
  | coordinates x y =>
    by_cases hZ : j.Z = 0#256
    · rw [jmadd_of_Z_zero hZ]
      exact ⟨cQ.1, cQ.2, canonical_one⟩
    by_cases hH : jmaddH j x = 0#256
    · rw [jmadd_of_H_zero hZ hH]
      split
      · exact canonical_jdbl j
      · exact ⟨canonical_one, canonical_one, canonical_zero⟩
    · rw [jmadd_of_H_ne_zero hZ hH]
      exact ⟨canonical_jchord_X .., canonical_fsub (canonical_fmul _ _) (canonical_fmul _ _), canonical_jchord_Z ..⟩

section
variable [Fact p.Prime] {j : Jacobian} {A B : curve.Point}

theorem JRepresents.jdbl (h : JRepresents j A) : JRepresents (jdbl j) (2 • A) := by
  obtain ⟨cX, cY, cZ, P, hP, rP⟩ := h
  obtain ⟨cX', cY', cZ'⟩ := canonical_jdbl j
  rw [two_nsmul]
  exact ⟨cX', cY', cZ', (toAffine_jdbl cX cY cZ hP).symm ▸ rP.pdbl⟩

theorem JRepresents.jmadd {Q : Point} (h : JRepresents j A) (hQ : Represents Q B) :
    JRepresents (jmadd j Q) (A + B) := by
  obtain ⟨cX, cY, cZ, P, hP, rP⟩ := h
  obtain ⟨cX', cY', cZ'⟩ := canonical_jmadd cX cY cZ hQ.canonical
  exact ⟨cX', cY', cZ', (toAffine_jmadd cX cY cZ hQ.canonical hP).symm ▸ rP.padd hQ⟩

theorem JRepresents.jdblTimes (h : JRepresents j A) (w : ℕ) : JRepresents (jdblTimes w j) (2 ^ w • A) := by
  induction w generalizing j A with
  | zero => rwa [pow_zero, one_nsmul]
  | succ w ih =>
    rw [pow_succ, mul_nsmul']
    exact ih h.jdbl

/-! ### The table and the digits (R297) -/

/-- The list holds the multiples of a point of the group from 0 to `n`. -/
structure MultiplesTable (A : curve.Point) (n : ℕ) (tab : List Point) : Prop where
  length : tab.length = n + 1
  entry : ∀ i ≤ n, Represents (tab.getD i .infinity) (i • A)

theorem multiplesTable_zero (A : curve.Point) : MultiplesTable A 0 [.infinity] := by
  refine ⟨rfl, fun i hi => ?_⟩
  obtain rfl : i = 0 := by omega
  exact zero_nsmul A

theorem MultiplesTable.last {n : ℕ} {tab : List Point} (h : MultiplesTable A n tab) :
    Represents (tab.getLastD .infinity) (n • A) := by
  have hlast := h.entry n le_rfl
  rwa [List.getD_eq_getElem?_getD, show n = tab.length - 1 by rw [h.length]; rfl, ← List.getLast?_eq_getElem?,
    ← List.getLastD_eq_getLast?, h.length] at hlast

theorem MultiplesTable.append {n : ℕ} {tab : List Point} {Q : Point} (h : MultiplesTable A n tab)
    (hQ : Represents Q ((n + 1) • A)) : MultiplesTable A (n + 1) (tab ++ [Q]) := by
  refine ⟨by rw [List.length_append, h.length]; rfl, fun i hi => ?_⟩
  obtain hi | rfl := Nat.lt_or_eq_of_le hi
  · rw [List.getD_append _ _ _ _ (h.length ▸ hi)]
    exact h.entry i (Nat.le_of_lt_succ hi)
  · rwa [List.getD_append_right _ _ _ _ h.length.le, h.length, Nat.sub_self]

theorem Represents.windowTable {P : Point} (h : Represents P A) (n : ℕ) :
    ∃ tab, windowTable P n = .ok tab ∧ MultiplesTable A n tab := by
  induction n with
  | zero => exact ⟨_, rfl, multiplesTable_zero A⟩
  | succ n ih =>
    obtain ⟨tab, htab, hmul⟩ := ih
    obtain ⟨Q, hQ, rQ⟩ := hmul.last.padd h
    refine ⟨tab ++ [Q], ?_, hmul.append (by rwa [succ_nsmul])⟩
    rw [Machine.windowTable, htab]
    simp only [hQ]

/-- From the most significant digit on, the accumulator holds the multiple by the digits read so far. -/
theorem MultiplesTable.jRepresents_foldr {w : ℕ} {tab : List Point} (h : MultiplesTable A (2 ^ w - 1) tab)
    (hw : 1 ≤ w) {fuel r : ℕ} (hr : r < 2 ^ fuel) :
    JRepresents ((windowDigits w fuel r).foldr
      (fun d acc => Machine.jmadd (Machine.jdblTimes w acc) (tab.getD d .infinity)) jInfinity) (r • A) := by
  induction fuel generalizing r with
  | zero =>
    obtain rfl : r = 0 := by omega
    exact (zero_nsmul A).symm ▸ jRepresents_jInfinity
  | succ fuel ih =>
    by_cases h0 : r = 0
    · subst h0
      exact (zero_nsmul A).symm ▸ jRepresents_jInfinity
    have hquot : r / 2 ^ w < 2 ^ fuel := by
      refine Nat.div_lt_of_lt_mul (hr.trans_le ?_)
      rw [← pow_add]
      exact Nat.pow_le_pow_right two_pos (by omega)
    have hdigit : r % 2 ^ w ≤ 2 ^ w - 1 := Nat.le_sub_one_of_lt (Nat.mod_lt r (by positivity))
    have hsum : 2 ^ w • (r / 2 ^ w) • A + (r % 2 ^ w) • A = r • A := by
      rw [← mul_nsmul', ← add_nsmul, Nat.div_add_mod]
    rw [windowDigits, if_neg h0, List.foldr_cons, ← hsum]
    exact ((ih hquot).jdblTimes w).jmadd (h.entry _ hdigit)

/-- `pmul_win` is the multiplication of the group by the reduced scalar. -/
theorem Represents.pmulWin {P : Point} (h : Represents P A) (k : ℤ) {w : ℕ} (hw : 1 ≤ w) :
    ∃ R, pmulWin P k w = .ok R ∧ Represents R (reduceScalar k • A) := by
  obtain ⟨tab, htab, hmul⟩ := h.windowTable (2 ^ w - 1)
  rw [Machine.pmulWin, htab]
  simp only [List.foldl_reverse]
  exact (hmul.jRepresents_foldr hw ((reduceScalar_lt k).trans N_lt)).image

end

/-! ### The obligations -/

/-- Settles O38: the row of PMUL, and the loop of R292 bit by bit. -/
theorem pmulIsDoubleAndAdd : Obligations.PmulIsDoubleAndAdd := by
  unfold Obligations.PmulIsDoubleAndAdd
  simp only [bitsRd_eq, bitsRa_eq, bitsRb_eq]
  refine ⟨encodedBy_of_mem_rows (by simp [rows, rowsPoint]), reduceScalar_eq, fun s rd ra rb cP => ?_⟩
  obtain ⟨R, hR, -⟩ := pmul_ok cP (s.readK rb).value
  exact ⟨R, (pmul_eq_foldlM cP _).symm.trans hR, completesP_of_result rfl hR⟩

/-- Settles O39: `pmul` sees the scalar modulo `N` only, and the loop on the scalars 1 and 2 takes one and two turns. -/
theorem pmulLaws : Obligations.PmulLaws := by
  unfold Obligations.PmulLaws
  exact ⟨fun P cP => ⟨pmul_of_reduceScalar_zero P (by decide +kernel), pmul_one cP, pmul_two cP,
      pmul_of_reduceScalar_zero P (by decide +kernel), pmul_congr P (by decide +kernel)⟩,
    fun k => pmulLoop_infinity_infinity 256 (reduceScalar k), fun P k k' => pmul_congr P⟩

/-- Settles O41: both multipliers give the multiple of the same point of the group by the reduced scalar. -/
theorem windowedMultiplierAgrees : Obligations.WindowedMultiplierAgrees := by
  unfold Obligations.WindowedMultiplierAgrees
  have : Fact p.Prime := ⟨p_prime⟩
  intro P k w hP hw
  obtain ⟨A, hA⟩ := Point.ok_iff_represents.mp hP
  obtain ⟨R, hR, rR⟩ := hA.pmulLoop_infinity ((reduceScalar_lt k).trans N_lt)
  obtain ⟨R', hR', rR'⟩ := hA.pmulWin k hw
  rw [pmul, hR, hR', rR'.unique rR]

end Sys2Proof.Machine
end

section
/-! SUPPORT. Errors (R310 to R317): what a failing completion records and leaves, the codes each command can answer, the
one origin of `NotOnCurve`, and the completion of an illegal word. -/

namespace Sys2Proof.Machine

/-! ### Illegal words (R317) -/

theorem sequencerTurn_of_illegal {s : State} (hb : s.busy = true) (hh : s.hreset = false)
    (hd : decode s.cur = .illegal) : sequencerTurn s = .next s.completeIllegal := by
  simp [sequencerTurn, completeStep, hb, hh, hd]

theorem completeIllegal_fails (s : State) : Fails 5 s s.completeIllegal := fail_fails s .illegalCommand

/-- Settles O8: the acceptance writes any word to `CUR`, and the sequencer's turn, at an empty port or at its event,
ends an illegal one by the completion that every error shares. -/
theorem illegalWordCompletes : Obligations.IllegalWordCompletes := by
  unfold Obligations.IllegalWordCompletes
  refine ⟨fun s w hb rest hh hp => ?_, fun s hb hh hd => ⟨fun hp => ?_, fun rest hp => ?_⟩⟩
  · obtain ⟨t, hstep, hport, hreply, hsame⟩ := cmd_write_accepted w hb rest hh hp
    exact ⟨t, hstep, hport, hreply, hsame.busy, hsame.done, hsame.cur⟩
  · exact ⟨_, (step_of_nil hp).trans (sequencerTurn_of_illegal hb hh hd), completeIllegal_fails s⟩
  · exact ⟨_, (step_of_cons hp).trans (sequencerTurn_of_illegal hb hh hd), completeIllegal_fails _⟩

/-! ### The codes of a completion (R311, R312, R316) -/

namespace Completion

variable {i : Instr} {s t : State} (h : Completion i s t)
include h

theorem code_listed : t.code = 0#4 ∨ t.code.toNat ∈ mayRaise i := by
  cases h with
  | error e d _ => exact .inr d
  | notOnCurve l r d => exact .inr d
  | _ => exact .inl rfl

theorem failsExceptDiag (hcode : t.code ≠ 0#4) : FailsExceptDiag t.code.toNat s t := by
  cases h with
  | error e _ _ => exact fail_failsExceptDiag s e
  | notOnCurve l r _ => exact failNotOnCurve_fails s l r
  | _ => exact absurd rfl hcode

theorem diag_eq (hcode : t.code ≠ 2#4) : t.diagl = s.diagl ∧ t.diagr = s.diagr :=
  ⟨by_contra fun hl => hcode (h.diag_ne (.inl hl)), by_contra fun hr => hcode (h.diag_ne (.inr hr))⟩

end Completion

/-- Settles O43: an error of a completion is one that the table lists. -/
theorem onlyListedErrors : Obligations.OnlyListedErrors := by
  unfold Obligations.OnlyListedErrors
  exact fun i s t hexec => (exec_completion hexec).code_listed

/-! ### `NotOnCurve` (R233, R316) -/

/-- PNEW is the only row of the table that lists code 2 (R311). -/
theorem eq_pnew_of_two_mem_mayRaise {i : Instr} (h : 2 ∈ mayRaise i) :
    ∃ rd ra rb hx hy, i = .pnew rd ra rb hx hy := by
  cases i with
  | pnew rd ra rb hx hy => exact ⟨rd, ra, rb, hx, hy, rfl⟩
  | _ => simp [mayRaise] at h

/-- PNEW answers code 2 only when it has both coordinates and they fail the curve test (R233). -/
theorem execPnew_code_two {rd ra rb : Nibble} {hx hy : Bool} {s t : State}
    (h : execPnew rd ra rb hx hy s = .next t) (hcode : t.code = 2#4) :
    hx = true ∧ hy = true ∧ t = s.failNotOnCurve (lhs (s.readF rb)) (rhs (s.readF ra)) := by
  cases hx <;> cases hy
  case false.false => cases h; cases hcode
  case false.true => cases h; cases hcode
  case true.false => cases h; cases hcode
  case true.true =>
    rw [execPnew_coordinates] at h
    split at h
    · cases h; cases hcode
    · exact ⟨rfl, rfl, (Host.Outcome.next.inj h).symm⟩

/-- Code 2 comes from a PNEW of two coordinates, with both sides of the failed equation as its diagnostics (R48). -/
theorem exec_code_two {i : Instr} {s t : State} (h : exec i s = .next t) (hcode : t.code = 2#4) :
    ∃ rd ra rb, i = .pnew rd ra rb true true ∧ t = s.failNotOnCurve (lhs (s.readF rb)) (rhs (s.readF ra)) := by
  have hlisted : 2 ∈ mayRaise i := by simpa [hcode] using (exec_completion h).code_listed
  obtain ⟨rd, ra, rb, hx, hy, rfl⟩ := eq_pnew_of_two_mem_mayRaise hlisted
  obtain ⟨rfl, rfl, ht⟩ := execPnew_code_two h hcode
  exact ⟨rd, ra, rb, rfl, ht⟩

/-- Settles O42: by the five forms of a completion, and the one origin of `NotOnCurve`. -/
theorem failureChangesNoRegister : Obligations.FailureChangesNoRegister := by
  unfold Obligations.FailureChangesNoRegister
  intro i s t hexec hcode
  have h := exec_completion hexec
  refine ⟨h.failsExceptDiag hcode, h.diag_eq, fun htwo => ?_⟩
  obtain ⟨rd, ra, rb, hi, rfl⟩ := exec_code_two hexec htwo
  exact ⟨rd, ra, rb, hi, lhs_toNat _, rhs_toNat _⟩

end Sys2Proof.Machine
end
